-- ==== Sys2Proof/Word.lean ====
section
/-! DEFINITION. The two word types of the OTP core: the byte of every port, buffer and Key Store cell (spec/00_scope.md
R12) and the 16-bit event word (spec/30_encoding.md R71). -/
namespace Sys2Proof

/-- A byte: 8 bits, unsigned, 0 to 255 (R12). -/
abbrev Byte := BitVec 8

/-- The event word, format EV16: kind in bits 15:8, data in bits 7:0 (R71). -/
abbrev EventWord := BitVec 16

end Sys2Proof
end

