-- ==== Sys2Proof/Syntax.lean ====
section
/-! DEFINITION. The event operations of spec/opcode_table.json, one constructor per row (spec/30_encoding.md R74). The
six RX operations share the kind 0x01: the state selects among them (spec/43_provisioning.md R151), which the decoder
does from the context it is given (Decode.lean). -/
namespace Sys2Proof

/-- One event operation of the OTP core; `d` is the received byte, the data field D of the event word. -/
inductive Instr where
  /-- RX.OFF (R163): a byte while unpowered. -/
  | rxOff (d : Byte)
  /-- RX.DROP (R152): a byte while powered and not Listening. -/
  | rxDrop (d : Byte)
  /-- RX.SENTINEL (R154): the byte 0xAA while Listening and IDLE. -/
  | rxSentinel
  /-- RX.IGNORED (R153): any other byte while Listening and IDLE. -/
  | rxIgnored (d : Byte)
  /-- RX.KEY (R155): a key byte of a frame, not its last. -/
  | rxKey (d : Byte)
  /-- RX.KEY_LAST (R156): the last key byte of a frame; it commits. -/
  | rxKeyLast (d : Byte)
  /-- BTN (R181): a qualifying edge of the button. -/
  | btn
  /-- TICK (R182): one period of the time base. -/
  | tick
  /-- PWR_OFF (R241): the main supply is removed. -/
  | pwrOff
  /-- PWR_ON (R242): the power-on reset. -/
  | pwrOn
  deriving DecidableEq, Repr

end Sys2Proof
end

