-- ==== Sys2Proof/WellFormed.lean ====
section
/-! DEFINITION. Which terms of Instr an event word can spell: the only operand restriction of spec/opcode_table.json is
RX.IGNORED's `D != 0xAA` (spec/43_provisioning.md R153). -/
namespace Sys2Proof

/-- The sentinel byte of the provisioning frame (R75). -/
def sentinel : Byte := 0xAA

/-- An operation is well-formed when its data field is one its row admits. -/
def Instr.wf : Instr → Bool
  | .rxOff _ => true
  | .rxDrop _ => true
  | .rxSentinel => true
  | .rxIgnored d => d != sentinel
  | .rxKey _ => true
  | .rxKeyLast _ => true
  | .btn => true
  | .tick => true
  | .pwrOff => true
  | .pwrOn => true

end Sys2Proof
end

