-- ==== Sys2Proof/Decode.lean ====
section
/-! DEFINITION. Event words to operations and back. Decoding has two parts, as in spec/30_encoding.md R73 and R74: the
word gives an event or is rejected by name; for an RX event the state, seen through the four facts of `RxContext`,
selects the operation in the order of spec/43_provisioning.md R151. The encoder follows the words of R73 and
spec/opcode_table.json. -/
namespace Sys2Proof

/-- The event a word spells (R73), before the state selects an RX operation. -/
inductive Event where
  | rx (d : Byte)
  | btn
  | tick
  | pwrOff
  | pwrOn
  deriving DecidableEq, Repr

/-- Why a word spells no event (R73): both are RESERVED_EVENT. -/
inductive DecodeError where
  /-- A kind that is 0x00 or 0x06..0xFF. -/
  | reservedKind (k : Byte)
  /-- Nonzero data on a kind other than RX. -/
  | nonzeroData (k d : Byte)
  deriving DecidableEq, Repr

/-- What RX dispatch reads of the state (R151). -/
structure RxContext where
  /-- `powered` = 1. -/
  powered : Bool
  /-- `cl_dev_state` = LISTENING. -/
  listening : Bool
  /-- `pf_state` = COLLECTING. -/
  collecting : Bool
  /-- Not `pf_idx` < N - 1. -/
  lastKey : Bool
  deriving DecidableEq, Repr

/-- The kind field K, bits 15:8 (R71). -/
def kindOf (w : EventWord) : Byte := w.extractLsb' 8 8

/-- The data field D, bits 7:0 (R71). -/
def dataOf (w : EventWord) : Byte := w.extractLsb' 0 8

/-- An event of a kind other than RX: D must be 0x00 (R71, R73). -/
def withoutData (k d : Byte) (e : Event) : Except DecodeError Event :=
  if d = 0x00 then .ok e else .error (.nonzeroData k d)

/-- The event kinds of R73, every other word rejected by name. -/
def decodeEvent (w : EventWord) : Except DecodeError Event :=
  if kindOf w = 0x01 then .ok (.rx (dataOf w))
  else if kindOf w = 0x02 then withoutData (kindOf w) (dataOf w) .btn
  else if kindOf w = 0x03 then withoutData (kindOf w) (dataOf w) .tick
  else if kindOf w = 0x04 then withoutData (kindOf w) (dataOf w) .pwrOff
  else if kindOf w = 0x05 then withoutData (kindOf w) (dataOf w) .pwrOn
  else .error (.reservedKind (kindOf w))

/-- RX dispatch, in the order of R151: exactly one operation for every byte and context. -/
def selectRx (c : RxContext) (d : Byte) : Instr :=
  if c.powered = false then .rxOff d
  else if c.listening = false then .rxDrop d
  else if c.collecting = false ∧ d = sentinel then .rxSentinel
  else if c.collecting = false then .rxIgnored d
  else if c.lastKey = false then .rxKey d
  else .rxKeyLast d

/-- The operation an event names in a context (R74). -/
def selectOp (c : RxContext) : Event → Instr
  | .rx d => selectRx c d
  | .btn => .btn
  | .tick => .tick
  | .pwrOff => .pwrOff
  | .pwrOn => .pwrOn

/-- THE DECODER: total on every 16-bit word in every context (R88, R74). -/
def decode (c : RxContext) (w : EventWord) : Except DecodeError Instr :=
  match decodeEvent w with
  | .ok e => .ok (selectOp c e)
  | .error r => .error r

/-- A word of kind `k` and data `d`: K in bits 15:8, D in bits 7:0 (R71). -/
def eventWord (k d : Byte) : EventWord := k ++ d

/-- THE ENCODER: the event word of each operation (R73, R86, spec/opcode_table.json). -/
def encode : Instr → EventWord
  | .rxOff d => eventWord 0x01 d
  | .rxDrop d => eventWord 0x01 d
  | .rxSentinel => eventWord 0x01 0xAA
  | .rxIgnored d => eventWord 0x01 d
  | .rxKey d => eventWord 0x01 d
  | .rxKeyLast d => eventWord 0x01 d
  | .btn => eventWord 0x02 0x00
  | .tick => eventWord 0x03 0x00
  | .pwrOff => eventWord 0x04 0x00
  | .pwrOn => eventWord 0x05 0x00

/-- The context is one in which the operation's row of the table applies (its "condition" column; R74). -/
def RxContext.admits (c : RxContext) : Instr → Bool
  | .rxOff _ => !c.powered
  | .rxDrop _ => c.powered && !c.listening
  | .rxSentinel => c.powered && c.listening && !c.collecting
  | .rxIgnored _ => c.powered && c.listening && !c.collecting
  | .rxKey _ => c.powered && c.listening && c.collecting && !c.lastKey
  | .rxKeyLast _ => c.powered && c.listening && c.collecting && c.lastKey
  | .btn => true
  | .tick => true
  | .pwrOff => true
  | .pwrOn => true

/-- The row's match word in spec/opcode_table.json. -/
def tableMatch : Instr → EventWord
  | .rxOff _ => 0x0100
  | .rxDrop _ => 0x0100
  | .rxSentinel => 0x01AA
  | .rxIgnored _ => 0x0100
  | .rxKey _ => 0x0100
  | .rxKeyLast _ => 0x0100
  | .btn => 0x0200
  | .tick => 0x0300
  | .pwrOff => 0x0400
  | .pwrOn => 0x0500

/-- The row's mask in spec/opcode_table.json. -/
def tableMask : Instr → EventWord
  | .rxOff _ => 0xFF00
  | .rxDrop _ => 0xFF00
  | .rxSentinel => 0xFFFF
  | .rxIgnored _ => 0xFF00
  | .rxKey _ => 0xFF00
  | .rxKeyLast _ => 0xFF00
  | .btn => 0xFFFF
  | .tick => 0xFFFF
  | .pwrOff => 0xFFFF
  | .pwrOn => 0xFFFF

/-- Powered, Listening, no frame in flight: the context in which the framer reads a byte from the word alone
(RX.SENTINEL or RX.IGNORED). -/
def RxContext.listeningIdle : RxContext where
  powered := true
  listening := true
  collecting := false
  lastKey := false

/-- The host's reading of one table word: the decoder at the context `listeningIdle`, since a word alone does not
select among the six RX rows (log entry 8). -/
def decodeTableWord (nbits w : Nat) : Option Instr :=
  if nbits ≤ 16 ∧ w < 2 ^ nbits then
    match decode RxContext.listeningIdle (BitVec.ofNat 16 w) with
    | .ok i => some i
    | .error _ => none
  else none

end Sys2Proof
end

