-- ==== Sys2Proof/Config.lean ====
section
/-! DEFINITION. The build-time parameters of spec/00_scope.md R10 as ONE configuration record (plain data, carried in
State so that every claim is about every legal configuration), the configuration the test vectors take, and the
model's uninterpreted constants: the hash function H (R100) and the free values. -/
namespace Sys2Proof

/-- HASH_ALG (R10): the hash primitive. -/
inductive HashAlg where
  | sha1
  | sha256
  deriving DecidableEq, Repr, Inhabited

/-- TIME_STRATEGY (R10, R130): battery-backed counter or free-running uptime. -/
inductive TimeStrategy where
  | rtc
  | uptime
  deriving DecidableEq, Repr, Inhabited

/-- TIME_WIDTH (R10, R23): the width TW of the seconds counter. -/
inductive TimeWidth where
  | w64
  | w32
  deriving DecidableEq, Repr, Inhabited

/-- LISTEN_MODE (R10, R180): how Listening is entered. -/
inductive ListenMode where
  | periodic
  | continuous
  deriving DecidableEq, Repr, Inhabited

/-- DISPLAY_MODE (R10, R185): how a display ends. -/
inductive DisplayMode where
  | flat
  | windowEnd
  deriving DecidableEq, Repr, Inhabited

/-- KS_FAULT_MODEL (R10, R54): whether a Key Store read may fail. -/
inductive KsFaultModel where
  | never
  | draw
  deriving DecidableEq, Repr, Inhabited

/-- IGNORED_ECHO_FORMAT (R10, R79): the spelling of the hex echo. -/
inductive EchoFormat where
  | minimalUpperCrlf
  | paddedUpperCrlf
  deriving DecidableEq, Repr, Inhabited

/-- The implementation parameters of R10. None changes while the block runs. B (64) and PROV_TIMEOUT_MS (2000) have one
legal value each and are the constants `blockLen` and `provTimeoutMs`. -/
structure Config where
  /-- N (KEY_LEN): secret key length in bytes, 1 to 64. -/
  keyLen : Nat
  /-- HASH_ALG. -/
  hashAlg : HashAlg
  /-- DL (DIGEST_LEN): 20 for SHA1, 32 for SHA256. -/
  digestLen : Nat
  /-- S (TIMESTEP): the OTP step window in seconds, at least 1. -/
  timestep : Nat
  /-- TIME_STRATEGY. -/
  timeStrategy : TimeStrategy
  /-- TW (TIME_WIDTH). -/
  timeWidth : TimeWidth
  /-- TPS: time-base ticks per second, at least 1 (OPEN). -/
  tps : Nat
  /-- LISTEN_MODE. -/
  listenMode : ListenMode
  /-- LISTEN_PERIOD_TICKS (OPEN). -/
  listenPeriodTicks : Nat
  /-- LISTEN_WINDOW_TICKS (OPEN). -/
  listenWindowTicks : Nat
  /-- DISPLAY_MODE. -/
  displayMode : DisplayMode
  /-- DISPLAY_TICKS (OPEN). -/
  displayTicks : Nat
  /-- KS_BASE: the Key Store's base address in the storage device (OPEN; no effect on any rule, R51). -/
  ksBase : Nat
  /-- KS_FAULT_MODEL. -/
  ksFaultModel : KsFaultModel
  /-- IGNORED_ECHO_FORMAT. -/
  echoFormat : EchoFormat
  deriving DecidableEq, Repr, Inhabited

/-- B (BLOCK_LEN), the hash block length in bytes (R10). -/
def blockLen : Nat := 64

/-- PROV_TIMEOUT_MS, the provisioning deadline (R10, R140). -/
def provTimeoutMs : Nat := 2000

/-- The values R10 takes; the OPEN parameters have the values spec/95_test_vectors.md fixes for its vectors
(DESIGN CHOICE, log entry 2): only `State.reset` uses them. -/
def Config.taken : Config where
  keyLen := 20
  hashAlg := .sha1
  digestLen := 20
  timestep := 30
  timeStrategy := .rtc
  timeWidth := .w64
  tps := 1000
  listenMode := .periodic
  listenPeriodTicks := 10000
  listenWindowTicks := 3000
  displayMode := .flat
  displayTicks := 5000
  ksBase := 0
  ksFaultModel := .never
  echoFormat := .minimalUpperCrlf

/-- The places at which the spec leaves a value open and the machine goes on: one slot per element, so that the values
drawn at one moment are unrelated. -/
inductive FreeSlot where
  | pfState
  | pfIdx
  | pfBuf (i : Nat)
  | pfTimer
  | oeIpad (i : Nat)
  | oeOpad (i : Nat)
  | oePadsValid
  | oeCode
  | oeCodeValid
  | clDevState
  | clPendingWake
  | clListenTimer
  | clDispTimer
  | clDispWindow
  | stKsError
  | stRxDropped
  | hashStreamLength
  | hashStreamByte (i : Nat)
  | ksReadFails
  deriving DecidableEq, Repr

/-- THE FREE VALUES: what an element the spec calls unspecified holds (R22, R29, R40, R54). No body, so nothing can be
proved of a value of it; `draw` is State's counter, advanced at every use (log entry 5). -/
opaque Config.free (draw : Nat) (slot : FreeSlot) : Nat

/-- Byte `i` of the digest `H(stream)` of the hash primitive (R100), uninterpreted: "For proofs `H` is an uninterpreted
function". That the result depends on the concatenated stream alone is its type (log entry 4). -/
opaque Config.hashByte (alg : HashAlg) (stream : List Byte) (i : Nat) : Byte

end Sys2Proof
end

