-- ==== Sys2Proof/Machine/Params.lean ====
section
/-! DEFINITION. What spec/00_scope.md R10 and R11 compute from the parameters: the admitted configurations, the provisioning
deadline in ticks, the counter's modulus, the Key Store's device addresses and the digest. -/
namespace Sys2Proof

/-- R11's condition on the digest length: 20 for SHA1, 32 for SHA256. -/
def Config.digestLenOk (c : Config) : Bool :=
  match c.hashAlg with
  | .sha1 => c.digestLen == 20
  | .sha256 => c.digestLen == 32

/-- R11's condition on the listen timers, under PERIODIC only. -/
def Config.listenOk (c : Config) : Bool :=
  match c.listenMode with
  | .periodic => decide (1 ≤ c.listenPeriodTicks) && decide (1 ≤ c.listenWindowTicks)
  | .continuous => true

/-- R11's condition on the display duration, under FLAT only. -/
def Config.displayOk (c : Config) : Bool :=
  match c.displayMode with
  | .flat => decide (1 ≤ c.displayTicks)
  | .windowEnd => true

/-- The configurations a model is built for (R11). -/
def Config.wf (c : Config) : Bool :=
  decide (1 ≤ c.keyLen) && decide (c.keyLen ≤ blockLen) && c.digestLenOk && decide (1 ≤ c.timestep) && decide (1 ≤ c.tps)
    && c.listenOk && c.displayOk && decide (15 + 4 ≤ c.digestLen)

/-- PROV_TIMEOUT_TICKS = ceil(PROV_TIMEOUT_MS × TPS / 1000) (R140). -/
def Config.provTimeoutTicks (c : Config) : Nat := (provTimeoutMs * c.tps + 999) / 1000

/-- 2^TW, the modulus of the seconds counter (R131). -/
def Config.timeModulus (c : Config) : Nat :=
  match c.timeWidth with
  | .w64 => 2 ^ 64
  | .w32 => 2 ^ 32

/-- The reset value of `cl_listen_timer` (R34, R42). -/
def Config.listenTimerReset (c : Config) : Nat :=
  match c.listenMode with
  | .periodic => c.listenPeriodTicks
  | .continuous => 0

/-- The storage device's address of Key Store index `a` (R51); no rule reads it. -/
def Config.ksDeviceAddress (c : Config) (a : Nat) : Nat := c.ksBase + a

/-- `H(stream)`: DL bytes, `digest[0]` first (R100). -/
def Config.digest (c : Config) (stream : List Byte) : List Byte :=
  (List.range c.digestLen).map fun i => Config.hashByte c.hashAlg stream i

end Sys2Proof
end

