-- ==== Sys2Proof/Machine/Operands.lean ====
section
/-! DEFINITION. The byte-level forms of spec/30_encoding.md and spec/20_memory.md R58: the transmitted texts, the hexadecimal
echo, the big-endian counter, the display digits and the windows of time. -/
namespace Sys2Proof

/-- The byte at index `i` of a byte array (R12); past its end, which no rule reads, 0. -/
def byteAt (l : List Byte) (i : Nat) : Byte := l.getD i 0

/-- CR LF, the terminator of every message (R78, R79). -/
def crlf : List Byte := [0x0D, 0x0A]

/-- One hexadecimal digit, 0-9 as 0x30.., A-F as 0x41.. (R79). -/
def hexDigit (n : Nat) : Byte :=
  if n < 10 then BitVec.ofNat 8 (0x30 + n) else BitVec.ofNat 8 (0x41 + (n - 10))

/-- Both digits of a byte, the high nibble first. -/
def hexTwoDigits (d : Byte) : List Byte := [hexDigit (d.toNat / 16), hexDigit (d.toNat % 16)]

/-- `HexText(D)` with its terminator, in each IGNORED_ECHO_FORMAT (R79). -/
def hexText (f : EchoFormat) (d : Byte) : List Byte :=
  match f with
  | .minimalUpperCrlf => (if d.toNat < 16 then [hexDigit d.toNat] else hexTwoDigits d) ++ crlf
  | .paddedUpperCrlf => hexTwoDigits d ++ crlf

/-- "Ignored Hex: ", 13 bytes (R79). -/
def ignoredText : List Byte := [0x49, 0x67, 0x6E, 0x6F, 0x72, 0x65, 0x64, 0x20, 0x48, 0x65, 0x78, 0x3A, 0x20]

/-- "Key saved: ", 11 bytes (R78). -/
def keySavedText : List Byte := [0x4B, 0x65, 0x79, 0x20, 0x73, 0x61, 0x76, 0x65, 0x64, 0x3A, 0x20]

/-- "Timeout" CR LF, 9 bytes (R78). -/
def timeoutText : List Byte := [0x54, 0x69, 0x6D, 0x65, 0x6F, 0x75, 0x74, 0x0D, 0x0A]

/-- The echo of an ignored byte (R79, R153). -/
def ignoredEcho (f : EchoFormat) (d : Byte) : List Byte := ignoredText ++ hexText f d

/-- The success acknowledgment: the raw key bytes between the prefix and CR LF (R78). -/
def savedAck (key : List Byte) : List Byte := keySavedText ++ key ++ crlf

/-- `counter_bytes[j] = c[63-8j : 56-8j]`, j = 0..7 (R58, R105). -/
def counterBytes (c : BitVec 64) : List Byte :=
  (List.range 8).map fun j => c.extractLsb' (56 - 8 * j) 8

/-- `Digits6(code)`: byte j is 0x30 + (floor(code / 10^(5-j)) mod 10), j = 0..5 (R82). -/
def digits6 (code : Nat) : List Byte :=
  (List.range 6).map fun j => BitVec.ofNat 8 (0x30 + code / 10 ^ (5 - j) % 10)

/-- `Window(t) = floor(t / S)`, 64 bits (R134, R105). -/
def window (c : Config) (t : BitVec 64) : BitVec 64 := BitVec.ofNat 64 (t.toNat / c.timestep)

/-- Byte `i` of the key zero-extended to the hash block (R102). -/
def keyByte (c : Config) (key : List Byte) (i : Nat) : Byte := if i < c.keyLen then byteAt key i else 0x00

/-- A pad of COMPUTE_PADS: `pad XOR key[i]` for i = 0..63 (R102). -/
def padOf (c : Config) (pad : Byte) (key : List Byte) : List Byte :=
  (List.range blockLen).map fun i => pad ^^^ keyByte c key i

end Sys2Proof
end

