-- ==== Sys2Proof/Machine/State.lean ====
section
/-! DEFINITION. The state of the OTP core: every element of spec/10_state.md and the Key Store of spec/20_memory.md, the
input events and draws of the environment (spec/30_encoding.md R72, spec/20_memory.md R54), the reasons of the model's
fault and refusal, and the state a run starts from (R44, R240). -/
namespace Sys2Proof.Machine

/-- `pf_state` (R25): IDLE = 0, COLLECTING = 1. -/
inductive PfState where
  | idle
  | collecting
  deriving DecidableEq, Repr, Inhabited

/-- `cl_dev_state` (R32): 2 bits. The value 3 is never written (R32); it is named so that finding it is a fault and not
a value left out (spec/93_implementation_defined.md). -/
inductive DevState where
  | dormant
  | listening
  | displaying
  | reserved
  deriving DecidableEq, Repr, Inhabited

/-- A command at the hash port, as `hash_log` records it (R101). -/
inductive HashCmd where
  | reset
  | update (bytes : List Byte)
  | finalize (digest : List Byte)
  deriving DecidableEq, Repr

/-- A command at the display port, as `disp_log` records it (R38, R82). -/
inductive DispCmd where
  | showText (text : List Byte)
  | blank
  deriving DecidableEq, Repr

/-- The reasons of `raise Fault` (R13, R213, R215). A fault is the spec's own: it sets the `faulted` mark, leaves every other
element as before the step, and the block goes on taking events (R45), so no step ends in `Host.Outcome.fault`. -/
inductive Fault where
  /-- OFFSET_OVERFLOW (R213): raised by GENERATE, in a TICK, when `offset + 3 > DL - 1`. Safe: it is the spec's own
  outcome, and no configuration R11 admits reaches it. -/
  | offsetOverflow
  /-- `cl_dev_state` = 3 found by TICK or RX.DROP while powered (spec/93_implementation_defined.md: "treats it as a
  fault"). Safe: it is the spec's own outcome, and no rule writes the value. -/
  | reservedDevState
  deriving DecidableEq, Repr

/-- The reasons of a refusal. The first is the host's; `reservedEvent` and `ksIndex` are reasons of the spec's `Refuse`
(R13), which sets the `refused` mark and changes nothing else (R73); the other two end a step, because there is no step to
take. -/
inductive Refusal where
  /-- An instruction whose meaning is not written: no arm of `exec` answers it. Safe. -/
  | notModelled (mnemonic : String)
  /-- RESERVED_EVENT (R73): the step met a word that spells no event. Recorded in the mark `refused`. Safe. -/
  | reservedEvent (w : EventWord)
  /-- KS_INDEX (R51): a Key Store access outside 0 to N - 1, which no rule makes. Recorded in the mark `refused`. Safe. -/
  | ksIndex (a : Nat)
  /-- `step` has no input event left: "there is no step without an event" (R72). Safe. -/
  | noEvent
  /-- The configuration is one R11 refuses: "the model is not built for it". Answered by `step`. Safe. -/
  | configuration
  deriving DecidableEq, Repr

/-- The device-context struct of spec/10_state.md, one field per element, with the Key Store of spec/20_memory.md. Widths that
depend on a parameter (N, TPS, a tick count) are naturals with a bound that `Invariant` (Safety.lean) states; the others are bit
vectors. -/
structure State where
  /-- The build-time parameters (R10); no step changes them. -/
  cfg : Config
  /-- The input events not yet performed, oldest first (R72). The environment's, read one per step. -/
  events : List EventWord
  /-- The draws of the Key Store device for coming reads, true = FAIL (R54, R231); past its end the draw is free. -/
  ksDraws : List Bool
  /-- The model's own counter of free values used (log entry 5). -/
  draws : Nat
  /-- `powered` (R22), 1 bit. -/
  powered : Bool
  /-- `tc_sec` (R23), TW bits, held in 64. -/
  tcSec : BitVec 64
  /-- `tc_frac` (R24), 0 to TPS - 1. -/
  tcFrac : Nat
  /-- `pf_state` (R25), 1 bit. -/
  pfState : PfState
  /-- `pf_idx` (R26), 7 bits, 0 to N. -/
  pfIdx : Nat
  /-- `pf_buf[0..N-1]` (R27), N bytes. -/
  pfBuf : List Byte
  /-- `pf_timer` (R28), 0 to PROV_TIMEOUT_TICKS. -/
  pfTimer : Nat
  /-- `oe_ipad[0..63]` (R29). -/
  oeIpad : List Byte
  /-- `oe_opad[0..63]` (R29). -/
  oeOpad : List Byte
  /-- `oe_pads_valid` (R30), 1 bit. -/
  oePadsValid : Bool
  /-- `oe_code` (R31), 20 bits. -/
  oeCode : BitVec 20
  /-- `oe_code_valid` (R31), 1 bit. -/
  oeCodeValid : Bool
  /-- `cl_dev_state` (R32), 2 bits. -/
  clDevState : DevState
  /-- `cl_pending_wake` (R33), 1 bit. -/
  clPendingWake : Bool
  /-- `cl_listen_timer` (R34). -/
  clListenTimer : Nat
  /-- `cl_disp_timer` (R35), 0 to DISPLAY_TICKS. -/
  clDispTimer : Nat
  /-- `cl_disp_window` (R35), 64 bits. -/
  clDispWindow : BitVec 64
  /-- `cl_display_en` (R36), 1 bit: the display-enable output. -/
  clDisplayEn : Bool
  /-- `cl_display_text` (R36): empty or exactly 6 ASCII digits. -/
  clDisplayText : List Byte
  /-- `st_ks_error` (R37), 1 bit, sticky. -/
  stKsError : Bool
  /-- `st_rx_dropped` (R37), 1 bit, sticky. -/
  stRxDropped : Bool
  /-- The hash primitive's stream since the last HashReset (R40, R100). -/
  hashStream : List Byte
  /-- `tx_log` (R38): every byte emitted toward the bridge. -/
  txLog : List Byte
  /-- `ks_log` (R38, R55): every physical Key Store write. -/
  ksLog : List (Nat × Byte)
  /-- `hash_log` (R38, R101): every hash-port command. -/
  hashLog : List HashCmd
  /-- `disp_log` (R38, R82): every display command. -/
  dispLog : List DispCmd
  /-- The Key Store `ks` (R51): its cells in canonical form, by index 0 to N - 1 (Ops.lean, `Memory.wf`). -/
  ks : List Host.Cell
  /-- The `faulted` mark (R45), with the reason of the first fault. -/
  faulted : Option Fault
  /-- The `refused` mark (R45), with the reason of the first refusal. -/
  refused : Option Refusal
  deriving DecidableEq, Repr

/-- A fresh device before its first power-up (R44): unpowered, the Key Store KS_INITIAL and the time RTC_INITIAL as drawn, every
log empty, no event presented. Its volatile elements, which R44 leaves unspecified, have the reset values of R42 (log entry
1). -/
def State.fresh (cfg : Config) (ksInitial : List Host.Cell) (sec : BitVec 64) (frac : Nat) : State where
  cfg := cfg
  events := []
  ksDraws := []
  draws := 0
  powered := false
  tcSec := sec
  tcFrac := frac
  pfState := .idle
  pfIdx := 0
  pfBuf := List.replicate cfg.keyLen 0x00
  pfTimer := 0
  oeIpad := List.replicate blockLen 0x00
  oeOpad := List.replicate blockLen 0x00
  oePadsValid := false
  oeCode := 0
  oeCodeValid := false
  clDevState := .dormant
  clPendingWake := false
  clListenTimer := match cfg.listenMode with
    | .periodic => cfg.listenPeriodTicks
    | .continuous => 0
  clDispTimer := 0
  clDispWindow := 0
  clDisplayEn := false
  clDisplayText := []
  stKsError := false
  stRxDropped := false
  hashStream := []
  txLog := []
  ksLog := []
  hashLog := []
  dispLog := []
  ks := ksInitial
  faulted := none
  refused := none

/-- The state a run starts from (R240): the fresh device of R44 in the configuration R10 takes, its storage never written
(every byte reads the erased value, R53) and its time counter at 0 (log entries 1, 2 and 3). -/
def State.reset : State := State.fresh Config.taken [] 0 0

end Sys2Proof.Machine
end

