-- ==== Sys2Proof/Machine/Ops.lean ====
section
/-! DEFINITION. The shared operations over State: the Key Store in canonical form and its access primitives
(spec/20_memory.md R54 to R57), the output ports (spec/30_encoding.md R77, R82; spec/41_hmac_otp.md R100, R101), the free
values, the fault and refusal marks, and presenting an event.

The block has no trap mechanism (spec/60_exceptions.md R210, R221, R222): no saved pc, no saved status, no vector and no return
operation. `raiseFault` and `refuse` are the whole of what a fault or a refusal does, and the button interrupt's entry is the
BTN step (Control.lean). -/
namespace Sys2Proof.Machine

/-! ### The Key Store as data -/

/-- The erased value: what a cell that nothing has written reads as (R53; log entry 3). -/
def erasedByte : Byte := 0xFF

/-- The byte at index `a`. -/
def Memory.read : List Host.Cell → Nat → Byte
  | [], _ => erasedByte
  | (b, v) :: rest, a => if b = a then v else Memory.read rest a

/-- Set the byte at index `a`, keeping the canonical form. -/
def Memory.write : List Host.Cell → Nat → Byte → List Host.Cell
  | [], a, v => if v = erasedByte then [] else [(a, v)]
  | (b, w) :: rest, a, v =>
    if a < b then (if v = erasedByte then (b, w) :: rest else (a, v) :: (b, w) :: rest)
    else if a = b then (if v = erasedByte then rest else (a, v) :: rest)
    else (b, w) :: Memory.write rest a v

/-- Every index of the list is above `a`, and the indices rise strictly. -/
def Memory.risingFrom : Nat → List Host.Cell → Bool
  | _, [] => true
  | a, (b, _) :: rest => decide (a ≤ b) && Memory.risingFrom (b + 1) rest

/-- The canonical form: indices strictly rising, no cell equal to the erased value. -/
def Memory.wf (m : List Host.Cell) : Bool :=
  Memory.risingFrom 0 m && m.all fun c => c.2 != erasedByte

/-- No cell at or above index `n`: the Key Store holds N bytes (R51). -/
def Memory.within (n : Nat) (m : List Host.Cell) : Bool := m.all fun c => decide (c.1 < n)

/-- `ks[0..N-1]`, the Key Store's content as a byte array (R83). -/
def keyStoreBytes (s : State) : List Byte := (List.range s.cfg.keyLen).map (Memory.read s.ks)

/-! ### Marks -/

/-- `raise Fault(reason)` (R13, R213, R215): set the mark, keeping the first reason; nothing else changes. -/
def raiseFault (s : State) (f : Fault) : State := { s with faulted := some (s.faulted.getD f) }

/-- `Refuse(reason)` (R13, R73, R215): set the mark, keeping the first reason; nothing else changes. -/
def refuse (s : State) (r : Refusal) : State := { s with refused := some (s.refused.getD r) }

/-- The end of an atomic step (R14, R60): a step that raised a fault leaves every element but the mark as it was before the
step (R213). -/
def settle (s : State) (r : Except Fault State) : Host.Outcome State Fault Refusal :=
  match r with
  | .ok t => .next t
  | .error f => .next (raiseFault s f)

/-! ### Free values -/

/-- A free natural in 0 to `bound`. -/
def freeUpTo (draw : Nat) (slot : FreeSlot) (bound : Nat) : Nat := Config.free draw slot % (bound + 1)

/-- A free bit. -/
def freeBit (draw : Nat) (slot : FreeSlot) : Bool := Config.free draw slot % 2 == 1

/-- A free byte. -/
def freeByte (draw : Nat) (slot : FreeSlot) : Byte := BitVec.ofNat 8 (Config.free draw slot)

/-- `n` free bytes. -/
def freeBytes (draw : Nat) (slot : Nat → FreeSlot) (n : Nat) : List Byte :=
  (List.range n).map fun i => freeByte draw (slot i)

/-- A free byte string of free length: what the hash primitive's stream is where the spec leaves it unspecified (R40). -/
def freeStream (draw : Nat) : List Byte :=
  freeBytes draw .hashStreamByte (Config.free draw .hashStreamLength)

/-- A free framer state. -/
def freePfState (draw : Nat) : PfState := if freeBit draw .pfState then .collecting else .idle

/-- A free 2-bit device state. -/
def freeDevState (draw : Nat) : DevState :=
  match freeUpTo draw .clDevState 3 with
  | 0 => .dormant
  | 1 => .listening
  | 2 => .displaying
  | _ => .reserved

/-! ### Output ports -/

/-- `Emit(bytes)` (R77). -/
def emit (s : State) (bytes : List Byte) : State := { s with txLog := s.txLog ++ bytes }

/-- `Show(text)` (R82). -/
def showText (s : State) (text : List Byte) : State := { s with dispLog := s.dispLog ++ [.showText text] }

/-- `Blank()` (R82). -/
def blank (s : State) : State := { s with dispLog := s.dispLog ++ [.blank] }

/-- `HashReset()` (R100, R101). -/
def hashReset (s : State) : State := { s with hashStream := [], hashLog := s.hashLog ++ [.reset] }

/-- `HashUpdate(bytes)` (R100, R101). -/
def hashUpdate (s : State) (bytes : List Byte) : State :=
  { s with hashStream := s.hashStream ++ bytes, hashLog := s.hashLog ++ [.update bytes] }

/-- `HashFinalize()` (R100, R101): the digest of the stream; what is left of the stream is unspecified (R40). -/
def hashFinalize (s : State) : List Byte × State :=
  (s.cfg.digest s.hashStream,
   { s with hashStream := freeStream s.draws, draws := s.draws + 1,
            hashLog := s.hashLog ++ [.finalize (s.cfg.digest s.hashStream)] })

/-! ### Key Store access -/

/-- The draw of one read under KS_FAULT_MODEL = DRAW (R54): the environment's next, or a free one past the list's end. -/
def drawReadFailure (s : State) : Bool × State :=
  match s.ksDraws with
  | b :: rest => (b, { s with ksDraws := rest })
  | [] => (freeBit s.draws .ksReadFails, { s with draws := s.draws + 1 })

/-- `MemRead(a, 1)` (R54): the byte, or none for FAIL; an index outside the Key Store is refused (R51). -/
def memRead (s : State) (a : Nat) : Option Byte × State :=
  if a < s.cfg.keyLen then
    match s.cfg.ksFaultModel with
    | .never => (some (Memory.read s.ks a), s)
    | .draw => (if (drawReadFailure s).1 then none else some (Memory.read s.ks a), (drawReadFailure s).2)
  else (none, refuse s (.ksIndex a))

/-- `MemWrite(a, 1, v)` (R55): one physical write, logged; an index outside the Key Store is refused (R51). -/
def memWrite (s : State) (a : Nat) (v : Byte) : State :=
  if a < s.cfg.keyLen then { s with ks := Memory.write s.ks a v, ksLog := s.ksLog ++ [(a, v)] }
  else refuse s (.ksIndex a)

/-- `KsUpdate(a, v)` (R56): no write when the stored byte already equals the new one; an index outside the Key Store is refused
whatever the byte (R51). -/
def ksUpdate (s : State) (a : Nat) (v : Byte) : State :=
  if a < s.cfg.keyLen then (if Memory.read s.ks a = v then s else memWrite s a v)
  else refuse s (.ksIndex a)

/-- `KsUpdate` of a byte array at indices a, a + 1, ... in ascending order (R57). -/
def ksUpdateAll (s : State) (a : Nat) : List Byte → State
  | [] => s
  | v :: rest => ksUpdateAll (ksUpdate s a v) (a + 1) rest

/-! ### Presenting an event -/

/-- The four facts RX dispatch reads (R151). -/
def rxContext (s : State) : RxContext where
  powered := s.powered
  listening := decide (s.clDevState = .listening)
  collecting := decide (s.pfState = .collecting)
  lastKey := !decide (s.pfIdx < s.cfg.keyLen - 1)

/-- The environment's next event word, taken from the input (R72). -/
def takeEvent (s : State) : Option (EventWord × State) :=
  match s.events with
  | [] => none
  | w :: rest => some (w, { s with events := rest })

end Sys2Proof.Machine
end

