-- ==== Sys2Proof/Machine/Engine.lean ====
section
/-! DEFINITION. The HMAC-OTP engine (spec/41_hmac_otp.md): COMPUTE_PADS and GENERATE, the two internal operations of the
unit OE. -/
namespace Sys2Proof.Machine

/-- COMPUTE_PADS(key) (R102). -/
def computePads (s : State) (key : List Byte) : State :=
  { s with oeIpad := padOf s.cfg 0x36 key, oeOpad := padOf s.cfg 0x5C key, oePadsValid := true }

/-- Stage 4, the offset: `outer[DL-1][3:0]` (R108). -/
def offsetOf (dl : Nat) (outer : List Byte) : Nat := ((byteAt outer (dl - 1)).extractLsb' 0 4).toNat

/-- Stage 5, the 31-bit value at an offset (R109). -/
def binaryAt (outer : List Byte) (offset : Nat) : BitVec 32 :=
  ((byteAt outer offset &&& 0x7F).setWidth 32 <<< 24) ||| ((byteAt outer (offset + 1)).setWidth 32 <<< 16)
    ||| ((byteAt outer (offset + 2)).setWidth 32 <<< 8) ||| (byteAt outer (offset + 3)).setWidth 32

/-- Stages 4 to 6 on a digest of DL bytes (R108, R109, R110), with the overflow fault of R213. -/
def truncate (dl : Nat) (outer : List Byte) : Except Fault (BitVec 20) :=
  if dl - 1 < offsetOf dl outer + 3 then .error .offsetOverflow
  else .ok (BitVec.ofNat 20 ((binaryAt outer (offsetOf dl outer)).toNat % 1000000))

/-- One hash of the orchestrator: reset, two updates, finalize (R104, H1 to H4 or H5 to H8). -/
def hashTwo (s : State) (first second : List Byte) : List Byte × State :=
  hashFinalize (hashUpdate (hashUpdate (hashReset s) first) second)

/-- GENERATE(t) (R111): the code, or none when the pads are invalid (R112). -/
def generate (s : State) (t : BitVec 64) : Except Fault (Option (BitVec 20) × State) :=
  if s.oePadsValid = false then .ok (none, s)
  else
    let inner := hashTwo s s.oeIpad (counterBytes (window s.cfg t))
    let outer := hashTwo inner.2 s.oeOpad inner.1
    match truncate s.cfg.digestLen outer.1 with
    | .ok code => .ok (some code, outer.2)
    | .error f => .error f

end Sys2Proof.Machine
end

