-- ==== Sys2Proof/Machine/Framer.lean ====
section
/-! DEFINITION. The provisioning framer (spec/43_provisioning.md): the meanings of the six RX operations, COMMIT and
FRAMER_TICK. A meaning is its rule's pseudocode; that the operation applies in the state is RX dispatch's choice (R151), made
by the decoder from the state (Decode.lean, Step.lean; log entry 9). -/
namespace Sys2Proof.Machine

/-- `pf_buf` all 0x00. -/
def clearedBuffer (s : State) : List Byte := List.replicate s.cfg.keyLen 0x00

/-- `pf_buf[i] <- D`. -/
def putKeyByte (s : State) (i : Nat) (d : Byte) : State := { s with pfBuf := s.pfBuf.set i d }

/-- COMMIT (R157): the writes, the pads, the acknowledgment, the return to IDLE. -/
def commitFrame (s : State) : State :=
  let stored := ksUpdateAll s 0 s.pfBuf
  let padded := computePads stored s.pfBuf
  let acknowledged := emit padded (savedAck s.pfBuf)
  { acknowledged with pfBuf := clearedBuffer s, pfIdx := 0, pfTimer := 0, pfState := .idle }

/-- The expiry of the provisioning deadline (R158, R211). -/
def expireFrame (s : State) : State :=
  emit { s with pfBuf := clearedBuffer s, pfIdx := 0, pfState := .idle } timeoutText

/-- FRAMER_TICK (R158). -/
def framerTick (s : State) : State :=
  match s.pfState with
  | .idle => s
  | .collecting =>
    if s.pfTimer - 1 = 0 then expireFrame { s with pfTimer := s.pfTimer - 1 } else { s with pfTimer := s.pfTimer - 1 }

/-- RX.OFF (R163): an unpowered receiver sees no byte. -/
def execRxOff (_d : Byte) (s : State) : Host.Outcome State Fault Refusal := .next s

/-- RX.DROP (R152): its states are DORMANT and DISPLAYING; finding `cl_dev_state` = 3 is a fault
(spec/93_implementation_defined.md). -/
def execRxDrop (_d : Byte) (s : State) : Host.Outcome State Fault Refusal :=
  match s.clDevState with
  | .reserved => .next (raiseFault s .reservedDevState)
  | _ => .next { s with stRxDropped := true }

/-- RX.IGNORED (R153): the echo, and nothing else. -/
def execRxIgnored (d : Byte) (s : State) : Host.Outcome State Fault Refusal :=
  .next (emit s (ignoredEcho s.cfg.echoFormat d))

/-- RX.SENTINEL (R154). -/
def execRxSentinel (s : State) : Host.Outcome State Fault Refusal :=
  .next { s with pfState := .collecting, pfIdx := 0, pfTimer := s.cfg.provTimeoutTicks }

/-- RX.KEY (R155). -/
def execRxKey (d : Byte) (s : State) : Host.Outcome State Fault Refusal :=
  .next (putKeyByte { s with pfIdx := s.pfIdx + 1 } s.pfIdx d)

/-- RX.KEY_LAST (R156). -/
def execRxKeyLast (d : Byte) (s : State) : Host.Outcome State Fault Refusal :=
  .next (commitFrame (putKeyByte { s with pfIdx := s.cfg.keyLen } (s.cfg.keyLen - 1) d))

end Sys2Proof.Machine
end

