-- ==== Sys2Proof/Machine/TimeCounter.lean ====
section
/-! DEFINITION. The time counter (spec/42_time_counter.md): TIME_TICK and TC_POWER_ON. -/
namespace Sys2Proof.Machine

/-- `(tc_sec + 1) mod 2^TW` (R131). -/
def nextSecond (c : Config) (t : BitVec 64) : BitVec 64 := BitVec.ofNat 64 ((t.toNat + 1) % c.timeModulus)

/-- TIME_TICK (R131, R132, R133). -/
def timeTick (s : State) : State :=
  if s.powered = false ∧ s.cfg.timeStrategy = .uptime then s
  else if s.tcFrac + 1 = s.cfg.tps then { s with tcFrac := 0, tcSec := nextSecond s.cfg s.tcSec }
  else { s with tcFrac := s.tcFrac + 1 }

/-- TC_POWER_ON (R136). -/
def tcPowerOn (s : State) : State :=
  match s.cfg.timeStrategy with
  | .uptime => { s with tcSec := 0, tcFrac := 0 }
  | .rtc => s

end Sys2Proof.Machine
end

