-- ==== Sys2Proof/Machine/Control.lean ====
section
/-! DEFINITION. The power and display control logic (spec/44_power_display.md): the meanings of BTN and TICK and the
internal operations they perform. -/
namespace Sys2Proof.Machine

/-- ENTER_HOME (R191). -/
def enterHome (s : State) : State :=
  match s.cfg.listenMode with
  | .continuous => { s with clDevState := .listening }
  | .periodic => { s with clDevState := .dormant, clListenTimer := s.cfg.listenPeriodTicks }

/-- END_DISPLAY (R187). -/
def endDisplay (s : State) : State :=
  enterHome { blank s with clDisplayText := [], clDisplayEn := false, clDispTimer := 0, clPendingWake := false }

/-- What START_DISPLAY does with the code GENERATE returned (R186). -/
def presentCode (s : State) (code : BitVec 20) : State :=
  showText
    { s with
      oeCode := code
      oeCodeValid := true
      clDisplayText := digits6 code.toNat
      clDisplayEn := true
      clDispTimer := match s.cfg.displayMode with
        | .flat => s.cfg.displayTicks
        | .windowEnd => 0
      clDispWindow := window s.cfg s.tcSec
      clDevState := .displaying } (digits6 code.toNat)

/-- START_DISPLAY (R186): nothing changes when GENERATE returns NONE. -/
def startDisplay (s : State) : Except Fault State :=
  match generate s s.tcSec with
  | .error f => .error f
  | .ok (none, t) => .ok t
  | .ok (some code, t) => .ok (presentCode t code)

/-- The test-and-clear of a poll that acts on the wake, before START_DISPLAY (R188). -/
def serveWake (s : State) : Except Fault State := startDisplay { s with clPendingWake := false }

/-- POLL_DORMANT (R183). -/
def pollDormant (s : State) : Except Fault State :=
  if s.clPendingWake then serveWake s
  else match s.cfg.listenMode with
    | .continuous => .ok { s with clDevState := .listening }
    | .periodic =>
      if s.clListenTimer - 1 = 0 then .ok { s with clDevState := .listening, clListenTimer := s.cfg.listenWindowTicks }
      else .ok { s with clListenTimer := s.clListenTimer - 1 }

/-- One tick of the listen window: "if cl_listen_timer > 0" then one less (R184), under PERIODIC only. -/
def windowTick (s : State) : State :=
  match s.cfg.listenMode with
  | .continuous => s
  | .periodic => { s with clListenTimer := s.clListenTimer - 1 }

/-- POLL_LISTENING (R184). -/
def pollListening (s : State) : Except Fault State :=
  match s.pfState with
  | .collecting => .ok (windowTick s)
  | .idle =>
    if s.clPendingWake then serveWake s
    else match s.cfg.listenMode with
      | .continuous => .ok s
      | .periodic => if (windowTick s).clListenTimer = 0 then .ok (enterHome (windowTick s)) else .ok (windowTick s)

/-- POLL_DISPLAYING (R185). -/
def pollDisplaying (s : State) : State :=
  match s.cfg.displayMode with
  | .flat =>
    if s.clDispTimer - 1 = 0 then endDisplay { s with clDispTimer := s.clDispTimer - 1 }
    else { s with clDispTimer := s.clDispTimer - 1 }
  | .windowEnd => if window s.cfg s.tcSec = s.clDispWindow then s else endDisplay s

/-- CONTROL_POLL: the poll of the current device state (R182); the value 3 is a fault (spec/93_implementation_defined.md). -/
def controlPoll (s : State) : Except Fault State :=
  match s.clDevState with
  | .dormant => pollDormant s
  | .listening => pollListening s
  | .displaying => .ok (pollDisplaying s)
  | .reserved => .error .reservedDevState

/-- The sub-operations of TICK in their fixed order (R182). -/
def tickSteps (s : State) : Except Fault State :=
  if s.powered = false then .ok (timeTick s) else controlPoll (framerTick (timeTick s))

/-- BTN (R181): the whole of the interrupt handler. -/
def execBtn (s : State) : Host.Outcome State Fault Refusal :=
  if s.powered = false then .next s else .next { s with clPendingWake := true }

/-- TICK (R182), one atomic step (R213 where it faults). -/
def execTick (s : State) : Host.Outcome State Fault Refusal := settle s (tickSteps s)

end Sys2Proof.Machine
end

