-- ==== Sys2Proof/Machine/Power.lean ====
section
/-! DEFINITION. Power events (spec/70_reset_and_hazards.md): the meanings of PWR_OFF and PWR_ON, the reset values of
spec/10_state.md R42 and the boot sequence. -/
namespace Sys2Proof.Machine

/-- What is left of the volatile elements without power: no defined value, so a free one in the element's range (R22, R241;
log entry 6). `powered`, the display outputs and the time counter are written by R241 and R131 to R136 alone. -/
def scrambleVolatile (s : State) : State :=
  { s with
    draws := s.draws + 1
    pfState := freePfState s.draws
    pfIdx := freeUpTo s.draws .pfIdx 127
    pfBuf := freeBytes s.draws .pfBuf s.cfg.keyLen
    pfTimer := freeUpTo s.draws .pfTimer s.cfg.provTimeoutTicks
    oeIpad := freeBytes s.draws .oeIpad blockLen
    oeOpad := freeBytes s.draws .oeOpad blockLen
    oePadsValid := freeBit s.draws .oePadsValid
    oeCode := BitVec.ofNat 20 (Config.free s.draws .oeCode)
    oeCodeValid := freeBit s.draws .oeCodeValid
    clDevState := freeDevState s.draws
    clPendingWake := freeBit s.draws .clPendingWake
    clListenTimer := freeUpTo s.draws .clListenTimer (max s.cfg.listenPeriodTicks s.cfg.listenWindowTicks)
    clDispTimer := freeUpTo s.draws .clDispTimer s.cfg.displayTicks
    clDispWindow := BitVec.ofNat 64 (Config.free s.draws .clDispWindow)
    stKsError := freeBit s.draws .stKsError
    stRxDropped := freeBit s.draws .stRxDropped
    hashStream := freeStream s.draws }

/-- The display goes dark: `Blank()` if it was enabled, then the enable and the text (R241). -/
def darkenDisplay (s : State) : State :=
  { (if s.clDisplayEn then blank s else s) with clDisplayEn := false, clDisplayText := [] }

/-- PWR_OFF of a powered device (R241). -/
def powerOff (s : State) : State := { scrambleVolatile (darkenDisplay s) with powered := false }

/-- The reset values of R42. The pads and the hash stream are unspecified here; BOOT_KEYSTORE writes the pads when its reads
succeed. -/
def resetVolatile (s : State) : State :=
  { s with
    draws := s.draws + 1
    powered := true
    pfState := .idle
    pfIdx := 0
    pfBuf := List.replicate s.cfg.keyLen 0x00
    pfTimer := 0
    oeIpad := freeBytes s.draws .oeIpad blockLen
    oeOpad := freeBytes s.draws .oeOpad blockLen
    oePadsValid := false
    oeCode := 0
    oeCodeValid := false
    clDevState := .dormant
    clPendingWake := false
    clListenTimer := s.cfg.listenTimerReset
    clDispTimer := 0
    clDispWindow := 0
    clDisplayEn := false
    clDisplayText := []
    stKsError := false
    stRxDropped := false
    hashStream := freeStream s.draws }

/-- BOOT_FAIL (R244). -/
def bootFail (s : State) : State := { s with stKsError := true, oePadsValid := false }

/-- `n` reads at indices a, a + 1, ... in order, stopping at the first that fails (R243). -/
def readKeyFrom (s : State) (a : Nat) : Nat → Option (List Byte) × State
  | 0 => (some [], s)
  | n + 1 =>
    match memRead s a with
    | (none, t) => (none, t)
    | (some v, t) =>
      match readKeyFrom t (a + 1) n with
      | (none, u) => (none, u)
      | (some vs, u) => (some (v :: vs), u)

/-- The key's reads and the pads: the second half of BOOT_KEYSTORE (R243). -/
def bootPads (s : State) : State :=
  match readKeyFrom s 0 s.cfg.keyLen with
  | (none, t) => bootFail t
  | (some key, t) => computePads t key

/-- "zero-initialization of all N bytes", by update-if-changed writes (R243). -/
def zeroKeyStore (s : State) : State := ksUpdateAll s 0 (List.replicate s.cfg.keyLen 0x00)

/-- BOOT_KEYSTORE (R243). -/
def bootKeystore (s : State) : State :=
  match memRead s 0 with
  | (none, t) => bootFail t
  | (some b0, t) => if b0 = erasedByte then bootPads (zeroKeyStore t) else bootPads t

/-- PWR_OFF (R241). -/
def execPwrOff (s : State) : Host.Outcome State Fault Refusal :=
  if s.powered = false then .next s else .next (powerOff s)

/-- PWR_ON (R242): while powered, an OFF followed by an ON. -/
def execPwrOn (s : State) : Host.Outcome State Fault Refusal :=
  .next (bootKeystore (tcPowerOn (resetVolatile (if s.powered then powerOff s else s))))

end Sys2Proof.Machine
end

