-- ==== Sys2Proof/Machine/Dispatch.lean ====
section
/-! DEFINITION. exec: one arm per operation of spec/opcode_table.json. -/
namespace Sys2Proof.Machine

/-- The meaning of an event operation in a state. -/
def exec (i : Instr) (s : State) : Host.Outcome State Fault Refusal :=
  match i with
  -- spec/43_provisioning.md
  | .rxOff d => Sys2Proof.Machine.execRxOff d s
  | .rxDrop d => Sys2Proof.Machine.execRxDrop d s
  | .rxSentinel => Sys2Proof.Machine.execRxSentinel s
  | .rxIgnored d => Sys2Proof.Machine.execRxIgnored d s
  | .rxKey d => Sys2Proof.Machine.execRxKey d s
  | .rxKeyLast d => Sys2Proof.Machine.execRxKeyLast d s
  -- spec/44_power_display.md
  | .btn => Sys2Proof.Machine.execBtn s
  | .tick => Sys2Proof.Machine.execTick s
  -- spec/70_reset_and_hazards.md
  | .pwrOff => Sys2Proof.Machine.execPwrOff s
  | .pwrOn => Sys2Proof.Machine.execPwrOn s

end Sys2Proof.Machine
end

