-- ==== Sys2Proof/Machine/Perform.lean ====
section
/-! DEFINITION. Performing one event word in a state (spec/30_encoding.md R73, R74): what Step.lean calls. -/
namespace Sys2Proof.Machine

/-- Perform an event word: the operation it names in this state (R74), or the refusal of a word that spells no event, which sets the
`refused` mark and changes no other state (R73). -/
def performWord (w : EventWord) (s : State) : Host.Outcome State Fault Refusal :=
  match decode (rxContext s) w with
  | .ok i => exec i s
  | .error _ => .next (refuse s (.reservedEvent w))

end Sys2Proof.Machine
end

