-- ==== Sys2Proof/Machine/Step.lean ====
section
/-! DEFINITION. One step: the environment's next event, decoded in the state it meets, performed as one atomic step
(spec/30_encoding.md R72, R73, R74). -/
namespace Sys2Proof.Machine

/-- One step of the block. A configuration R11 refuses has no model, and there is no step without an event (R72). -/
def step (s : State) : Host.Outcome State Fault Refusal :=
  if s.cfg.wf then
    match takeEvent s with
    | none => .refused .noEvent
    | some (w, t) => performWord w t
  else .refused .configuration

/-- The state in which the next step performs the table word `w`: the word stands first among the input events and, for a
word of kind RX, whose operation the state selects (R151), the selection is the one `decodeTableWord` reads at: powered,
LISTENING, IDLE (log entry 8). -/
def State.withFetchWord (s : State) (nbits w : Nat) : State :=
  let word : EventWord := BitVec.ofNat 16 (w % 2 ^ nbits)
  let presented := { s with events := word :: s.events }
  if kindOf word = 0x01 then { presented with powered := true, clDevState := .listening, pfState := .idle }
  else presented

end Sys2Proof.Machine
end

