-- ==== Sys2Proof/Machine/Program.lean ====
section
/-! DEFINITION. Event programs (spec/30_encoding.md R86, R87, R88): the text syntax, its pseudo-events and the transcriber that
turns a text into event words or refuses it by name and line. Text is a list of characters. -/
namespace Sys2Proof.Machine

/-- A line of an event program, read but not yet expanded (R86, R87). -/
inductive EventLine where
  | rx (d : Byte)
  | btn
  | tick
  | pwrOff
  | pwrOn
  | ticks (n : Nat)
  | waitMs (m : Nat)
  | frame (key : List Byte)
  | send (text : List Byte)
  | partialFrame (key : List Byte)
  deriving DecidableEq, Repr

/-- Why a line is refused (R88). `badNumber` and `badText` name operands that are no number or no quoted ASCII text, which R86 and R87
give no reading. -/
inductive LineError where
  | unknownMnemonic
  | rxOperands
  | operandNotAllowed
  | ticksZero
  | frameLength
  | partialLength
  | badNumber
  | badText
  deriving DecidableEq, Repr

/-- A refusal by the transcriber: the line, counted from 1, and the reason. -/
structure ProgramError where
  line : Nat
  reason : LineError
  deriving DecidableEq, Repr

/-- `RX b` as an event word. -/
def rxWord (d : Byte) : EventWord := eventWord 0x01 d

/-- A sentinel and key bytes as event words. -/
def frameWords (key : List Byte) : List EventWord := rxWord sentinel :: key.map rxWord

/-- The least tick count not shorter than `m` milliseconds: ceil(m × TPS / 1000) (R87). -/
def msTicks (c : Config) (m : Nat) : Nat := (m * c.tps + 999) / 1000

/-- The event words a line stands for (R86, R87), or its refusal (R88). -/
def expandLine (c : Config) : EventLine → Except LineError (List EventWord)
  | .rx d => .ok [rxWord d]
  | .btn => .ok [0x0200]
  | .tick => .ok [0x0300]
  | .pwrOff => .ok [0x0400]
  | .pwrOn => .ok [0x0500]
  | .ticks n => if n = 0 then .error .ticksZero else .ok (List.replicate n 0x0300)
  | .waitMs m => .ok (List.replicate (msTicks c m) 0x0300)
  | .frame key => if key.length = c.keyLen then .ok (frameWords key) else .error .frameLength
  | .send text => .ok (text.map rxWord)
  | .partialFrame key => if key.length < c.keyLen then .ok (frameWords key) else .error .partialLength

/-- The value of a decimal digit. -/
def decimalDigit (ch : Char) : Option Nat :=
  if 48 ≤ ch.toNat ∧ ch.toNat ≤ 57 then some (ch.toNat - 48) else none

/-- The value of a hexadecimal digit, of either case. -/
def hexDigitValue (ch : Char) : Option Nat :=
  if 65 ≤ ch.toNat ∧ ch.toNat ≤ 70 then some (ch.toNat - 55)
  else if 97 ≤ ch.toNat ∧ ch.toNat ≤ 102 then some (ch.toNat - 87)
  else decimalDigit ch

/-- The rest of a decimal number after `acc`. -/
def decimalFrom (acc : Nat) : List Char → Option Nat
  | [] => some acc
  | ch :: rest =>
    match decimalDigit ch with
    | some v => decimalFrom (acc * 10 + v) rest
    | none => none

/-- A decimal number of one digit or more. -/
def readDecimal : List Char → Option Nat
  | [] => none
  | ch :: rest => decimalFrom 0 (ch :: rest)

/-- A number operand as written: `0xHH` with one or two hexadecimal digits, or decimal (R86). -/
def readOperand : List Char → Option Nat
  | ['0', 'x', a] => hexDigitValue a
  | ['0', 'x', a, b] =>
    match hexDigitValue a, hexDigitValue b with
    | some x, some y => some (16 * x + y)
    | _, _ => none
  | text => readDecimal text

/-- A byte operand (R86): 0 to 255. -/
def readByte (text : List Char) : Option Byte :=
  match readOperand text with
  | some n => if n < 256 then some (BitVec.ofNat 8 n) else none
  | none => none

/-- Every operand as a byte. -/
def readBytes : List (List Char) → Option (List Byte)
  | [] => some []
  | t :: rest =>
    match readByte t, readBytes rest with
    | some b, some bs => some (b :: bs)
    | _, _ => none

/-- The character that opens and closes the text of SEND. -/
def quoteChar : Char := Char.ofNat 34

/-- The ASCII bytes of a quoted text, up to its closing quote, which must end the line. R87 gives no escapes: a backslash and the
character after it are two literal bytes, and the first quote closes the text (DESIGN CHOICE, log entry 14). -/
def readQuoted : List Char → Option (List Byte)
  | [] => none
  | ch :: rest =>
    if ch = quoteChar then (if rest.all Char.isWhitespace then some [] else none)
    else if ch.toNat < 128 then
      match readQuoted rest with
      | some bs => some (BitVec.ofNat 8 ch.toNat :: bs)
      | none => none
    else none

/-- The text operand of SEND: blanks, then a quoted text. -/
def readText (text : List Char) : Option (List Byte) :=
  match text.dropWhile Char.isWhitespace with
  | [] => none
  | ch :: rest => if ch = quoteChar then readQuoted rest else none

/-- The lines of a text. -/
def splitLines : List Char → List (List Char)
  | [] => [[]]
  | ch :: rest =>
    match splitLines rest with
    | [] => [[ch]]
    | l :: ls => if ch = '\n' then [] :: l :: ls else (ch :: l) :: ls

/-- A line without its comment: `;` outside a quoted text starts one (R86). -/
def dropComment (inQuote : Bool) : List Char → List Char
  | [] => []
  | ch :: rest =>
    if ch = ';' ∧ inQuote = false then []
    else ch :: dropComment (if ch = quoteChar then !inQuote else inQuote) rest

/-- The blank-separated words of a line. -/
def splitWords : List Char → List (List Char)
  | [] => []
  | ch :: rest =>
    if ch.isWhitespace then splitWords rest
    else match rest, splitWords rest with
      | [], _ => [[ch]]
      | next :: _, words =>
        if next.isWhitespace then [ch] :: words
        else match words with
          | [] => [[ch]]
          | w :: ws => (ch :: w) :: ws

/-- A line of an operation without operand. -/
def lineWithout (e : EventLine) (operands : List (List Char)) : Except LineError EventLine :=
  if operands.isEmpty then .ok e else .error .operandNotAllowed

/-- A line whose one operand is a decimal number. -/
def lineWithCount (f : Nat → EventLine) (operands : List (List Char)) : Except LineError EventLine :=
  match operands with
  | [t] => match readDecimal t with
    | some n => .ok (f n)
    | none => .error .badNumber
  | _ => .error .badNumber

/-- A line whose operands are key bytes. -/
def lineWithKey (f : List Byte → EventLine) (operands : List (List Char)) : Except LineError EventLine :=
  match readBytes operands with
  | some bs => .ok (f bs)
  | none => .error .badNumber

/-- `RX` takes exactly one byte operand (R88). -/
def lineRx (operands : List (List Char)) : Except LineError EventLine :=
  match operands with
  | [t] => match readByte t with
    | some d => .ok (.rx d)
    | none => .error .rxOperands
  | _ => .error .rxOperands

/-- The mnemonics of R86 and R87 with their operands; `rest` is the line after the mnemonic. -/
def readMnemonic (m : List Char) (operands : List (List Char)) (rest : List Char) : Except LineError EventLine :=
  if m = ['R', 'X'] then lineRx operands
  else if m = ['B', 'T', 'N'] then lineWithout .btn operands
  else if m = ['T', 'I', 'C', 'K'] then lineWithout .tick operands
  else if m = ['P', 'W', 'R', '_', 'O', 'F', 'F'] then lineWithout .pwrOff operands
  else if m = ['P', 'W', 'R', '_', 'O', 'N'] then lineWithout .pwrOn operands
  else if m = ['T', 'I', 'C', 'K', 'S'] then lineWithCount .ticks operands
  else if m = ['W', 'A', 'I', 'T', '_', 'M', 'S'] then lineWithCount .waitMs operands
  else if m = ['F', 'R', 'A', 'M', 'E'] then lineWithKey .frame operands
  else if m = ['P', 'A', 'R', 'T', 'I', 'A', 'L'] then lineWithKey .partialFrame operands
  else if m = ['S', 'E', 'N', 'D'] then
    match readText rest with
    | some bs => .ok (.send bs)
    | none => .error .badText
  else .error .unknownMnemonic

/-- The event words of one line of text; a blank line or a comment has none. -/
def transcribeLine (c : Config) (text : List Char) : Except LineError (List EventWord) :=
  let code := dropComment false text
  match splitWords code with
  | [] => .ok []
  | m :: operands =>
    match readMnemonic m operands ((code.dropWhile Char.isWhitespace).drop m.length) with
    | .ok l => expandLine c l
    | .error e => .error e

/-- The event words of the lines from line `n` on, or the first refusal. -/
def transcribeFrom (c : Config) (n : Nat) : List (List Char) → Except ProgramError (List EventWord)
  | [] => .ok []
  | l :: ls =>
    match transcribeLine c l with
    | .error e => .error { line := n, reason := e }
    | .ok ws =>
      match transcribeFrom c (n + 1) ls with
      | .error e => .error e
      | .ok rest => .ok (ws ++ rest)

/-- The transcriber (R86 to R88). -/
def transcribe (c : Config) (text : List Char) : Except ProgramError (List EventWord) :=
  transcribeFrom c 1 (splitLines text)

/-- A program's words presented as input events, after those already waiting (R72). -/
def State.present (s : State) (words : List EventWord) : State := { s with events := s.events ++ words }

end Sys2Proof.Machine
end

