-- ==== Sys2Proof/Machine/Flags.lean ====
section
/-! DEFINITION. The block's combinational outputs (spec/10_state.md R39): the power-gating and display enables
(spec/44_power_display.md R192) and the observation words STATUS, CODE and TIME (spec/30_encoding.md R84, R85). They hold no
state of their own. The block has no arithmetic flags. -/
namespace Sys2Proof.Machine

/-- The encoding of `cl_dev_state` (R32). -/
def devStateBits : DevState → BitVec 2
  | .dormant => 0
  | .listening => 1
  | .displaying => 2
  | .reserved => 3

/-- The encoding of `pf_state` (R25). -/
def pfStateBit : PfState → Bool
  | .idle => false
  | .collecting => true

/-- PG_CORE: the main clock and power domain's enable (R192). -/
def pgCore (s : State) : Bool := s.powered && decide (s.clDevState ≠ .dormant)

/-- PG_RX: the serial receiver's clock enable (R192). -/
def pgRx (s : State) : Bool := s.powered && decide (s.clDevState = .listening)

/-- DISPLAY_EN: the display panel's enable (R192). -/
def displayEn (s : State) : Bool := s.clDisplayEn

/-- PROVISIONED: some `ks[i]` is not 0x00 (R84). -/
def provisioned (s : State) : Bool := (keyStoreBytes s).any fun b => b != 0x00

/-- A 32-bit word with `b` at bit `i` and zeros elsewhere. -/
def bitAt (i : Nat) (b : Bool) : BitVec 32 := if b then 1#32 <<< i else 0#32

/-- STATUS while powered, field by field (R84); reserved bits 7, 15:13 and 31:23 are 0. -/
def statusPowered (s : State) : BitVec 32 :=
  (devStateBits s.clDevState).setWidth 32
    ||| bitAt 2 (pfStateBit s.pfState)
    ||| bitAt 3 s.clPendingWake
    ||| bitAt 4 (displayEn s)
    ||| bitAt 5 (pgCore s)
    ||| bitAt 6 (pgRx s)
    ||| bitAt 8 s.oePadsValid
    ||| bitAt 9 s.oeCodeValid
    ||| bitAt 10 s.stKsError
    ||| bitAt 11 s.stRxDropped
    ||| bitAt 12 (provisioned s)
    ||| (BitVec.ofNat 7 s.pfIdx).setWidth 32 <<< 16

/-- STATUS (R84): 0 while unpowered. -/
def status (s : State) : BitVec 32 := if s.powered then statusPowered s else 0

/-- CODE (R85): `oe_code` in bits 19:0. -/
def codeWord (s : State) : BitVec 32 := s.oeCode.setWidth 32

/-- TIME (R85): `tc_sec` and `tc_frac`. -/
def timeWord (s : State) : BitVec 64 × Nat := (s.tcSec, s.tcFrac)

end Sys2Proof.Machine
end

