-- ==== Sys2Proof/Safety.lean ====
section
/-! DEFINITION. What counts as a safe run: no mark is set (spec/10_state.md R45, spec/60_exceptions.md R215), and the invariants
of spec/10_state.md R41 with the ranges the state elements have (R23 to R37). -/
namespace Sys2Proof.Machine

/-- A state that may be the last of a run: neither mark is set (R45). -/
def Final (s : State) : Prop := s.faulted = none ∧ s.refused = none

/-- The ranges and lengths of the elements whose width depends on a parameter (R23, R24, R26, R27, R29, R51), powered or not. -/
structure Ranges (s : State) : Prop where
  /-- The configuration is one R11 admits. -/
  cfg : s.cfg.wf = true
  /-- The Key Store is in canonical form. -/
  ksCanonical : Memory.wf s.ks = true
  /-- The Key Store holds the indices 0 to N - 1 only (R51). -/
  ksWithin : Memory.within s.cfg.keyLen s.ks = true
  /-- R23. -/
  tcSec : s.tcSec.toNat < s.cfg.timeModulus
  /-- R24. -/
  tcFrac : s.tcFrac < s.cfg.tps
  /-- R27. -/
  pfBuf : s.pfBuf.length = s.cfg.keyLen
  /-- R29. -/
  oeIpad : s.oeIpad.length = blockLen
  /-- R29. -/
  oeOpad : s.oeOpad.length = blockLen
  /-- Without power the display is off (R36, R241). -/
  dark : s.powered = false → s.clDisplayEn = false ∧ s.clDisplayText = []

/-- R41, items 1 to 7, with the ranges of the timers and of the code (R31, R34, R36, R183): what holds between events while powered. -/
structure Powered (s : State) : Prop where
  /-- Item 1. -/
  collecting_listening : s.pfState = .collecting → s.clDevState = .listening
  /-- Item 2. -/
  collecting_bounds : s.pfState = .collecting → s.pfIdx ≤ s.cfg.keyLen - 1 ∧ 1 ≤ s.pfTimer ∧ s.pfTimer ≤ s.cfg.provTimeoutTicks
  /-- Item 3. -/
  idle_cleared : s.pfState = .idle → s.pfIdx = 0 ∧ s.pfBuf = List.replicate s.cfg.keyLen 0x00
  /-- Item 4. -/
  displaying_code : s.clDevState = .displaying →
    s.clDisplayEn = true ∧ s.oeCodeValid = true ∧ s.clDisplayText = digits6 s.oeCode.toNat
  /-- Item 5. -/
  displaying_timer : s.clDevState = .displaying → s.cfg.displayMode = .flat →
    1 ≤ s.clDispTimer ∧ s.clDispTimer ≤ s.cfg.displayTicks
  /-- Item 6. -/
  pads_fresh : s.oePadsValid = true →
    s.oeIpad = padOf s.cfg 0x36 (keyStoreBytes s) ∧ s.oeOpad = padOf s.cfg 0x5C (keyStoreBytes s)
  /-- Item 7. -/
  dev_state : s.clDevState ≠ .reserved
  /-- R36: the display is off and blank unless Displaying. -/
  not_displaying : s.clDevState ≠ .displaying → s.clDisplayEn = false ∧ s.clDisplayText = []
  /-- R31. -/
  code_range : s.oeCode.toNat < 1000000
  /-- R183: under PERIODIC, at least 1 in DORMANT. -/
  dormant_timer : s.cfg.listenMode = .periodic → s.clDevState = .dormant →
    1 ≤ s.clListenTimer ∧ s.clListenTimer ≤ s.cfg.listenPeriodTicks
  /-- R34: under PERIODIC, at most the window in LISTENING. -/
  listening_timer : s.cfg.listenMode = .periodic → s.clDevState = .listening → s.clListenTimer ≤ s.cfg.listenWindowTicks
  /-- R195: under CONTINUOUS a display or a listen never counts, and DORMANT is left at the first poll. -/
  continuous_timer : s.cfg.listenMode = .continuous → s.clListenTimer = 0

/-- The invariant every step keeps. -/
structure Invariant (s : State) : Prop where
  ranges : Ranges s
  powered : s.powered = true → Powered s

end Sys2Proof.Machine
end

