-- ==== Sys2Proof/Certificates/Slice0/Obligations.lean ====
section
/-! DEFINITION. The statements for the provers. Those about one operation give its whole next state, both where `exec` performs
it and where `step` meets its event word; those about every step say what only some events may change. -/
open Sys2Proof Sys2Proof.Machine

namespace Sys2Proof.Claims

/-- The next event word is `w`, and `rest` follows it. -/
abbrev Next (s : State) (w : EventWord) (rest : List EventWord) : Prop := s.events = w :: rest

/-- The state an operation meets when its event word has been taken. -/
def taken (s : State) (rest : List EventWord) : State := { s with events := rest }

/-- A word that spells no event (R73). -/
abbrev Reserved (w : EventWord) : Prop :=
  kindOf w = 0x00 ∨ 6 ≤ (kindOf w).toNat ∨ (2 ≤ (kindOf w).toNat ∧ (kindOf w).toNat ≤ 5 ∧ dataOf w ≠ 0x00)

/-- The value of a big-endian byte string. -/
def bigEndian (l : List Byte) : Nat := l.foldl (fun v b => v * 256 + b.toNat) 0

/-- The value of a string of ASCII decimal digits, most significant first. -/
def decimalValue (l : List Byte) : Nat := l.foldl (fun v b => v * 10 + (b.toNat - 0x30)) 0

/-- The value of an uppercase hexadecimal digit in ASCII. -/
def hexValue (b : Byte) : Nat := if b.toNat < 0x41 then b.toNat - 0x30 else b.toNat - 0x41 + 10

/-- 0-9 or A-F in ASCII. -/
abbrev IsHexDigit (b : Byte) : Prop := (0x30 ≤ b.toNat ∧ b.toNat ≤ 0x39) ∨ (0x41 ≤ b.toNat ∧ b.toNat ≤ 0x46)

/-- HMAC-H(key, msg) for a key no longer than the block, from RFC 2104's words as R116 names them: the key padded with zeros
to 64 bytes, `H(K xor opad, H(K xor ipad, msg))`. -/
def hmac (c : Config) (key msg : List Byte) : List Byte :=
  let k := key ++ List.replicate (64 - key.length) 0x00
  c.digest (k.map (fun b => b ^^^ 0x5C) ++ c.digest (k.map (fun b => b ^^^ 0x36) ++ msg))

/-- The 6-digit HOTP value of a digest as arithmetic on its bytes (R108 to R110). -/
def hotpOfDigest (digest : List Byte) : Nat :=
  let o := (byteAt digest (digest.length - 1)).toNat % 16
  ((byteAt digest o).toNat % 128 * 2 ^ 24 + (byteAt digest (o + 1)).toNat * 2 ^ 16
    + (byteAt digest (o + 2)).toNat * 2 ^ 8 + (byteAt digest (o + 3)).toNat) % 1000000

/-- The 8-byte big-endian counter of a time, by division (R105). -/
def counterOf (c : Config) (t : BitVec 64) : List Byte :=
  (List.range 8).map fun j => BitVec.ofNat 8 (t.toNat / c.timestep / 256 ^ (7 - j))

/-- The indices whose stored byte differs from the key's, in ascending order, with the key's byte (R162). -/
def differing (s : State) (key : List Byte) : List (Nat × Byte) :=
  ((List.range s.cfg.keyLen).filter fun a => Memory.read s.ks a != byteAt key a).map fun a => (a, byteAt key a)

/-- Time after one tick of the counter (R131, R133). -/
def TimeTicked (s t : State) : Prop :=
  if s.powered = false ∧ s.cfg.timeStrategy = .uptime then t.tcSec = s.tcSec ∧ t.tcFrac = s.tcFrac
  else if s.tcFrac + 1 = s.cfg.tps then t.tcFrac = 0 ∧ t.tcSec.toNat = (s.tcSec.toNat + 1) % s.cfg.timeModulus
  else t.tcFrac = s.tcFrac + 1 ∧ t.tcSec = s.tcSec

/-- A poll would act on a wake: one is pending, and the device is DORMANT, or LISTENING with the framer IDLE. -/
abbrev WakeServed (s : State) : Prop :=
  s.clPendingWake = true ∧ (s.clDevState = .dormant ∨ (s.clDevState = .listening ∧ s.pfState = .idle))

/-- The home state (R191) and the listen timer on entering it. -/
def AtHome (s t : State) : Prop :=
  match s.cfg.listenMode with
  | .continuous => t.clDevState = .listening ∧ t.clListenTimer = s.clListenTimer
  | .periodic => t.clDevState = .dormant ∧ t.clListenTimer = s.cfg.listenPeriodTicks

/-- END_DISPLAY from `s` gave `t` (R187): the display is blank and off, the wake discarded, the device home; nothing else but the
time changed. -/
def DisplayEnded (s t : State) : Prop :=
  AtHome s t ∧
  t = { s with
        tcSec := t.tcSec, tcFrac := t.tcFrac
        dispLog := s.dispLog ++ [.blank]
        clDisplayText := [], clDisplayEn := false, clDispTimer := 0, clPendingWake := false
        clDevState := t.clDevState, clListenTimer := t.clListenTimer }

/-- No read of a boot fails: under NEVER, or under DRAW when the environment's draws for its N + 1 reads say so; `ds` are the draws
left. -/
abbrev ReadsSucceed (s : State) (ds : List Bool) : Prop :=
  (s.cfg.ksFaultModel = .never ∧ s.ksDraws = ds) ∨
  (s.cfg.ksFaultModel = .draw ∧ s.ksDraws = List.replicate (s.cfg.keyLen + 1) false ++ ds)

end Sys2Proof.Claims

open Sys2Proof.Claims

/-! ### Encoding and step -/

/-- R71, R73, R74: decoding the encoding of a well-formed operation, in any context its row applies in, gives it back; and
every word the decoder accepts is the encoding of what it gives, a well-formed operation whose row applies. -/
def Obligations.DecodeAndEncodeAgree : Prop :=
  (∀ (c : RxContext) (i : Instr), i.wf = true → c.admits i = true → decode c (encode i) = .ok i) ∧
  (∀ (c : RxContext) (w : EventWord) (i : Instr), decode c w = .ok i →
    encode i = w ∧ i.wf = true ∧ c.admits i = true)

/-- spec/95_test_vectors.md N1: the words of the six spellings decode to the operations they stand for. -/
def Obligations.SampleWordsDecode : Prop :=
  decode ⟨true, true, false, false⟩ 0x01AA = .ok .rxSentinel ∧
  decode ⟨true, true, false, false⟩ 0x0107 = .ok (.rxIgnored 0x07) ∧
  decode ⟨true, true, true, false⟩ 0x01AA = .ok (.rxKey 0xAA) ∧
  decode ⟨true, true, true, true⟩ 0x0107 = .ok (.rxKeyLast 0x07) ∧
  decode ⟨true, false, false, false⟩ 0x01AA = .ok (.rxDrop 0xAA) ∧
  decode ⟨false, false, false, false⟩ 0x01AA = .ok (.rxOff 0xAA) ∧
  decode ⟨true, true, false, false⟩ 0x0200 = .ok .btn ∧
  decode ⟨true, true, false, false⟩ 0x0300 = .ok .tick ∧
  decode ⟨true, true, false, false⟩ 0x0400 = .ok .pwrOff ∧
  decode ⟨true, true, false, false⟩ 0x0500 = .ok .pwrOn

/-- R73: the event kinds, and every other word refused: the mark is set, no other state changes. That the mark carries a reason and keeps
an earlier one is the model's choice (log entry 7). -/
def Obligations.EventKindsAndReservedWords : Prop :=
  (∀ w, kindOf w = 0x01 → decodeEvent w = .ok (.rx (dataOf w))) ∧
  (∀ w, kindOf w = 0x02 → dataOf w = 0x00 → decodeEvent w = .ok .btn) ∧
  (∀ w, kindOf w = 0x03 → dataOf w = 0x00 → decodeEvent w = .ok .tick) ∧
  (∀ w, kindOf w = 0x04 → dataOf w = 0x00 → decodeEvent w = .ok .pwrOff) ∧
  (∀ w, kindOf w = 0x05 → dataOf w = 0x00 → decodeEvent w = .ok .pwrOn) ∧
  (∀ s w rest, s.cfg.wf = true → Next s w rest → Reserved w →
    step s = .next { s with events := rest, refused := some (s.refused.getD (.reservedEvent w)) })

/-- R72, R74: where the word decodes in the state it meets, the step is exec of that operation on the state without the word. -/
def Obligations.StepRunsTheDecodedOperation : Prop :=
  ∀ s w rest i, s.cfg.wf = true → Next s w rest → decode (rxContext s) w = .ok i → step s = exec i (taken s rest)

/-- R151: RX dispatch, in its order. -/
def Obligations.RxDispatchOrder : Prop :=
  ∀ s d rest, s.cfg.wf = true → Next s (eventWord 0x01 d) rest →
    (s.powered = false → step s = exec (.rxOff d) (taken s rest)) ∧
    (s.powered = true → s.clDevState ≠ .listening → step s = exec (.rxDrop d) (taken s rest)) ∧
    (s.powered = true → s.clDevState = .listening → s.pfState = .idle → d = 0xAA →
      step s = exec .rxSentinel (taken s rest)) ∧
    (s.powered = true → s.clDevState = .listening → s.pfState = .idle → d ≠ 0xAA →
      step s = exec (.rxIgnored d) (taken s rest)) ∧
    (s.powered = true → s.clDevState = .listening → s.pfState = .collecting → s.pfIdx < s.cfg.keyLen - 1 →
      step s = exec (.rxKey d) (taken s rest)) ∧
    (s.powered = true → s.clDevState = .listening → s.pfState = .collecting → ¬ s.pfIdx < s.cfg.keyLen - 1 →
      step s = exec (.rxKeyLast d) (taken s rest))

/-- R72, R210, R232: in every state of an admitted configuration every event word is accepted at once and one word is taken. The rest is the
model's form: that a fault is a marked next state, so that a step never ends in one, is its inference (log entry 7); the two refusals a
step may end in, without an event or without an admitted configuration, are its choice (log entries 10 and 13). -/
def Obligations.EveryEventIsAccepted : Prop :=
  (∀ s w rest, s.cfg.wf = true → Next s w rest → ∃ t, step s = .next t ∧ t.events = rest) ∧
  (∀ s f, step s ≠ .fault f) ∧
  (∀ s r, step s = .refused r → (s.events = [] ∧ r = .noEvent) ∨ (s.cfg.wf = false ∧ r = .configuration))

/-! ### The RX operations -/

/-- R163: nothing changes. -/
def Obligations.RxOffChangesNothing : Prop :=
  ∀ s d, s.powered = false →
    exec (.rxOff d) s = .next s ∧
    (∀ rest, s.cfg.wf = true → step { s with events := eventWord 0x01 d :: rest } = .next { s with events := rest })

/-- R240: while unpowered, RX, BTN and PWR_OFF change nothing. -/
def Obligations.UnpoweredIgnoresRxButtonAndPowerOff : Prop :=
  ∀ s w rest, s.cfg.wf = true → s.powered = false → Next s w rest →
    (kindOf w = 0x01 ∨ w = encode .btn ∨ w = encode .pwrOff) → step s = .next { s with events := rest }

/-- R152: `st_rx_dropped` is set and nothing else changes. -/
def Obligations.RxDropSetsTheStickyBit : Prop :=
  ∀ s d, s.powered = true → (s.clDevState = .dormant ∨ s.clDevState = .displaying) →
    exec (.rxDrop d) s = .next { s with stRxDropped := true } ∧
    (∀ rest, s.cfg.wf = true → step { s with events := eventWord 0x01 d :: rest } =
      .next { s with events := rest, stRxDropped := true })

/-- spec/93_implementation_defined.md: while powered, TICK and RX find `cl_dev_state` = 3 and treat it as a fault, which sets the mark
and leaves every other element as it was. Which operations find the value is the model's choice (log entry 15), and so is that the mark
keeps an earlier reason (log entry 7). -/
def Obligations.ReservedDeviceStateIsAFault : Prop :=
  ∀ s d, s.powered = true → s.clDevState = .reserved →
    exec .tick s = .next { s with faulted := some (s.faulted.getD .reservedDevState) } ∧
    exec (.rxDrop d) s = .next { s with faulted := some (s.faulted.getD .reservedDevState) }

/-- R153: the echo of the byte is emitted and nothing else changes. -/
def Obligations.RxIgnoredEchoesTheByte : Prop :=
  ∀ s d, s.powered = true → s.clDevState = .listening → s.pfState = .idle → d ≠ 0xAA →
    exec (.rxIgnored d) s = .next { s with txLog := s.txLog ++ ignoredText ++ hexText s.cfg.echoFormat d } ∧
    (∀ rest, s.cfg.wf = true → step { s with events := eventWord 0x01 d :: rest } =
      .next { s with events := rest, txLog := s.txLog ++ ignoredText ++ hexText s.cfg.echoFormat d })

/-- R79: the echo's prefix, and its digits under both formats: uppercase, CR LF at the end, the byte's value in base 16; without a leading zero
under MINIMAL_UPPER_CRLF, two digits under PADDED_UPPER_CRLF. -/
def Obligations.HexEchoSpellsTheByte : Prop :=
  (∀ f d, ignoredEcho f d =
    [0x49, 0x67, 0x6E, 0x6F, 0x72, 0x65, 0x64, 0x20, 0x48, 0x65, 0x78, 0x3A, 0x20] ++ hexText f d) ∧
  (∀ d, d.toNat < 16 → ∃ a, hexText .minimalUpperCrlf d = [a, 0x0D, 0x0A] ∧ IsHexDigit a ∧ hexValue a = d.toNat) ∧
  (∀ d, 16 ≤ d.toNat → ∃ a b, hexText .minimalUpperCrlf d = [a, b, 0x0D, 0x0A] ∧ IsHexDigit a ∧ IsHexDigit b ∧
    hexValue a ≠ 0 ∧ hexValue a * 16 + hexValue b = d.toNat) ∧
  (∀ d, ∃ a b, hexText .paddedUpperCrlf d = [a, b, 0x0D, 0x0A] ∧ IsHexDigit a ∧ IsHexDigit b ∧
    hexValue a * 16 + hexValue b = d.toNat)

/-- R154: COLLECTING, index 0, the whole deadline; nothing else changes. -/
def Obligations.RxSentinelStartsAFrame : Prop :=
  ∀ s, s.powered = true → s.clDevState = .listening → s.pfState = .idle →
    exec .rxSentinel s = .next { s with pfState := .collecting, pfIdx := 0, pfTimer := s.cfg.provTimeoutTicks } ∧
    (∀ rest, s.cfg.wf = true → step { s with events := 0x01AA :: rest } =
      .next { s with events := rest, pfState := .collecting, pfIdx := 0, pfTimer := s.cfg.provTimeoutTicks })

/-- R155: one byte of the buffer and the index; nothing else, the deadline included. -/
def Obligations.RxKeyStoresOneByte : Prop :=
  ∀ s d, s.powered = true → s.clDevState = .listening → s.pfState = .collecting → s.pfIdx < s.cfg.keyLen - 1 →
    exec (.rxKey d) s = .next { s with pfBuf := s.pfBuf.set s.pfIdx d, pfIdx := s.pfIdx + 1 } ∧
    (∀ rest, s.cfg.wf = true → step { s with events := eventWord 0x01 d :: rest } =
      .next { s with events := rest, pfBuf := s.pfBuf.set s.pfIdx d, pfIdx := s.pfIdx + 1 })

/-- R156, R157: the last key byte commits the frame. `key` is the frame's N bytes: the Key Store holds them, the pads are theirs, the
acknowledgment echoes them raw, the framer is IDLE with its buffer cleared; every other element is unchanged, and so is
every byte outside the Key Store's indices 0 to N - 1. -/
def Obligations.RxKeyLastCommitsTheFrame : Prop :=
  ∀ s d, s.cfg.wf = true → s.powered = true → s.clDevState = .listening → s.pfState = .collecting →
    s.pfIdx = s.cfg.keyLen - 1 → s.pfBuf.length = s.cfg.keyLen → Memory.wf s.ks = true →
    ∃ t, exec (.rxKeyLast d) s = .next t ∧
      (∀ a, a < s.cfg.keyLen → Memory.read t.ks a = byteAt (s.pfBuf.set (s.cfg.keyLen - 1) d) a) ∧
      (∀ a, s.cfg.keyLen ≤ a → Memory.read t.ks a = Memory.read s.ks a) ∧
      t = { s with
            ks := t.ks
            ksLog := s.ksLog ++ differing s (s.pfBuf.set (s.cfg.keyLen - 1) d)
            oeIpad := (List.range 64).map fun i =>
              0x36 ^^^ (if i < s.cfg.keyLen then byteAt (s.pfBuf.set (s.cfg.keyLen - 1) d) i else 0x00)
            oeOpad := (List.range 64).map fun i =>
              0x5C ^^^ (if i < s.cfg.keyLen then byteAt (s.pfBuf.set (s.cfg.keyLen - 1) d) i else 0x00)
            oePadsValid := true
            txLog := s.txLog ++ [0x4B, 0x65, 0x79, 0x20, 0x73, 0x61, 0x76, 0x65, 0x64, 0x3A, 0x20]
              ++ s.pfBuf.set (s.cfg.keyLen - 1) d ++ [0x0D, 0x0A]
            pfBuf := List.replicate s.cfg.keyLen 0x00
            pfIdx := 0
            pfTimer := 0
            pfState := .idle }

/-- R162: a commit makes as many physical writes as the frame differs from the stored key in bytes, at ascending indices. It is said of
the operation in every state, also in one outside its row, where that it answers its pseudocode is the model's choice (log entry 9). -/
def Obligations.CommitWritesOnlyDifferingBytes : Prop :=
  ∀ s d, s.cfg.wf = true → s.pfBuf.length = s.cfg.keyLen → Memory.wf s.ks = true →
    ∃ t writes, exec (.rxKeyLast d) s = .next t ∧ t.ksLog = s.ksLog ++ writes ∧
      writes.length = (List.range s.cfg.keyLen).countP
        (fun a => Memory.read s.ks a != byteAt (s.pfBuf.set (s.cfg.keyLen - 1) d) a) ∧
      (writes.map Prod.fst).Pairwise (· < ·) ∧
      (∀ a v, (a, v) ∈ writes → v = byteAt (s.pfBuf.set (s.cfg.keyLen - 1) d) a ∧ Memory.read s.ks a ≠ v)

/-- R158: the framer's part of a TICK while LISTENING. A deadline that has more than one tick left loses one; one that has one left
expires: "Timeout", the partial bytes discarded, IDLE. The Key Store, its log and the pads are untouched, and in IDLE
nothing of the framer changes. -/
def Obligations.FramerTickCountsTheDeadline : Prop :=
  ∀ s, s.cfg.wf = true → s.powered = true → s.clDevState = .listening →
    ∃ t, exec .tick s = .next t ∧
      t.ks = s.ks ∧ t.ksLog = s.ksLog ∧ t.oeIpad = s.oeIpad ∧ t.oeOpad = s.oeOpad ∧ t.oePadsValid = s.oePadsValid ∧
      (s.pfState = .idle → t.pfState = .idle ∧ t.pfIdx = s.pfIdx ∧ t.pfBuf = s.pfBuf ∧ t.pfTimer = s.pfTimer ∧
        t.txLog = s.txLog) ∧
      (s.pfState = .collecting → 1 < s.pfTimer → t.pfState = .collecting ∧ t.pfIdx = s.pfIdx ∧ t.pfBuf = s.pfBuf ∧
        t.pfTimer = s.pfTimer - 1 ∧ t.txLog = s.txLog) ∧
      (s.pfState = .collecting → s.pfTimer = 1 → t.pfState = .idle ∧ t.pfIdx = 0 ∧
        t.pfBuf = List.replicate s.cfg.keyLen 0x00 ∧ t.pfTimer = 0 ∧
        t.txLog = s.txLog ++ [0x54, 0x69, 0x6D, 0x65, 0x6F, 0x75, 0x74, 0x0D, 0x0A])

/-- R159, R160, R75: from any invariant state that is Listening and IDLE, a whole frame provisions its key: N + 1 events later the Key
Store is exactly the key, it has been acknowledged, the pads are its pads and the framer is IDLE again. -/
def Obligations.FullFrameProvisionsItsKey : Prop :=
  ∀ s key rest, Invariant s → s.powered = true → s.clDevState = .listening → s.pfState = .idle →
    key.length = s.cfg.keyLen → s.events = frameWords key ++ rest →
    ∃ t, core.run (s.cfg.keyLen + 1) s = .next t ∧ t.events = rest ∧
      keyStoreBytes t = key ∧ t.txLog = s.txLog ++ savedAck key ∧
      t.oeIpad = padOf s.cfg 0x36 key ∧ t.oeOpad = padOf s.cfg 0x5C key ∧ t.oePadsValid = true ∧
      t.pfState = .idle ∧ t.clDevState = .listening ∧ t.tcSec = s.tcSec ∧ t.tcFrac = s.tcFrac

/-- R158, R160, R211: with no byte following, a frame in flight is still in flight at every tick before its deadline, and at its deadline it
is gone without a trace in the Key Store: exactly the timeout text is emitted. -/
def Obligations.PartialFrameTimesOut : Prop :=
  ∀ s rest, Invariant s → s.powered = true → s.pfState = .collecting →
    s.events = List.replicate s.pfTimer (encode .tick) ++ rest →
    (∀ k, k < s.pfTimer → ∃ t, core.run k s = .next t ∧ t.pfState = .collecting ∧ t.pfTimer = s.pfTimer - k ∧
      t.clDevState = .listening ∧ t.txLog = s.txLog ∧ t.ks = s.ks) ∧
    (∃ t, core.run s.pfTimer s = .next t ∧ t.pfState = .idle ∧ t.pfIdx = 0 ∧
      t.pfBuf = List.replicate s.cfg.keyLen 0x00 ∧ t.ks = s.ks ∧ t.ksLog = s.ksLog ∧ t.txLog = s.txLog ++ timeoutText)

/-- R159, R103: the Key Store and its log change only in the step of a frame's last key byte and in a PWR_ON. -/
def Obligations.KeyStoreChangesOnlyAtCommitAndBoot : Prop :=
  ∀ s t w rest, Next s w rest → step s = .next t →
    (t.ks = s.ks ∧ t.ksLog = s.ksLog) ∨
    (s.powered = true ∧ s.clDevState = .listening ∧ s.pfState = .collecting ∧ ¬ s.pfIdx < s.cfg.keyLen - 1 ∧
      kindOf w = 0x01) ∨
    w = encode .pwrOn

/-- R55, R56, and R61's inference: an update leaves every other index alone, writes nothing when the byte is already there, stores and logs the byte
otherwise, and a second one changes nothing. -/
def Obligations.KsUpdateWritesOnlyAChange : Prop :=
  ∀ s a v, a < s.cfg.keyLen → Memory.wf s.ks = true →
    (Memory.read s.ks a = v → ksUpdate s a v = s) ∧
    (Memory.read s.ks a ≠ v → ∃ m, ksUpdate s a v = { s with ks := m, ksLog := s.ksLog ++ [(a, v)] } ∧
      Memory.read m a = v ∧ (∀ b, b ≠ a → Memory.read m b = Memory.read s.ks b)) ∧
    ksUpdate (ksUpdate s a v) a v = ksUpdate s a v

/-! ### The HMAC-OTP engine -/

/-- R102: the pads of a key, byte by byte, and nothing else written. -/
def Obligations.ComputePadsXorsTheKey : Prop :=
  ∀ s key, key.length = s.cfg.keyLen → s.cfg.wf = true →
    (∀ i, i < 64 → byteAt (computePads s key).oeIpad i = 0x36 ^^^ (if i < s.cfg.keyLen then byteAt key i else 0x00) ∧
      byteAt (computePads s key).oeOpad i = 0x5C ^^^ (if i < s.cfg.keyLen then byteAt key i else 0x00)) ∧
    (computePads s key).oeIpad.length = 64 ∧ (computePads s key).oeOpad.length = 64 ∧
    computePads s key = { s with
      oeIpad := (computePads s key).oeIpad, oeOpad := (computePads s key).oeOpad, oePadsValid := true }

/-- R105: the counter bytes are the 8-byte big-endian form of floor(t / S). -/
def Obligations.CounterBytesAreBigEndian : Prop :=
  ∀ c t, 1 ≤ c.timestep →
    (counterBytes (window c t)).length = 8 ∧ bigEndian (counterBytes (window c t)) = t.toNat / c.timestep

/-- R108, R109, R110: dynamic truncation of a digest of either legal length, and the fault of a digest too short for its offset. -/
def Obligations.TruncationSelectsMasksAndReduces : Prop :=
  (∀ outer, (outer.length = 20 ∨ outer.length = 32) →
    ∃ code offset, offset = (byteAt outer (outer.length - 1)).toNat % 16 ∧
      (binaryAt outer offset).toNat = (byteAt outer offset).toNat % 128 * 2 ^ 24 + (byteAt outer (offset + 1)).toNat * 2 ^ 16
        + (byteAt outer (offset + 2)).toNat * 2 ^ 8 + (byteAt outer (offset + 3)).toNat ∧
      (binaryAt outer offset).toNat < 2 ^ 31 ∧
      truncate outer.length outer = .ok code ∧ code.toNat = (binaryAt outer offset).toNat % 1000000) ∧
  (∀ outer, outer.length - 1 < (byteAt outer (outer.length - 1)).toNat % 16 + 3 →
    truncate outer.length outer = .error .offsetOverflow)

/-- R104, R111: with valid pads, GENERATE issues exactly the eight commands in order, and its code is the truncation of the outer digest;
besides the log it leaves only the hash primitive's own stream changed. R112: with invalid pads it returns NONE and issues none. -/
def Obligations.GenerateIssuesEightCommands : Prop :=
  ∀ s t, s.cfg.wf = true →
    (s.oePadsValid = false → generate s t = .ok (none, s)) ∧
    (s.oePadsValid = true →
      ∃ code u inner outer,
        inner = s.cfg.digest (s.oeIpad ++ counterBytes (window s.cfg t)) ∧
        outer = s.cfg.digest (s.oeOpad ++ inner) ∧
        generate s t = .ok (some code, u) ∧ truncate s.cfg.digestLen outer = .ok code ∧
        u = { s with
              hashStream := u.hashStream, draws := u.draws
              hashLog := s.hashLog ++ [.reset, .update s.oeIpad, .update (counterBytes (window s.cfg t)), .finalize inner,
                .reset, .update s.oeOpad, .update inner, .finalize outer] })

/-- R113, R114: the code is a function of the pads and the window alone. -/
def Obligations.CodeDependsOnPadsAndWindowOnly : Prop :=
  ∀ s u t1 t2, s.cfg = u.cfg → s.oeIpad = u.oeIpad → s.oeOpad = u.oeOpad → s.oePadsValid = u.oePadsValid →
    t1.toNat / s.cfg.timestep = t2.toNat / s.cfg.timestep →
    (generate s t1).map Prod.fst = (generate u t2).map Prod.fst

/-- R116, R103, R111, R186: a wake served in an invariant state with valid pads shows the 6-digit HOTP value of the key in the Key Store and
the window of the time after the tick, with HMAC as RFC 2104 builds it from the same hash. -/
def Obligations.DisplayShowsTheHotpOfTheStoredKey : Prop :=
  ∀ s, Invariant s → s.powered = true → s.oePadsValid = true → WakeServed s →
    ∃ t, exec .tick s = .next t ∧ t.clDevState = .displaying ∧
      t.oeCode.toNat = hotpOfDigest (hmac s.cfg (keyStoreBytes s) (counterOf s.cfg t.tcSec)) ∧
      decimalValue t.clDisplayText = t.oeCode.toNat ∧ t.clDisplayText.length = 6 ∧
      t.dispLog = s.dispLog ++ [.showText t.clDisplayText]

/-- R82: six ASCII digits, most significant first, that spell the code. -/
def Obligations.DigitsSpellTheCode : Prop :=
  (∀ code, code < 1000000 → (digits6 code).length = 6 ∧ decimalValue (digits6 code) = code ∧
    (∀ b, b ∈ digits6 code → 0x30 ≤ b.toNat ∧ b.toNat ≤ 0x39)) ∧
  (∀ s text, showText s text = { s with dispLog := s.dispLog ++ [.showText text] }) ∧
  (∀ s, blank s = { s with dispLog := s.dispLog ++ [.blank] })

/-- R112, R186: while the pads are invalid a served wake is consumed and nothing else happens but the passing of the tick: no hash command,
no code, no display. -/
def Obligations.InvalidPadsShowNothing : Prop :=
  ∀ s, Invariant s → s.powered = true → s.oePadsValid = false → WakeServed s →
    ∃ t, exec .tick s = .next t ∧ TimeTicked s t ∧
      t = { s with tcSec := t.tcSec, tcFrac := t.tcFrac, clPendingWake := false }

/-! ### The time counter -/

/-- R131, R132, R133: every TICK advances the counter by one tick, whatever the device state; unpowered, under RTC only. -/
def Obligations.TickAdvancesTheCounter : Prop :=
  ∀ s, s.cfg.wf = true → (s.powered = true → s.clDevState ≠ .reserved) →
    ∃ t, exec .tick s = .next t ∧ TimeTicked s t ∧
      (s.powered = false → t = { s with tcSec := t.tcSec, tcFrac := t.tcFrac })

/-- R138: the counter goes back only at a PWR_ON under UPTIME or at the wrap; otherwise it stays or gains one second. -/
def Obligations.TimeIsMonotone : Prop :=
  ∀ s t w rest, s.tcSec.toNat < s.cfg.timeModulus → Next s w rest → step s = .next t →
    t.tcSec = s.tcSec ∨ t.tcSec.toNat = s.tcSec.toNat + 1 ∨
    (w = encode .pwrOn ∧ s.cfg.timeStrategy = .uptime ∧ t.tcSec = 0) ∨
    (w = encode .tick ∧ s.tcSec.toNat = s.cfg.timeModulus - 1 ∧ t.tcSec = 0)

/-- R115: over a TICK that does not wrap the counter, the window counter gains one exactly when `tc_sec` passes to a multiple of S. -/
def Obligations.WindowAdvancesAtMultiplesOfTheTimestep : Prop :=
  ∀ s t, s.cfg.wf = true → s.tcSec.toNat + 1 < s.cfg.timeModulus → exec .tick s = .next t →
    (window s.cfg t.tcSec).toNat =
      (window s.cfg s.tcSec).toNat + (if t.tcSec ≠ s.tcSec ∧ t.tcSec.toNat % s.cfg.timestep = 0 then 1 else 0)

/-- R140: PROV_TIMEOUT_TICKS is the least tick count not shorter than 2000 ms. -/
def Obligations.ProvTimeoutIsTheLeastTickCount : Prop :=
  ∀ c : Config, 2000 * c.tps ≤ c.provTimeoutTicks * 1000 ∧ (∀ k, 2000 * c.tps ≤ k * 1000 → c.provTimeoutTicks ≤ k)

/-! ### Power and display control -/

/-- R181, R218: while powered, BTN sets the pending-wake flag and does nothing else; while unpowered, nothing. -/
def Obligations.ButtonOnlySetsThePendingWake : Prop :=
  ∀ s, (s.powered = true → exec .btn s = .next { s with clPendingWake := true }) ∧
    (s.powered = false → exec .btn s = .next s) ∧
    (∀ rest, s.cfg.wf = true → step { s with events := 0x0200 :: rest } =
      .next { s with events := rest, clPendingWake := s.powered || s.clPendingWake })

/-- R188: any number of button edges before one TICK in DORMANT make one display: one Show, eight hash commands, the flag clear. -/
def Obligations.HeldButtonMakesOneDisplay : Prop :=
  ∀ s n rest, Invariant s → s.powered = true → s.clDevState = .dormant → s.oePadsValid = true →
    s.events = List.replicate (n + 1) (encode .btn) ++ encode .tick :: rest →
    ∃ t text, core.run (n + 2) s = .next t ∧ t.events = rest ∧ t.clDevState = .displaying ∧ t.clPendingWake = false ∧
      t.dispLog = s.dispLog ++ [.showText text] ∧ t.hashLog.length = s.hashLog.length + 8

/-- R182, R186, R188: a served wake with valid pads clears the flag and starts the display of the code GENERATE returns for the time after the
tick; the hash port is as that GENERATE leaves it, and nothing but the time and the elements START_DISPLAY names changes. -/
def Obligations.WakeStartsTheDisplay : Prop :=
  ∀ s, Invariant s → s.powered = true → s.oePadsValid = true → WakeServed s →
    ∃ t u, exec .tick s = .next t ∧ TimeTicked s t ∧ generate s t.tcSec = .ok (some t.oeCode, u) ∧
      t.oeCode.toNat < 1000000 ∧
      t = { s with
            tcSec := t.tcSec, tcFrac := t.tcFrac
            hashStream := u.hashStream, draws := u.draws, hashLog := u.hashLog
            clPendingWake := false
            oeCode := t.oeCode
            oeCodeValid := true
            clDisplayText := digits6 t.oeCode.toNat
            dispLog := s.dispLog ++ [.showText (digits6 t.oeCode.toNat)]
            clDisplayEn := true
            clDispTimer := if s.cfg.displayMode = .flat then s.cfg.displayTicks else 0
            clDispWindow := window s.cfg t.tcSec
            clDevState := .displaying }

/-- R183: the poll in DORMANT without a wake, and with one (the listen timer does not count in that tick). -/
def Obligations.DormantPoll : Prop :=
  ∀ s, Invariant s → s.powered = true → s.clDevState = .dormant →
    ∃ t, exec .tick s = .next t ∧ TimeTicked s t ∧
      (s.clPendingWake = true → t.clPendingWake = false ∧ t.clListenTimer = s.clListenTimer ∧
        t.clDevState = (if s.oePadsValid then .displaying else .dormant)) ∧
      (s.clPendingWake = false → s.cfg.listenMode = .continuous →
        t = { s with tcSec := t.tcSec, tcFrac := t.tcFrac, clDevState := .listening }) ∧
      (s.clPendingWake = false → s.cfg.listenMode = .periodic → s.clListenTimer = 1 →
        t = { s with tcSec := t.tcSec, tcFrac := t.tcFrac, clDevState := .listening,
                     clListenTimer := s.cfg.listenWindowTicks }) ∧
      (s.clPendingWake = false → s.cfg.listenMode = .periodic → 1 < s.clListenTimer →
        t = { s with tcSec := t.tcSec, tcFrac := t.tcFrac, clListenTimer := s.clListenTimer - 1 })

/-- R184: the poll in LISTENING. With a frame in flight only the window counts; without one a wake is served before the window, and an expired
window sends the device home. -/
def Obligations.ListeningPoll : Prop :=
  ∀ s, Invariant s → s.powered = true → s.clDevState = .listening →
    ∃ t, exec .tick s = .next t ∧ TimeTicked s t ∧
      (s.pfState = .collecting → 1 < s.pfTimer →
        t = { s with tcSec := t.tcSec, tcFrac := t.tcFrac, pfTimer := s.pfTimer - 1,
                     clListenTimer := if s.cfg.listenMode = .periodic then s.clListenTimer - 1 else s.clListenTimer }) ∧
      (s.pfState = .idle → s.clPendingWake = true → t.clPendingWake = false ∧ t.clListenTimer = s.clListenTimer ∧
        t.clDevState = (if s.oePadsValid then .displaying else .listening)) ∧
      (s.pfState = .idle → s.clPendingWake = false → s.cfg.listenMode = .continuous →
        t = { s with tcSec := t.tcSec, tcFrac := t.tcFrac }) ∧
      (s.pfState = .idle → s.clPendingWake = false → s.cfg.listenMode = .periodic → s.clListenTimer ≤ 1 →
        t = { s with tcSec := t.tcSec, tcFrac := t.tcFrac, clDevState := .dormant,
                     clListenTimer := s.cfg.listenPeriodTicks }) ∧
      (s.pfState = .idle → s.clPendingWake = false → s.cfg.listenMode = .periodic → 1 < s.clListenTimer →
        t = { s with tcSec := t.tcSec, tcFrac := t.tcFrac, clListenTimer := s.clListenTimer - 1 })

/-- R182, R219: a TICK in which the provisioning deadline expires handles the timeout first, and the rest of it is the TICK of the IDLE framer the
timeout leaves; so a wake pending in that TICK is served in it. -/
def Obligations.TimeoutAndWakeInOneTick : Prop :=
  ∀ s, Invariant s → s.powered = true → s.pfState = .collecting → s.pfTimer = 1 →
    exec .tick s = exec .tick { s with
      pfState := .idle, pfIdx := 0, pfTimer := 0, pfBuf := List.replicate s.cfg.keyLen 0x00
      txLog := s.txLog ++ [0x54, 0x69, 0x6D, 0x65, 0x6F, 0x75, 0x74, 0x0D, 0x0A] } ∧
    (s.clPendingWake = true → s.oePadsValid = true →
      ∃ t, exec .tick s = .next t ∧ TimeTicked s t ∧ t.txLog = s.txLog ++ timeoutText ∧ t.pfState = .idle ∧
        t.clDevState = .displaying ∧ t.clPendingWake = false ∧ t.clDispWindow = window s.cfg t.tcSec)

/-- R185, R187, R191: the poll in DISPLAYING, under FLAT and under WINDOW_END, and what the end of a display leaves. -/
def Obligations.DisplayingPoll : Prop :=
  ∀ s, Invariant s → s.powered = true → s.clDevState = .displaying →
    ∃ t, exec .tick s = .next t ∧ TimeTicked s t ∧
      (s.cfg.displayMode = .flat → 1 < s.clDispTimer →
        t = { s with tcSec := t.tcSec, tcFrac := t.tcFrac, clDispTimer := s.clDispTimer - 1 }) ∧
      (s.cfg.displayMode = .flat → s.clDispTimer = 1 → DisplayEnded s t) ∧
      (s.cfg.displayMode = .windowEnd → window s.cfg t.tcSec = s.clDispWindow →
        t = { s with tcSec := t.tcSec, tcFrac := t.tcFrac }) ∧
      (s.cfg.displayMode = .windowEnd → window s.cfg t.tcSec ≠ s.clDispWindow → DisplayEnded s t)

/-- R185, R193, R259: a FLAT display with n ticks left shows the same text at each of the next n - 1 ticks and is blank, with the device
home, at the n-th. -/
def Obligations.FlatDisplayLastsItsTicks : Prop :=
  ∀ s rest, Invariant s → s.powered = true → s.clDevState = .displaying → s.cfg.displayMode = .flat →
    s.events = List.replicate s.clDispTimer (encode .tick) ++ rest →
    (∀ k, k < s.clDispTimer → ∃ t, core.run k s = .next t ∧ t.clDevState = .displaying ∧
      t.clDisplayText = s.clDisplayText ∧ t.dispLog = s.dispLog) ∧
    (∃ t, core.run s.clDispTimer s = .next t ∧ AtHome s t ∧ t.clDisplayEn = false ∧ t.clDisplayText = [] ∧
      t.dispLog = s.dispLog ++ [.blank] ∧ t.clPendingWake = false)

/-- R189: while a frame stays in flight, no event acts on a pending wake or clears it, and no display starts. -/
def Obligations.FrameInFlightDefersTheWake : Prop :=
  ∀ s t, Invariant s → s.powered = true → s.pfState = .collecting → step s = .next t →
    t.powered = true → t.pfState = .collecting →
    (s.clPendingWake = true → t.clPendingWake = true) ∧ t.clDevState = .listening ∧ t.dispLog = s.dispLog ∧
      t.hashLog = s.hashLog

/-- R180: the transitions of the device state, and no others: which event makes each, and under what condition. -/
def Obligations.OnlyTheListedTransitions : Prop :=
  ∀ s t w rest, Invariant s → s.powered = true → Next s w rest → step s = .next t → t.powered = true →
    t.clDevState ≠ s.clDevState →
    (w = encode .pwrOn ∧ t.clDevState = .dormant) ∨
    (w = encode .tick ∧ s.clDevState = .dormant ∧ t.clDevState = .displaying ∧ s.clPendingWake = true ∧
      s.oePadsValid = true) ∨
    (w = encode .tick ∧ s.clDevState = .dormant ∧ t.clDevState = .listening ∧ s.clPendingWake = false ∧
      (s.cfg.listenMode = .continuous ∨ s.clListenTimer = 1)) ∨
    (w = encode .tick ∧ s.clDevState = .listening ∧ t.clDevState = .displaying ∧ s.clPendingWake = true ∧
      t.pfState = .idle ∧ s.oePadsValid = true) ∨
    (w = encode .tick ∧ s.clDevState = .listening ∧ t.clDevState = .dormant ∧ s.cfg.listenMode = .periodic ∧
      t.pfState = .idle ∧ s.clListenTimer ≤ 1 ∧ s.clPendingWake = false) ∨
    (w = encode .tick ∧ s.clDevState = .displaying ∧ AtHome s t ∧
      (s.cfg.displayMode = .flat → s.clDispTimer = 1) ∧
      (s.cfg.displayMode = .windowEnd → window s.cfg t.tcSec ≠ s.clDispWindow))

/-- R192, R228: the enables in each power state. -/
def Obligations.EnablesOfEachPowerState : Prop :=
  ∀ s, Invariant s →
    (s.powered = false → pgCore s = false ∧ pgRx s = false ∧ displayEn s = false) ∧
    (s.powered = true → s.clDevState = .dormant → pgCore s = false ∧ pgRx s = false ∧ displayEn s = false) ∧
    (s.powered = true → s.clDevState = .listening → pgCore s = true ∧ pgRx s = true ∧ displayEn s = false) ∧
    (s.powered = true → s.clDevState = .displaying → pgCore s = true ∧ pgRx s = false ∧ displayEn s = true)

/-- R84: every field of STATUS at its place, the reserved bits 0, and 0 while unpowered; DEV_STATE is the value of `cl_dev_state`, R32's encoding
with the value 3 that no rule writes. R85: CODE is `oe_code` in bits 19:0 and 0 above;
TIME is the pair `tc_sec`, `tc_frac`. -/
def Obligations.ObservationWordFields : Prop :=
  ∀ s, (s.powered = false → status s = 0) ∧
    (s.powered = true → s.pfIdx < 128 →
      (s.clDevState = .dormant → (status s).extractLsb' 0 2 = 0) ∧
      (s.clDevState = .listening → (status s).extractLsb' 0 2 = 1) ∧
      (s.clDevState = .displaying → (status s).extractLsb' 0 2 = 2) ∧
      (s.clDevState = .reserved → (status s).extractLsb' 0 2 = 3) ∧
      (status s).getLsbD 2 = decide (s.pfState = .collecting) ∧
      (status s).getLsbD 3 = s.clPendingWake ∧
      (status s).getLsbD 4 = s.clDisplayEn ∧
      (status s).getLsbD 5 = decide (s.clDevState ≠ .dormant) ∧
      (status s).getLsbD 6 = decide (s.clDevState = .listening) ∧
      (status s).getLsbD 7 = false ∧
      (status s).getLsbD 8 = s.oePadsValid ∧
      (status s).getLsbD 9 = s.oeCodeValid ∧
      (status s).getLsbD 10 = s.stKsError ∧
      (status s).getLsbD 11 = s.stRxDropped ∧
      ((status s).getLsbD 12 = true ↔ ∃ i, i < s.cfg.keyLen ∧ Memory.read s.ks i ≠ 0x00) ∧
      (status s).extractLsb' 13 3 = 0 ∧
      ((status s).extractLsb' 16 7).toNat = s.pfIdx ∧
      (status s).extractLsb' 23 9 = 0) ∧
    (codeWord s).extractLsb' 0 20 = s.oeCode ∧ (codeWord s).extractLsb' 20 12 = 0 ∧ timeWord s = (s.tcSec, s.tcFrac)

/-! ### Power, reset and boot -/

/-- R241: PWR_OFF of a powered device: the display goes dark, the supply is off; the Key Store, the time counter, the logs but for the Blank, the
marks and the inputs are kept (the time counter under UPTIME too, by inference: log entry 6). An unpowered device is unchanged. -/
def Obligations.PowerOffDarkensTheDevice : Prop :=
  ∀ s, (s.powered = false → exec .pwrOff s = .next s) ∧
    (s.powered = true → ∃ t, exec .pwrOff s = .next t ∧ t.powered = false ∧ t.clDisplayEn = false ∧ t.clDisplayText = [] ∧
      t.dispLog = s.dispLog ++ (if s.clDisplayEn then [.blank] else []) ∧
      t.cfg = s.cfg ∧ t.events = s.events ∧ t.ksDraws = s.ksDraws ∧ t.tcSec = s.tcSec ∧ t.tcFrac = s.tcFrac ∧
      t.ks = s.ks ∧ t.ksLog = s.ksLog ∧ t.txLog = s.txLog ∧ t.hashLog = s.hashLog ∧
      t.faulted = s.faulted ∧ t.refused = s.refused)

/-- R242, R42, R136: PWR_ON, from any state, gives every volatile element its reset value, treats the time counter by its strategy, and keeps
the logs (a powered display is blanked first), the marks, the configuration and the inputs. -/
def Obligations.PowerOnGivesTheResetValues : Prop :=
  ∀ s, s.cfg.wf = true →
    ∃ t, exec .pwrOn s = .next t ∧ t.powered = true ∧
      t.pfState = .idle ∧ t.pfIdx = 0 ∧ t.pfBuf = List.replicate s.cfg.keyLen 0x00 ∧ t.pfTimer = 0 ∧
      t.oeCode = 0 ∧ t.oeCodeValid = false ∧ t.clDevState = .dormant ∧ t.clPendingWake = false ∧
      t.clListenTimer = (if s.cfg.listenMode = .periodic then s.cfg.listenPeriodTicks else 0) ∧
      t.clDispTimer = 0 ∧ t.clDispWindow = 0 ∧ t.clDisplayEn = false ∧ t.clDisplayText = [] ∧ t.stRxDropped = false ∧
      t.stKsError = !t.oePadsValid ∧
      (s.cfg.timeStrategy = .rtc → t.tcSec = s.tcSec ∧ t.tcFrac = s.tcFrac) ∧
      (s.cfg.timeStrategy = .uptime → t.tcSec = 0 ∧ t.tcFrac = 0) ∧
      t.dispLog = s.dispLog ++ (if s.powered && s.clDisplayEn then [.blank] else []) ∧
      t.txLog = s.txLog ∧ t.hashLog = s.hashLog ∧ t.faulted = s.faulted ∧ t.refused = s.refused ∧
      t.cfg = s.cfg ∧ t.events = s.events

/-- R243: with reads that do not fail, the boot zero-initialises a store whose first byte is 0xFF by update-if-changed writes, leaves any other as it is,
and derives the pads from what the store then holds. -/
def Obligations.BootInitialisesAndDerivesThePads : Prop :=
  ∀ s ds, s.cfg.wf = true → ReadsSucceed s ds → Memory.wf s.ks = true →
    ∃ t, exec .pwrOn s = .next t ∧ t.oePadsValid = true ∧ t.stKsError = false ∧ t.ksDraws = ds ∧
      t.oeIpad = padOf s.cfg 0x36 (keyStoreBytes t) ∧ t.oeOpad = padOf s.cfg 0x5C (keyStoreBytes t) ∧
      (Memory.read s.ks 0 ≠ 0xFF → t.ks = s.ks ∧ t.ksLog = s.ksLog) ∧
      (Memory.read s.ks 0 = 0xFF → (∀ a, a < s.cfg.keyLen → Memory.read t.ks a = 0x00) ∧
        (∀ a, s.cfg.keyLen ≤ a → Memory.read t.ks a = Memory.read s.ks a) ∧
        t.ksLog = s.ksLog ++ differing s (List.replicate s.cfg.keyLen 0x00))

/-- R244: under DRAW, a boot whose j-th read (counting from 0, the check of `ks[0]` first) is the first to fail sets `st_ks_error`, clears
`oe_pads_valid` and leaves the device DORMANT; the zero-initialisation made before a later read stays made. -/
def Obligations.BootReadFailureDisablesTheEngine : Prop :=
  ∀ s j ds, s.cfg.wf = true → s.cfg.ksFaultModel = .draw → Memory.wf s.ks = true → j ≤ s.cfg.keyLen →
    s.ksDraws = List.replicate j false ++ true :: ds →
    ∃ t, exec .pwrOn s = .next t ∧ t.stKsError = true ∧ t.oePadsValid = false ∧ t.clDevState = .dormant ∧ t.ksDraws = ds ∧
      (j = 0 ∨ Memory.read s.ks 0 ≠ 0xFF → t.ks = s.ks ∧ t.ksLog = s.ksLog) ∧
      (0 < j → Memory.read s.ks 0 = 0xFF → (∀ a, a < s.cfg.keyLen → Memory.read t.ks a = 0x00) ∧
        (∀ a, s.cfg.keyLen ≤ a → Memory.read t.ks a = Memory.read s.ks a) ∧
        t.ksLog = s.ksLog ++ differing s (List.replicate s.cfg.keyLen 0x00))

/-- R43, R52, R133, R136, R230: across a power cycle of k ticks the Key Store survives unless its first byte is 0xFF, the logs but for the Blank survive, and
under RTC the time goes on by exactly the k ticks; under UPTIME it restarts at 0. -/
def Obligations.PowerCycleKeepsKeyAndTime : Prop :=
  ∀ s k rest, Invariant s → s.powered = true → s.cfg.ksFaultModel = .never → Memory.read s.ks 0 ≠ 0xFF →
    s.events = encode .pwrOff :: (List.replicate k (encode .tick) ++ encode .pwrOn :: rest) →
    ∃ t, core.run (k + 2) s = .next t ∧ t.events = rest ∧ t.powered = true ∧ t.ks = s.ks ∧ t.ksLog = s.ksLog ∧
      t.txLog = s.txLog ∧ t.hashLog = s.hashLog ∧
      t.oePadsValid = true ∧ t.oeIpad = padOf s.cfg 0x36 (keyStoreBytes s) ∧
      (s.cfg.timeStrategy = .uptime → t.tcSec = 0 ∧ t.tcFrac = 0) ∧
      (s.cfg.timeStrategy = .rtc → t.tcFrac < s.cfg.tps ∧
        (t.tcSec.toNat * s.cfg.tps + t.tcFrac) % (s.cfg.timeModulus * s.cfg.tps) =
          (s.tcSec.toNat * s.cfg.tps + s.tcFrac + k) % (s.cfg.timeModulus * s.cfg.tps))

/-! ### The whole machine -/

/-- R44: what a fresh device is: unpowered, its storage and its time as drawn, every log empty, no mark; its STATUS reads 0. It meets the invariant,
whatever its storage and its time hold, and so does the model's reset state (whose configuration, storage and time are the
model's choice, log entries 1 to 3). -/
def Obligations.FreshDeviceMeetsTheInvariant : Prop :=
  (∀ c ksInitial sec frac, c.wf = true → Memory.wf ksInitial = true → Memory.within c.keyLen ksInitial = true →
    sec.toNat < c.timeModulus → frac < c.tps →
    Invariant (State.fresh c ksInitial sec frac) ∧
    ∃ s, s = State.fresh c ksInitial sec frac ∧ s.powered = false ∧ s.cfg = c ∧ s.ks = ksInitial ∧ s.tcSec = sec ∧
      s.tcFrac = frac ∧ s.txLog = [] ∧ s.ksLog = [] ∧ s.hashLog = [] ∧ s.dispLog = [] ∧ Final s ∧ status s = 0) ∧
  Invariant State.reset

/-- R41: every step keeps the invariant. -/
def Obligations.EveryStepKeepsTheInvariant : Prop :=
  ∀ s t, Invariant s → step s = .next t → Invariant t

/-- R213, R41 item 7: from an invariant state no step raises a fault, and the only refusal is of a reserved word. -/
def Obligations.InvariantStatesNeverFault : Prop :=
  ∀ s t w rest, Invariant s → Next s w rest → step s = .next t →
    t.faulted = s.faulted ∧ (¬ Reserved w → t.refused = s.refused)

/-- R10: the configuration never changes. -/
def Obligations.ConfigurationNeverChanges : Prop :=
  ∀ s t, step s = .next t → t.cfg = s.cfg

/-- R38: no event clears any part of a log. -/
def Obligations.LogsOnlyGrow : Prop :=
  ∀ s t, step s = .next t →
    s.txLog <+: t.txLog ∧ s.ksLog <+: t.ksLog ∧ s.hashLog <+: t.hashLog ∧ s.dispLog <+: t.dispLog

/-- R45, R215: the marks are never cleared, and a state with either is never final. That a set mark keeps its reason is the model's choice
(log entry 7). -/
def Obligations.MarksAreNeverCleared : Prop :=
  ∀ s t, step s = .next t →
    (∀ f, s.faulted = some f → t.faulted = some f) ∧ (∀ r, s.refused = some r → t.refused = some r) ∧
    (¬ Final s → ¬ Final t)

/-- R118: GENERATE runs only in a TICK and with the device entering Displaying, and no event but a commit, PWR_ON or PWR_OFF touches the pads. -/
def Obligations.EngineRunsOnlyWhereInvoked : Prop :=
  ∀ s t w rest, s.powered = true → Next s w rest → step s = .next t →
    (t.hashLog ≠ s.hashLog → w = encode .tick ∧ s.clPendingWake = true ∧ t.clDevState = .displaying) ∧
    (t.oeIpad ≠ s.oeIpad ∨ t.oeOpad ≠ s.oeOpad →
      w = encode .pwrOn ∨ w = encode .pwrOff ∨
      (kindOf w = 0x01 ∧ s.clDevState = .listening ∧ s.pfState = .collecting ∧ ¬ s.pfIdx < s.cfg.keyLen - 1))

/-- R68, R117, R227: nothing the block transmits depends on the stored key: two devices that differ only in the Key Store and the pads transmit
the same bytes over any run of the same events. Both runs meet the same read failures: those of the list `ksDraws` (log entry 11) and, past
its end, equal free draws, because equal counters draw equal values (log entry 5): the model's choice. -/
def Obligations.TransmissionIsIndependentOfTheStoredKey : Prop :=
  ∀ k s ks ipad opad t u, core.run k s = .next t →
    core.run k { s with ks := ks, oeIpad := ipad, oeOpad := opad } = .next u → t.txLog = u.txLog

/-- R86, R87, R88: what each line of an event program stands for, and the counts refused. -/
def Obligations.ProgramLinesExpand : Prop :=
  ∀ (c : Config) (key text : List Byte) (d : Byte) (n m : Nat),
    expandLine c (.rx d) = .ok [eventWord 0x01 d] ∧
    expandLine c .btn = .ok [0x0200] ∧ expandLine c .tick = .ok [0x0300] ∧
    expandLine c .pwrOff = .ok [0x0400] ∧ expandLine c .pwrOn = .ok [0x0500] ∧
    (1 ≤ n → expandLine c (.ticks n) = .ok (List.replicate n 0x0300)) ∧
    (∃ ticks, expandLine c (.waitMs m) = .ok (List.replicate ticks 0x0300) ∧ m * c.tps ≤ ticks * 1000 ∧
      ∀ k, m * c.tps ≤ k * 1000 → ticks ≤ k) ∧
    (key.length = c.keyLen → expandLine c (.frame key) = .ok (0x01AA :: key.map fun b => eventWord 0x01 b)) ∧
    expandLine c (.send text) = .ok (text.map fun b => eventWord 0x01 b) ∧
    (key.length < c.keyLen → expandLine c (.partialFrame key) = .ok (0x01AA :: key.map fun b => eventWord 0x01 b)) ∧
    expandLine c (.ticks 0) = .error .ticksZero ∧
    (key.length ≠ c.keyLen → expandLine c (.frame key) = .error .frameLength) ∧
    (c.keyLen ≤ key.length → expandLine c (.partialFrame key) = .error .partialLength)

/-- R51: the Key Store has the indices 0 to N - 1; a read, a write and an update of any other index, whatever the byte, are refused: the mark is
set and no other state changes. That a refused read answers no byte, as a failed one does, is the model's choice (log entry 18), and so is
that the mark keeps an earlier reason (log entry 7). -/
def Obligations.KeyStoreIndexOutsideIsRefused : Prop :=
  ∀ s a v, s.cfg.keyLen ≤ a →
    memRead s a = (none, { s with refused := some (s.refused.getD (.ksIndex a)) }) ∧
    memWrite s a v = { s with refused := some (s.refused.getD (.ksIndex a)) } ∧
    ksUpdate s a v = { s with refused := some (s.refused.getD (.ksIndex a)) }
end

