-- ==== Sys2Proof/Laws/Memory.lean ====
section
/-! SUPPORT. The laws of the Key Store as data: a read after a write, the bytes a write leaves alone, and that a write keeps the
canonical form and the index range. -/
namespace Sys2Proof.Machine

@[simp] theorem read_nil (a : Nat) : Memory.read [] a = erasedByte := rfl

/-- Below every listed index, a byte reads as erased. -/
theorem read_below {m : List Host.Cell} {k a : Nat} (h : Memory.risingFrom k m = true) (ha : a < k) :
    Memory.read m a = erasedByte := by
  induction m generalizing k with
  | nil => rfl
  | cons c rest ih =>
    obtain ⟨b, v⟩ := c
    simp only [Memory.risingFrom, Bool.and_eq_true, decide_eq_true_eq] at h
    have hb : b ≠ a := by omega
    simpa [Memory.read, hb] using ih h.2 (by omega)

/-- Rising from a lower bound is weaker. -/
theorem risingFrom_mono {m : List Host.Cell} {k j : Nat} (h : Memory.risingFrom k m = true) (hj : j ≤ k) :
    Memory.risingFrom j m = true := by
  cases m with
  | nil => rfl
  | cons c rest =>
    simp only [Memory.risingFrom, Bool.and_eq_true, decide_eq_true_eq] at h ⊢
    exact ⟨by omega, h.2⟩

/-- A read after a write to another index is unchanged, whatever the list. -/
theorem read_write_other (m : List Host.Cell) {a b : Nat} (v : Byte) (h : b ≠ a) :
    Memory.read (Memory.write m a v) b = Memory.read m b := by
  induction m with
  | nil => by_cases hv : v = erasedByte <;> simp [Memory.write, Memory.read, hv, Ne.symm h]
  | cons c rest ih =>
    obtain ⟨x, w⟩ := c
    simp only [Memory.write]
    split
    · split <;> simp [Memory.read, Ne.symm h]
    · split
      · next hx => subst hx; split <;> simp [Memory.read, Ne.symm h]
      · simp [Memory.read, ih]

/-- A read after a write to the same index gives the byte written. -/
theorem read_write_same {m : List Host.Cell} {k : Nat} (hm : Memory.risingFrom k m = true) (a : Nat) (v : Byte) :
    Memory.read (Memory.write m a v) a = v := by
  induction m generalizing k with
  | nil => by_cases hv : v = erasedByte <;> simp [Memory.write, Memory.read, hv]
  | cons c rest ih =>
    obtain ⟨x, w⟩ := c
    simp only [Memory.risingFrom, Bool.and_eq_true, decide_eq_true_eq] at hm
    simp only [Memory.write]
    split
    · next hx =>
      split
      · next hv =>
        have : x ≠ a := by omega
        simp [Memory.read, this, read_below hm.2 (show a < x + 1 by omega), hv]
      · simp [Memory.read]
    · split
      · next hx =>
        split
        · next hv => rw [read_below hm.2 (by omega), hv]
        · simp [Memory.read]
      · next h1 h2 =>
        have : x ≠ a := fun h => h2 h.symm
        simp [Memory.read, this, ih hm.2]

/-- A write at or above a bound keeps the indices rising from it. -/
theorem risingFrom_write {m : List Host.Cell} {k a : Nat} (v : Byte) (hm : Memory.risingFrom k m = true) (ha : k ≤ a) :
    Memory.risingFrom k (Memory.write m a v) = true := by
  induction m generalizing k with
  | nil => by_cases hv : v = erasedByte <;> simp [Memory.write, Memory.risingFrom, hv, ha]
  | cons c rest ih =>
    obtain ⟨x, w⟩ := c
    simp only [Memory.risingFrom, Bool.and_eq_true, decide_eq_true_eq] at hm
    simp only [Memory.write]
    split
    · next hx =>
      split
      · simp [Memory.risingFrom, hm]
      · simp [Memory.risingFrom, ha, hm.2]; omega
    · split
      · next hx =>
        split
        · exact risingFrom_mono hm.2 (by omega)
        · subst hx; simp [Memory.risingFrom, hm]
      · next h1 h2 => simp [Memory.risingFrom, hm.1, ih hm.2 (by omega)]

/-- A write lists no new cell but the one written, and that one only with a byte that is not the erased value. -/
theorem mem_write {m : List Host.Cell} {a : Nat} {v : Byte} {c : Host.Cell} (h : c ∈ Memory.write m a v) :
    c ∈ m ∨ (c = (a, v) ∧ v ≠ erasedByte) := by
  induction m with
  | nil =>
    simp only [Memory.write] at h
    split at h
    · simp at h
    · next hv => simp at h; exact .inr ⟨h, hv⟩
  | cons d rest ih =>
    obtain ⟨x, w⟩ := d
    simp only [Memory.write] at h
    split at h
    · split at h
      · exact .inl h
      · next hv => rcases List.mem_cons.mp h with h | h
                   · exact .inr ⟨h, hv⟩
                   · exact .inl h
    · split at h
      · split at h
        · exact .inl (List.mem_cons_of_mem _ h)
        · next hv => rcases List.mem_cons.mp h with h | h
                     · exact .inr ⟨h, hv⟩
                     · exact .inl (List.mem_cons_of_mem _ h)
      · rcases List.mem_cons.mp h with h | h
        · exact .inl (h ▸ List.mem_cons_self)
        · exact (ih h).imp (List.mem_cons_of_mem _) id

/-- A write keeps the canonical form. -/
theorem wf_write {m : List Host.Cell} (a : Nat) (v : Byte) (h : Memory.wf m = true) :
    Memory.wf (Memory.write m a v) = true := by
  simp only [Memory.wf, Bool.and_eq_true, List.all_eq_true, bne_iff_ne] at h ⊢
  refine ⟨risingFrom_write v h.1 (Nat.zero_le a), fun c hc => ?_⟩
  rcases mem_write hc with hc | ⟨rfl, hv⟩
  · exact h.2 c hc
  · exact hv

/-- A write inside the Key Store keeps the cells inside it. -/
theorem within_write {m : List Host.Cell} {n a : Nat} (v : Byte) (h : Memory.within n m = true) (ha : a < n) :
    Memory.within n (Memory.write m a v) = true := by
  simp only [Memory.within, List.all_eq_true, decide_eq_true_eq] at h ⊢
  intro c hc
  rcases mem_write hc with hc | ⟨rfl, -⟩
  · exact h c hc
  · exact ha

theorem wf_rising {m : List Host.Cell} (h : Memory.wf m = true) : Memory.risingFrom 0 m = true := by
  simp only [Memory.wf, Bool.and_eq_true] at h
  exact h.1

/-- Outside the Key Store a byte reads as erased. -/
theorem read_outside {m : List Host.Cell} {n a : Nat} (h : Memory.within n m = true) (ha : n ≤ a) :
    Memory.read m a = erasedByte := by
  induction m with
  | nil => rfl
  | cons c rest ih =>
    obtain ⟨b, v⟩ := c
    simp only [Memory.within, List.all_cons, Bool.and_eq_true, decide_eq_true_eq] at h
    have hb : b ≠ a := by omega
    simpa [Memory.read, hb] using ih (by simpa [Memory.within] using h.2)

/-- Bytes that all read as a byte array's are that array. -/
theorem keyBytes_of_reads (m : List Host.Cell) (n : Nat) (k : List Byte) (hk : k.length = n)
   (h : ∀ i, i < n → Memory.read m i = byteAt k i) : (List.range n).map (Memory.read m) = k := by
  subst hk
  apply List.ext_getElem
  · simp
  · intro i h1 h2
    simp at h1
    simp [h i h1, byteAt, h1]

end Sys2Proof.Machine
end

