-- ==== Sys2Proof/Laws/State.lean ====
section
/-! SUPPORT. One lemma per field for each leaf update of State (Ops.lean, Engine.lean, Framer.lean): what the update makes of the
field. All hold by rfl. -/
namespace Sys2Proof.Machine

@[simp] theorem emit_cfg (s : State) (b : List Byte) : (emit s b).cfg = s.cfg := rfl
@[simp] theorem emit_events (s : State) (b : List Byte) : (emit s b).events = s.events := rfl
@[simp] theorem emit_ksDraws (s : State) (b : List Byte) : (emit s b).ksDraws = s.ksDraws := rfl
@[simp] theorem emit_draws (s : State) (b : List Byte) : (emit s b).draws = s.draws := rfl
@[simp] theorem emit_powered (s : State) (b : List Byte) : (emit s b).powered = s.powered := rfl
@[simp] theorem emit_tcSec (s : State) (b : List Byte) : (emit s b).tcSec = s.tcSec := rfl
@[simp] theorem emit_tcFrac (s : State) (b : List Byte) : (emit s b).tcFrac = s.tcFrac := rfl
@[simp] theorem emit_pfState (s : State) (b : List Byte) : (emit s b).pfState = s.pfState := rfl
@[simp] theorem emit_pfIdx (s : State) (b : List Byte) : (emit s b).pfIdx = s.pfIdx := rfl
@[simp] theorem emit_pfBuf (s : State) (b : List Byte) : (emit s b).pfBuf = s.pfBuf := rfl
@[simp] theorem emit_pfTimer (s : State) (b : List Byte) : (emit s b).pfTimer = s.pfTimer := rfl
@[simp] theorem emit_oeIpad (s : State) (b : List Byte) : (emit s b).oeIpad = s.oeIpad := rfl
@[simp] theorem emit_oeOpad (s : State) (b : List Byte) : (emit s b).oeOpad = s.oeOpad := rfl
@[simp] theorem emit_oePadsValid (s : State) (b : List Byte) : (emit s b).oePadsValid = s.oePadsValid := rfl
@[simp] theorem emit_oeCode (s : State) (b : List Byte) : (emit s b).oeCode = s.oeCode := rfl
@[simp] theorem emit_oeCodeValid (s : State) (b : List Byte) : (emit s b).oeCodeValid = s.oeCodeValid := rfl
@[simp] theorem emit_clDevState (s : State) (b : List Byte) : (emit s b).clDevState = s.clDevState := rfl
@[simp] theorem emit_clPendingWake (s : State) (b : List Byte) : (emit s b).clPendingWake = s.clPendingWake := rfl
@[simp] theorem emit_clListenTimer (s : State) (b : List Byte) : (emit s b).clListenTimer = s.clListenTimer := rfl
@[simp] theorem emit_clDispTimer (s : State) (b : List Byte) : (emit s b).clDispTimer = s.clDispTimer := rfl
@[simp] theorem emit_clDispWindow (s : State) (b : List Byte) : (emit s b).clDispWindow = s.clDispWindow := rfl
@[simp] theorem emit_clDisplayEn (s : State) (b : List Byte) : (emit s b).clDisplayEn = s.clDisplayEn := rfl
@[simp] theorem emit_clDisplayText (s : State) (b : List Byte) : (emit s b).clDisplayText = s.clDisplayText := rfl
@[simp] theorem emit_stKsError (s : State) (b : List Byte) : (emit s b).stKsError = s.stKsError := rfl
@[simp] theorem emit_stRxDropped (s : State) (b : List Byte) : (emit s b).stRxDropped = s.stRxDropped := rfl
@[simp] theorem emit_hashStream (s : State) (b : List Byte) : (emit s b).hashStream = s.hashStream := rfl
@[simp] theorem emit_txLog (s : State) (b : List Byte) : (emit s b).txLog = s.txLog ++ b := rfl
@[simp] theorem emit_ksLog (s : State) (b : List Byte) : (emit s b).ksLog = s.ksLog := rfl
@[simp] theorem emit_hashLog (s : State) (b : List Byte) : (emit s b).hashLog = s.hashLog := rfl
@[simp] theorem emit_dispLog (s : State) (b : List Byte) : (emit s b).dispLog = s.dispLog := rfl
@[simp] theorem emit_ks (s : State) (b : List Byte) : (emit s b).ks = s.ks := rfl
@[simp] theorem emit_faulted (s : State) (b : List Byte) : (emit s b).faulted = s.faulted := rfl
@[simp] theorem emit_refused (s : State) (b : List Byte) : (emit s b).refused = s.refused := rfl

@[simp] theorem showText_cfg (s : State) (b : List Byte) : (showText s b).cfg = s.cfg := rfl
@[simp] theorem showText_events (s : State) (b : List Byte) : (showText s b).events = s.events := rfl
@[simp] theorem showText_ksDraws (s : State) (b : List Byte) : (showText s b).ksDraws = s.ksDraws := rfl
@[simp] theorem showText_draws (s : State) (b : List Byte) : (showText s b).draws = s.draws := rfl
@[simp] theorem showText_powered (s : State) (b : List Byte) : (showText s b).powered = s.powered := rfl
@[simp] theorem showText_tcSec (s : State) (b : List Byte) : (showText s b).tcSec = s.tcSec := rfl
@[simp] theorem showText_tcFrac (s : State) (b : List Byte) : (showText s b).tcFrac = s.tcFrac := rfl
@[simp] theorem showText_pfState (s : State) (b : List Byte) : (showText s b).pfState = s.pfState := rfl
@[simp] theorem showText_pfIdx (s : State) (b : List Byte) : (showText s b).pfIdx = s.pfIdx := rfl
@[simp] theorem showText_pfBuf (s : State) (b : List Byte) : (showText s b).pfBuf = s.pfBuf := rfl
@[simp] theorem showText_pfTimer (s : State) (b : List Byte) : (showText s b).pfTimer = s.pfTimer := rfl
@[simp] theorem showText_oeIpad (s : State) (b : List Byte) : (showText s b).oeIpad = s.oeIpad := rfl
@[simp] theorem showText_oeOpad (s : State) (b : List Byte) : (showText s b).oeOpad = s.oeOpad := rfl
@[simp] theorem showText_oePadsValid (s : State) (b : List Byte) : (showText s b).oePadsValid = s.oePadsValid := rfl
@[simp] theorem showText_oeCode (s : State) (b : List Byte) : (showText s b).oeCode = s.oeCode := rfl
@[simp] theorem showText_oeCodeValid (s : State) (b : List Byte) : (showText s b).oeCodeValid = s.oeCodeValid := rfl
@[simp] theorem showText_clDevState (s : State) (b : List Byte) : (showText s b).clDevState = s.clDevState := rfl
@[simp] theorem showText_clPendingWake (s : State) (b : List Byte) : (showText s b).clPendingWake = s.clPendingWake := rfl
@[simp] theorem showText_clListenTimer (s : State) (b : List Byte) : (showText s b).clListenTimer = s.clListenTimer := rfl
@[simp] theorem showText_clDispTimer (s : State) (b : List Byte) : (showText s b).clDispTimer = s.clDispTimer := rfl
@[simp] theorem showText_clDispWindow (s : State) (b : List Byte) : (showText s b).clDispWindow = s.clDispWindow := rfl
@[simp] theorem showText_clDisplayEn (s : State) (b : List Byte) : (showText s b).clDisplayEn = s.clDisplayEn := rfl
@[simp] theorem showText_clDisplayText (s : State) (b : List Byte) : (showText s b).clDisplayText = s.clDisplayText := rfl
@[simp] theorem showText_stKsError (s : State) (b : List Byte) : (showText s b).stKsError = s.stKsError := rfl
@[simp] theorem showText_stRxDropped (s : State) (b : List Byte) : (showText s b).stRxDropped = s.stRxDropped := rfl
@[simp] theorem showText_hashStream (s : State) (b : List Byte) : (showText s b).hashStream = s.hashStream := rfl
@[simp] theorem showText_txLog (s : State) (b : List Byte) : (showText s b).txLog = s.txLog := rfl
@[simp] theorem showText_ksLog (s : State) (b : List Byte) : (showText s b).ksLog = s.ksLog := rfl
@[simp] theorem showText_hashLog (s : State) (b : List Byte) : (showText s b).hashLog = s.hashLog := rfl
@[simp] theorem showText_dispLog (s : State) (b : List Byte) : (showText s b).dispLog = s.dispLog ++ [.showText b] := rfl
@[simp] theorem showText_ks (s : State) (b : List Byte) : (showText s b).ks = s.ks := rfl
@[simp] theorem showText_faulted (s : State) (b : List Byte) : (showText s b).faulted = s.faulted := rfl
@[simp] theorem showText_refused (s : State) (b : List Byte) : (showText s b).refused = s.refused := rfl

@[simp] theorem blank_cfg (s : State) : (blank s).cfg = s.cfg := rfl
@[simp] theorem blank_events (s : State) : (blank s).events = s.events := rfl
@[simp] theorem blank_ksDraws (s : State) : (blank s).ksDraws = s.ksDraws := rfl
@[simp] theorem blank_draws (s : State) : (blank s).draws = s.draws := rfl
@[simp] theorem blank_powered (s : State) : (blank s).powered = s.powered := rfl
@[simp] theorem blank_tcSec (s : State) : (blank s).tcSec = s.tcSec := rfl
@[simp] theorem blank_tcFrac (s : State) : (blank s).tcFrac = s.tcFrac := rfl
@[simp] theorem blank_pfState (s : State) : (blank s).pfState = s.pfState := rfl
@[simp] theorem blank_pfIdx (s : State) : (blank s).pfIdx = s.pfIdx := rfl
@[simp] theorem blank_pfBuf (s : State) : (blank s).pfBuf = s.pfBuf := rfl
@[simp] theorem blank_pfTimer (s : State) : (blank s).pfTimer = s.pfTimer := rfl
@[simp] theorem blank_oeIpad (s : State) : (blank s).oeIpad = s.oeIpad := rfl
@[simp] theorem blank_oeOpad (s : State) : (blank s).oeOpad = s.oeOpad := rfl
@[simp] theorem blank_oePadsValid (s : State) : (blank s).oePadsValid = s.oePadsValid := rfl
@[simp] theorem blank_oeCode (s : State) : (blank s).oeCode = s.oeCode := rfl
@[simp] theorem blank_oeCodeValid (s : State) : (blank s).oeCodeValid = s.oeCodeValid := rfl
@[simp] theorem blank_clDevState (s : State) : (blank s).clDevState = s.clDevState := rfl
@[simp] theorem blank_clPendingWake (s : State) : (blank s).clPendingWake = s.clPendingWake := rfl
@[simp] theorem blank_clListenTimer (s : State) : (blank s).clListenTimer = s.clListenTimer := rfl
@[simp] theorem blank_clDispTimer (s : State) : (blank s).clDispTimer = s.clDispTimer := rfl
@[simp] theorem blank_clDispWindow (s : State) : (blank s).clDispWindow = s.clDispWindow := rfl
@[simp] theorem blank_clDisplayEn (s : State) : (blank s).clDisplayEn = s.clDisplayEn := rfl
@[simp] theorem blank_clDisplayText (s : State) : (blank s).clDisplayText = s.clDisplayText := rfl
@[simp] theorem blank_stKsError (s : State) : (blank s).stKsError = s.stKsError := rfl
@[simp] theorem blank_stRxDropped (s : State) : (blank s).stRxDropped = s.stRxDropped := rfl
@[simp] theorem blank_hashStream (s : State) : (blank s).hashStream = s.hashStream := rfl
@[simp] theorem blank_txLog (s : State) : (blank s).txLog = s.txLog := rfl
@[simp] theorem blank_ksLog (s : State) : (blank s).ksLog = s.ksLog := rfl
@[simp] theorem blank_hashLog (s : State) : (blank s).hashLog = s.hashLog := rfl
@[simp] theorem blank_dispLog (s : State) : (blank s).dispLog = s.dispLog ++ [.blank] := rfl
@[simp] theorem blank_ks (s : State) : (blank s).ks = s.ks := rfl
@[simp] theorem blank_faulted (s : State) : (blank s).faulted = s.faulted := rfl
@[simp] theorem blank_refused (s : State) : (blank s).refused = s.refused := rfl

@[simp] theorem raiseFault_cfg (s : State) (f : Fault) : (raiseFault s f).cfg = s.cfg := rfl
@[simp] theorem raiseFault_events (s : State) (f : Fault) : (raiseFault s f).events = s.events := rfl
@[simp] theorem raiseFault_ksDraws (s : State) (f : Fault) : (raiseFault s f).ksDraws = s.ksDraws := rfl
@[simp] theorem raiseFault_draws (s : State) (f : Fault) : (raiseFault s f).draws = s.draws := rfl
@[simp] theorem raiseFault_powered (s : State) (f : Fault) : (raiseFault s f).powered = s.powered := rfl
@[simp] theorem raiseFault_tcSec (s : State) (f : Fault) : (raiseFault s f).tcSec = s.tcSec := rfl
@[simp] theorem raiseFault_tcFrac (s : State) (f : Fault) : (raiseFault s f).tcFrac = s.tcFrac := rfl
@[simp] theorem raiseFault_pfState (s : State) (f : Fault) : (raiseFault s f).pfState = s.pfState := rfl
@[simp] theorem raiseFault_pfIdx (s : State) (f : Fault) : (raiseFault s f).pfIdx = s.pfIdx := rfl
@[simp] theorem raiseFault_pfBuf (s : State) (f : Fault) : (raiseFault s f).pfBuf = s.pfBuf := rfl
@[simp] theorem raiseFault_pfTimer (s : State) (f : Fault) : (raiseFault s f).pfTimer = s.pfTimer := rfl
@[simp] theorem raiseFault_oeIpad (s : State) (f : Fault) : (raiseFault s f).oeIpad = s.oeIpad := rfl
@[simp] theorem raiseFault_oeOpad (s : State) (f : Fault) : (raiseFault s f).oeOpad = s.oeOpad := rfl
@[simp] theorem raiseFault_oePadsValid (s : State) (f : Fault) : (raiseFault s f).oePadsValid = s.oePadsValid := rfl
@[simp] theorem raiseFault_oeCode (s : State) (f : Fault) : (raiseFault s f).oeCode = s.oeCode := rfl
@[simp] theorem raiseFault_oeCodeValid (s : State) (f : Fault) : (raiseFault s f).oeCodeValid = s.oeCodeValid := rfl
@[simp] theorem raiseFault_clDevState (s : State) (f : Fault) : (raiseFault s f).clDevState = s.clDevState := rfl
@[simp] theorem raiseFault_clPendingWake (s : State) (f : Fault) : (raiseFault s f).clPendingWake = s.clPendingWake := rfl
@[simp] theorem raiseFault_clListenTimer (s : State) (f : Fault) : (raiseFault s f).clListenTimer = s.clListenTimer := rfl
@[simp] theorem raiseFault_clDispTimer (s : State) (f : Fault) : (raiseFault s f).clDispTimer = s.clDispTimer := rfl
@[simp] theorem raiseFault_clDispWindow (s : State) (f : Fault) : (raiseFault s f).clDispWindow = s.clDispWindow := rfl
@[simp] theorem raiseFault_clDisplayEn (s : State) (f : Fault) : (raiseFault s f).clDisplayEn = s.clDisplayEn := rfl
@[simp] theorem raiseFault_clDisplayText (s : State) (f : Fault) : (raiseFault s f).clDisplayText = s.clDisplayText := rfl
@[simp] theorem raiseFault_stKsError (s : State) (f : Fault) : (raiseFault s f).stKsError = s.stKsError := rfl
@[simp] theorem raiseFault_stRxDropped (s : State) (f : Fault) : (raiseFault s f).stRxDropped = s.stRxDropped := rfl
@[simp] theorem raiseFault_hashStream (s : State) (f : Fault) : (raiseFault s f).hashStream = s.hashStream := rfl
@[simp] theorem raiseFault_txLog (s : State) (f : Fault) : (raiseFault s f).txLog = s.txLog := rfl
@[simp] theorem raiseFault_ksLog (s : State) (f : Fault) : (raiseFault s f).ksLog = s.ksLog := rfl
@[simp] theorem raiseFault_hashLog (s : State) (f : Fault) : (raiseFault s f).hashLog = s.hashLog := rfl
@[simp] theorem raiseFault_dispLog (s : State) (f : Fault) : (raiseFault s f).dispLog = s.dispLog := rfl
@[simp] theorem raiseFault_ks (s : State) (f : Fault) : (raiseFault s f).ks = s.ks := rfl
@[simp] theorem raiseFault_faulted (s : State) (f : Fault) : (raiseFault s f).faulted = some (s.faulted.getD f) := rfl
@[simp] theorem raiseFault_refused (s : State) (f : Fault) : (raiseFault s f).refused = s.refused := rfl

@[simp] theorem refuse_cfg (s : State) (r : Refusal) : (refuse s r).cfg = s.cfg := rfl
@[simp] theorem refuse_events (s : State) (r : Refusal) : (refuse s r).events = s.events := rfl
@[simp] theorem refuse_ksDraws (s : State) (r : Refusal) : (refuse s r).ksDraws = s.ksDraws := rfl
@[simp] theorem refuse_draws (s : State) (r : Refusal) : (refuse s r).draws = s.draws := rfl
@[simp] theorem refuse_powered (s : State) (r : Refusal) : (refuse s r).powered = s.powered := rfl
@[simp] theorem refuse_tcSec (s : State) (r : Refusal) : (refuse s r).tcSec = s.tcSec := rfl
@[simp] theorem refuse_tcFrac (s : State) (r : Refusal) : (refuse s r).tcFrac = s.tcFrac := rfl
@[simp] theorem refuse_pfState (s : State) (r : Refusal) : (refuse s r).pfState = s.pfState := rfl
@[simp] theorem refuse_pfIdx (s : State) (r : Refusal) : (refuse s r).pfIdx = s.pfIdx := rfl
@[simp] theorem refuse_pfBuf (s : State) (r : Refusal) : (refuse s r).pfBuf = s.pfBuf := rfl
@[simp] theorem refuse_pfTimer (s : State) (r : Refusal) : (refuse s r).pfTimer = s.pfTimer := rfl
@[simp] theorem refuse_oeIpad (s : State) (r : Refusal) : (refuse s r).oeIpad = s.oeIpad := rfl
@[simp] theorem refuse_oeOpad (s : State) (r : Refusal) : (refuse s r).oeOpad = s.oeOpad := rfl
@[simp] theorem refuse_oePadsValid (s : State) (r : Refusal) : (refuse s r).oePadsValid = s.oePadsValid := rfl
@[simp] theorem refuse_oeCode (s : State) (r : Refusal) : (refuse s r).oeCode = s.oeCode := rfl
@[simp] theorem refuse_oeCodeValid (s : State) (r : Refusal) : (refuse s r).oeCodeValid = s.oeCodeValid := rfl
@[simp] theorem refuse_clDevState (s : State) (r : Refusal) : (refuse s r).clDevState = s.clDevState := rfl
@[simp] theorem refuse_clPendingWake (s : State) (r : Refusal) : (refuse s r).clPendingWake = s.clPendingWake := rfl
@[simp] theorem refuse_clListenTimer (s : State) (r : Refusal) : (refuse s r).clListenTimer = s.clListenTimer := rfl
@[simp] theorem refuse_clDispTimer (s : State) (r : Refusal) : (refuse s r).clDispTimer = s.clDispTimer := rfl
@[simp] theorem refuse_clDispWindow (s : State) (r : Refusal) : (refuse s r).clDispWindow = s.clDispWindow := rfl
@[simp] theorem refuse_clDisplayEn (s : State) (r : Refusal) : (refuse s r).clDisplayEn = s.clDisplayEn := rfl
@[simp] theorem refuse_clDisplayText (s : State) (r : Refusal) : (refuse s r).clDisplayText = s.clDisplayText := rfl
@[simp] theorem refuse_stKsError (s : State) (r : Refusal) : (refuse s r).stKsError = s.stKsError := rfl
@[simp] theorem refuse_stRxDropped (s : State) (r : Refusal) : (refuse s r).stRxDropped = s.stRxDropped := rfl
@[simp] theorem refuse_hashStream (s : State) (r : Refusal) : (refuse s r).hashStream = s.hashStream := rfl
@[simp] theorem refuse_txLog (s : State) (r : Refusal) : (refuse s r).txLog = s.txLog := rfl
@[simp] theorem refuse_ksLog (s : State) (r : Refusal) : (refuse s r).ksLog = s.ksLog := rfl
@[simp] theorem refuse_hashLog (s : State) (r : Refusal) : (refuse s r).hashLog = s.hashLog := rfl
@[simp] theorem refuse_dispLog (s : State) (r : Refusal) : (refuse s r).dispLog = s.dispLog := rfl
@[simp] theorem refuse_ks (s : State) (r : Refusal) : (refuse s r).ks = s.ks := rfl
@[simp] theorem refuse_faulted (s : State) (r : Refusal) : (refuse s r).faulted = s.faulted := rfl
@[simp] theorem refuse_refused (s : State) (r : Refusal) : (refuse s r).refused = some (s.refused.getD r) := rfl

@[simp] theorem hashReset_cfg (s : State) : (hashReset s).cfg = s.cfg := rfl
@[simp] theorem hashReset_events (s : State) : (hashReset s).events = s.events := rfl
@[simp] theorem hashReset_ksDraws (s : State) : (hashReset s).ksDraws = s.ksDraws := rfl
@[simp] theorem hashReset_draws (s : State) : (hashReset s).draws = s.draws := rfl
@[simp] theorem hashReset_powered (s : State) : (hashReset s).powered = s.powered := rfl
@[simp] theorem hashReset_tcSec (s : State) : (hashReset s).tcSec = s.tcSec := rfl
@[simp] theorem hashReset_tcFrac (s : State) : (hashReset s).tcFrac = s.tcFrac := rfl
@[simp] theorem hashReset_pfState (s : State) : (hashReset s).pfState = s.pfState := rfl
@[simp] theorem hashReset_pfIdx (s : State) : (hashReset s).pfIdx = s.pfIdx := rfl
@[simp] theorem hashReset_pfBuf (s : State) : (hashReset s).pfBuf = s.pfBuf := rfl
@[simp] theorem hashReset_pfTimer (s : State) : (hashReset s).pfTimer = s.pfTimer := rfl
@[simp] theorem hashReset_oeIpad (s : State) : (hashReset s).oeIpad = s.oeIpad := rfl
@[simp] theorem hashReset_oeOpad (s : State) : (hashReset s).oeOpad = s.oeOpad := rfl
@[simp] theorem hashReset_oePadsValid (s : State) : (hashReset s).oePadsValid = s.oePadsValid := rfl
@[simp] theorem hashReset_oeCode (s : State) : (hashReset s).oeCode = s.oeCode := rfl
@[simp] theorem hashReset_oeCodeValid (s : State) : (hashReset s).oeCodeValid = s.oeCodeValid := rfl
@[simp] theorem hashReset_clDevState (s : State) : (hashReset s).clDevState = s.clDevState := rfl
@[simp] theorem hashReset_clPendingWake (s : State) : (hashReset s).clPendingWake = s.clPendingWake := rfl
@[simp] theorem hashReset_clListenTimer (s : State) : (hashReset s).clListenTimer = s.clListenTimer := rfl
@[simp] theorem hashReset_clDispTimer (s : State) : (hashReset s).clDispTimer = s.clDispTimer := rfl
@[simp] theorem hashReset_clDispWindow (s : State) : (hashReset s).clDispWindow = s.clDispWindow := rfl
@[simp] theorem hashReset_clDisplayEn (s : State) : (hashReset s).clDisplayEn = s.clDisplayEn := rfl
@[simp] theorem hashReset_clDisplayText (s : State) : (hashReset s).clDisplayText = s.clDisplayText := rfl
@[simp] theorem hashReset_stKsError (s : State) : (hashReset s).stKsError = s.stKsError := rfl
@[simp] theorem hashReset_stRxDropped (s : State) : (hashReset s).stRxDropped = s.stRxDropped := rfl
@[simp] theorem hashReset_hashStream (s : State) : (hashReset s).hashStream = [] := rfl
@[simp] theorem hashReset_txLog (s : State) : (hashReset s).txLog = s.txLog := rfl
@[simp] theorem hashReset_ksLog (s : State) : (hashReset s).ksLog = s.ksLog := rfl
@[simp] theorem hashReset_hashLog (s : State) : (hashReset s).hashLog = s.hashLog ++ [.reset] := rfl
@[simp] theorem hashReset_dispLog (s : State) : (hashReset s).dispLog = s.dispLog := rfl
@[simp] theorem hashReset_ks (s : State) : (hashReset s).ks = s.ks := rfl
@[simp] theorem hashReset_faulted (s : State) : (hashReset s).faulted = s.faulted := rfl
@[simp] theorem hashReset_refused (s : State) : (hashReset s).refused = s.refused := rfl

@[simp] theorem hashUpdate_cfg (s : State) (b : List Byte) : (hashUpdate s b).cfg = s.cfg := rfl
@[simp] theorem hashUpdate_events (s : State) (b : List Byte) : (hashUpdate s b).events = s.events := rfl
@[simp] theorem hashUpdate_ksDraws (s : State) (b : List Byte) : (hashUpdate s b).ksDraws = s.ksDraws := rfl
@[simp] theorem hashUpdate_draws (s : State) (b : List Byte) : (hashUpdate s b).draws = s.draws := rfl
@[simp] theorem hashUpdate_powered (s : State) (b : List Byte) : (hashUpdate s b).powered = s.powered := rfl
@[simp] theorem hashUpdate_tcSec (s : State) (b : List Byte) : (hashUpdate s b).tcSec = s.tcSec := rfl
@[simp] theorem hashUpdate_tcFrac (s : State) (b : List Byte) : (hashUpdate s b).tcFrac = s.tcFrac := rfl
@[simp] theorem hashUpdate_pfState (s : State) (b : List Byte) : (hashUpdate s b).pfState = s.pfState := rfl
@[simp] theorem hashUpdate_pfIdx (s : State) (b : List Byte) : (hashUpdate s b).pfIdx = s.pfIdx := rfl
@[simp] theorem hashUpdate_pfBuf (s : State) (b : List Byte) : (hashUpdate s b).pfBuf = s.pfBuf := rfl
@[simp] theorem hashUpdate_pfTimer (s : State) (b : List Byte) : (hashUpdate s b).pfTimer = s.pfTimer := rfl
@[simp] theorem hashUpdate_oeIpad (s : State) (b : List Byte) : (hashUpdate s b).oeIpad = s.oeIpad := rfl
@[simp] theorem hashUpdate_oeOpad (s : State) (b : List Byte) : (hashUpdate s b).oeOpad = s.oeOpad := rfl
@[simp] theorem hashUpdate_oePadsValid (s : State) (b : List Byte) : (hashUpdate s b).oePadsValid = s.oePadsValid := rfl
@[simp] theorem hashUpdate_oeCode (s : State) (b : List Byte) : (hashUpdate s b).oeCode = s.oeCode := rfl
@[simp] theorem hashUpdate_oeCodeValid (s : State) (b : List Byte) : (hashUpdate s b).oeCodeValid = s.oeCodeValid := rfl
@[simp] theorem hashUpdate_clDevState (s : State) (b : List Byte) : (hashUpdate s b).clDevState = s.clDevState := rfl
@[simp] theorem hashUpdate_clPendingWake (s : State) (b : List Byte) : (hashUpdate s b).clPendingWake = s.clPendingWake := rfl
@[simp] theorem hashUpdate_clListenTimer (s : State) (b : List Byte) : (hashUpdate s b).clListenTimer = s.clListenTimer := rfl
@[simp] theorem hashUpdate_clDispTimer (s : State) (b : List Byte) : (hashUpdate s b).clDispTimer = s.clDispTimer := rfl
@[simp] theorem hashUpdate_clDispWindow (s : State) (b : List Byte) : (hashUpdate s b).clDispWindow = s.clDispWindow := rfl
@[simp] theorem hashUpdate_clDisplayEn (s : State) (b : List Byte) : (hashUpdate s b).clDisplayEn = s.clDisplayEn := rfl
@[simp] theorem hashUpdate_clDisplayText (s : State) (b : List Byte) : (hashUpdate s b).clDisplayText = s.clDisplayText := rfl
@[simp] theorem hashUpdate_stKsError (s : State) (b : List Byte) : (hashUpdate s b).stKsError = s.stKsError := rfl
@[simp] theorem hashUpdate_stRxDropped (s : State) (b : List Byte) : (hashUpdate s b).stRxDropped = s.stRxDropped := rfl
@[simp] theorem hashUpdate_hashStream (s : State) (b : List Byte) : (hashUpdate s b).hashStream = s.hashStream ++ b := rfl
@[simp] theorem hashUpdate_txLog (s : State) (b : List Byte) : (hashUpdate s b).txLog = s.txLog := rfl
@[simp] theorem hashUpdate_ksLog (s : State) (b : List Byte) : (hashUpdate s b).ksLog = s.ksLog := rfl
@[simp] theorem hashUpdate_hashLog (s : State) (b : List Byte) : (hashUpdate s b).hashLog = s.hashLog ++ [.update b] := rfl
@[simp] theorem hashUpdate_dispLog (s : State) (b : List Byte) : (hashUpdate s b).dispLog = s.dispLog := rfl
@[simp] theorem hashUpdate_ks (s : State) (b : List Byte) : (hashUpdate s b).ks = s.ks := rfl
@[simp] theorem hashUpdate_faulted (s : State) (b : List Byte) : (hashUpdate s b).faulted = s.faulted := rfl
@[simp] theorem hashUpdate_refused (s : State) (b : List Byte) : (hashUpdate s b).refused = s.refused := rfl

@[simp] theorem computePads_cfg (s : State) (k : List Byte) : (computePads s k).cfg = s.cfg := rfl
@[simp] theorem computePads_events (s : State) (k : List Byte) : (computePads s k).events = s.events := rfl
@[simp] theorem computePads_ksDraws (s : State) (k : List Byte) : (computePads s k).ksDraws = s.ksDraws := rfl
@[simp] theorem computePads_draws (s : State) (k : List Byte) : (computePads s k).draws = s.draws := rfl
@[simp] theorem computePads_powered (s : State) (k : List Byte) : (computePads s k).powered = s.powered := rfl
@[simp] theorem computePads_tcSec (s : State) (k : List Byte) : (computePads s k).tcSec = s.tcSec := rfl
@[simp] theorem computePads_tcFrac (s : State) (k : List Byte) : (computePads s k).tcFrac = s.tcFrac := rfl
@[simp] theorem computePads_pfState (s : State) (k : List Byte) : (computePads s k).pfState = s.pfState := rfl
@[simp] theorem computePads_pfIdx (s : State) (k : List Byte) : (computePads s k).pfIdx = s.pfIdx := rfl
@[simp] theorem computePads_pfBuf (s : State) (k : List Byte) : (computePads s k).pfBuf = s.pfBuf := rfl
@[simp] theorem computePads_pfTimer (s : State) (k : List Byte) : (computePads s k).pfTimer = s.pfTimer := rfl
@[simp] theorem computePads_oeIpad (s : State) (k : List Byte) : (computePads s k).oeIpad = padOf s.cfg 0x36 k := rfl
@[simp] theorem computePads_oeOpad (s : State) (k : List Byte) : (computePads s k).oeOpad = padOf s.cfg 0x5C k := rfl
@[simp] theorem computePads_oePadsValid (s : State) (k : List Byte) : (computePads s k).oePadsValid = true := rfl
@[simp] theorem computePads_oeCode (s : State) (k : List Byte) : (computePads s k).oeCode = s.oeCode := rfl
@[simp] theorem computePads_oeCodeValid (s : State) (k : List Byte) : (computePads s k).oeCodeValid = s.oeCodeValid := rfl
@[simp] theorem computePads_clDevState (s : State) (k : List Byte) : (computePads s k).clDevState = s.clDevState := rfl
@[simp] theorem computePads_clPendingWake (s : State) (k : List Byte) : (computePads s k).clPendingWake = s.clPendingWake := rfl
@[simp] theorem computePads_clListenTimer (s : State) (k : List Byte) : (computePads s k).clListenTimer = s.clListenTimer := rfl
@[simp] theorem computePads_clDispTimer (s : State) (k : List Byte) : (computePads s k).clDispTimer = s.clDispTimer := rfl
@[simp] theorem computePads_clDispWindow (s : State) (k : List Byte) : (computePads s k).clDispWindow = s.clDispWindow := rfl
@[simp] theorem computePads_clDisplayEn (s : State) (k : List Byte) : (computePads s k).clDisplayEn = s.clDisplayEn := rfl
@[simp] theorem computePads_clDisplayText (s : State) (k : List Byte) : (computePads s k).clDisplayText = s.clDisplayText := rfl
@[simp] theorem computePads_stKsError (s : State) (k : List Byte) : (computePads s k).stKsError = s.stKsError := rfl
@[simp] theorem computePads_stRxDropped (s : State) (k : List Byte) : (computePads s k).stRxDropped = s.stRxDropped := rfl
@[simp] theorem computePads_hashStream (s : State) (k : List Byte) : (computePads s k).hashStream = s.hashStream := rfl
@[simp] theorem computePads_txLog (s : State) (k : List Byte) : (computePads s k).txLog = s.txLog := rfl
@[simp] theorem computePads_ksLog (s : State) (k : List Byte) : (computePads s k).ksLog = s.ksLog := rfl
@[simp] theorem computePads_hashLog (s : State) (k : List Byte) : (computePads s k).hashLog = s.hashLog := rfl
@[simp] theorem computePads_dispLog (s : State) (k : List Byte) : (computePads s k).dispLog = s.dispLog := rfl
@[simp] theorem computePads_ks (s : State) (k : List Byte) : (computePads s k).ks = s.ks := rfl
@[simp] theorem computePads_faulted (s : State) (k : List Byte) : (computePads s k).faulted = s.faulted := rfl
@[simp] theorem computePads_refused (s : State) (k : List Byte) : (computePads s k).refused = s.refused := rfl

@[simp] theorem putKeyByte_cfg (s : State) (i : Nat) (d : Byte) : (putKeyByte s i d).cfg = s.cfg := rfl
@[simp] theorem putKeyByte_events (s : State) (i : Nat) (d : Byte) : (putKeyByte s i d).events = s.events := rfl
@[simp] theorem putKeyByte_ksDraws (s : State) (i : Nat) (d : Byte) : (putKeyByte s i d).ksDraws = s.ksDraws := rfl
@[simp] theorem putKeyByte_draws (s : State) (i : Nat) (d : Byte) : (putKeyByte s i d).draws = s.draws := rfl
@[simp] theorem putKeyByte_powered (s : State) (i : Nat) (d : Byte) : (putKeyByte s i d).powered = s.powered := rfl
@[simp] theorem putKeyByte_tcSec (s : State) (i : Nat) (d : Byte) : (putKeyByte s i d).tcSec = s.tcSec := rfl
@[simp] theorem putKeyByte_tcFrac (s : State) (i : Nat) (d : Byte) : (putKeyByte s i d).tcFrac = s.tcFrac := rfl
@[simp] theorem putKeyByte_pfState (s : State) (i : Nat) (d : Byte) : (putKeyByte s i d).pfState = s.pfState := rfl
@[simp] theorem putKeyByte_pfIdx (s : State) (i : Nat) (d : Byte) : (putKeyByte s i d).pfIdx = s.pfIdx := rfl
@[simp] theorem putKeyByte_pfBuf (s : State) (i : Nat) (d : Byte) : (putKeyByte s i d).pfBuf = s.pfBuf.set i d := rfl
@[simp] theorem putKeyByte_pfTimer (s : State) (i : Nat) (d : Byte) : (putKeyByte s i d).pfTimer = s.pfTimer := rfl
@[simp] theorem putKeyByte_oeIpad (s : State) (i : Nat) (d : Byte) : (putKeyByte s i d).oeIpad = s.oeIpad := rfl
@[simp] theorem putKeyByte_oeOpad (s : State) (i : Nat) (d : Byte) : (putKeyByte s i d).oeOpad = s.oeOpad := rfl
@[simp] theorem putKeyByte_oePadsValid (s : State) (i : Nat) (d : Byte) : (putKeyByte s i d).oePadsValid = s.oePadsValid := rfl
@[simp] theorem putKeyByte_oeCode (s : State) (i : Nat) (d : Byte) : (putKeyByte s i d).oeCode = s.oeCode := rfl
@[simp] theorem putKeyByte_oeCodeValid (s : State) (i : Nat) (d : Byte) : (putKeyByte s i d).oeCodeValid = s.oeCodeValid := rfl
@[simp] theorem putKeyByte_clDevState (s : State) (i : Nat) (d : Byte) : (putKeyByte s i d).clDevState = s.clDevState := rfl
@[simp] theorem putKeyByte_clPendingWake (s : State) (i : Nat) (d : Byte) : (putKeyByte s i d).clPendingWake = s.clPendingWake := rfl
@[simp] theorem putKeyByte_clListenTimer (s : State) (i : Nat) (d : Byte) : (putKeyByte s i d).clListenTimer = s.clListenTimer := rfl
@[simp] theorem putKeyByte_clDispTimer (s : State) (i : Nat) (d : Byte) : (putKeyByte s i d).clDispTimer = s.clDispTimer := rfl
@[simp] theorem putKeyByte_clDispWindow (s : State) (i : Nat) (d : Byte) : (putKeyByte s i d).clDispWindow = s.clDispWindow := rfl
@[simp] theorem putKeyByte_clDisplayEn (s : State) (i : Nat) (d : Byte) : (putKeyByte s i d).clDisplayEn = s.clDisplayEn := rfl
@[simp] theorem putKeyByte_clDisplayText (s : State) (i : Nat) (d : Byte) : (putKeyByte s i d).clDisplayText = s.clDisplayText := rfl
@[simp] theorem putKeyByte_stKsError (s : State) (i : Nat) (d : Byte) : (putKeyByte s i d).stKsError = s.stKsError := rfl
@[simp] theorem putKeyByte_stRxDropped (s : State) (i : Nat) (d : Byte) : (putKeyByte s i d).stRxDropped = s.stRxDropped := rfl
@[simp] theorem putKeyByte_hashStream (s : State) (i : Nat) (d : Byte) : (putKeyByte s i d).hashStream = s.hashStream := rfl
@[simp] theorem putKeyByte_txLog (s : State) (i : Nat) (d : Byte) : (putKeyByte s i d).txLog = s.txLog := rfl
@[simp] theorem putKeyByte_ksLog (s : State) (i : Nat) (d : Byte) : (putKeyByte s i d).ksLog = s.ksLog := rfl
@[simp] theorem putKeyByte_hashLog (s : State) (i : Nat) (d : Byte) : (putKeyByte s i d).hashLog = s.hashLog := rfl
@[simp] theorem putKeyByte_dispLog (s : State) (i : Nat) (d : Byte) : (putKeyByte s i d).dispLog = s.dispLog := rfl
@[simp] theorem putKeyByte_ks (s : State) (i : Nat) (d : Byte) : (putKeyByte s i d).ks = s.ks := rfl
@[simp] theorem putKeyByte_faulted (s : State) (i : Nat) (d : Byte) : (putKeyByte s i d).faulted = s.faulted := rfl
@[simp] theorem putKeyByte_refused (s : State) (i : Nat) (d : Byte) : (putKeyByte s i d).refused = s.refused := rfl

end Sys2Proof.Machine
end

