-- ==== Sys2Proof/Laws/Ops.lean ====
section
/-! SUPPORT. One specification lemma per shared operation of Ops.lean, Engine.lean, TimeCounter.lean and Power.lean: everything it can
do, so that later proofs cite it and do not unfold it. -/
namespace Sys2Proof.Machine

/-! ### Configurations -/

/-- What R11 admits, as facts. -/
theorem wf_facts {c : Config} (h : c.wf = true) :
    1 ≤ c.keyLen ∧ c.keyLen ≤ 64 ∧ 1 ≤ c.timestep ∧ 1 ≤ c.tps ∧ 19 ≤ c.digestLen ∧
    (c.listenMode = .periodic → 1 ≤ c.listenPeriodTicks ∧ 1 ≤ c.listenWindowTicks) ∧
    (c.displayMode = .flat → 1 ≤ c.displayTicks) := by
  simp only [Config.wf, Bool.and_eq_true, decide_eq_true_eq] at h
  obtain ⟨⟨⟨⟨⟨⟨⟨h1, h2⟩, -⟩, h4⟩, h5⟩, h6⟩, h7⟩, h8⟩ := h
  refine ⟨h1, h2, h4, h5, h8, fun hm => ?_, fun hm => ?_⟩
  · simpa [Config.listenOk, hm] using h6
  · simpa [Config.displayOk, hm] using h7

/-- The admitted digest lengths. -/
theorem wf_digestLen {c : Config} (h : c.wf = true) : c.digestLen = 20 ∨ c.digestLen = 32 := by
  simp only [Config.wf, Bool.and_eq_true] at h
  obtain ⟨⟨⟨⟨⟨⟨⟨-, -⟩, h3⟩, -⟩, -⟩, -⟩, -⟩, -⟩ := h
  cases ha : c.hashAlg <;> simp [Config.digestLenOk, ha] at h3 <;> simp [h3]

/-- The deadline is at least one tick. -/
theorem provTimeoutTicks_pos {c : Config} (h : c.wf = true) : 1 ≤ c.provTimeoutTicks := by
  have := (wf_facts h).2.2.2.1
  simp only [Config.provTimeoutTicks, provTimeoutMs]
  omega

@[simp] theorem digest_length (c : Config) (stream : List Byte) : (c.digest stream).length = c.digestLen := by
  simp [Config.digest]

@[simp] theorem padOf_length (c : Config) (pad : Byte) (key : List Byte) : (padOf c pad key).length = 64 := by
  simp [padOf, blockLen]

@[simp] theorem counterBytes_length (c : BitVec 64) : (counterBytes c).length = 8 := by simp [counterBytes]

@[simp] theorem digits6_length (n : Nat) : (digits6 n).length = 6 := by simp [digits6]

@[simp] theorem freeBytes_length (d : Nat) (slot : Nat → FreeSlot) (n : Nat) : (freeBytes d slot n).length = n := by
  simp [freeBytes]

theorem timeModulus_pos (c : Config) : 0 < c.timeModulus := by
  cases h : c.timeWidth <;> simp [Config.timeModulus, h]

theorem timeModulus_le (c : Config) : c.timeModulus ≤ 2 ^ 64 := by
  cases h : c.timeWidth <;> simp [Config.timeModulus, h]

/-! ### Key Store access -/

/-- The writes `KsUpdate` makes of a byte array from index `a` on: the bytes that differ, in ascending order. -/
def changesFrom (m : List Host.Cell) (a : Nat) : List Byte → List (Nat × Byte)
  | [] => []
  | v :: rest => (if Memory.read m a = v then [] else [(a, v)]) ++ changesFrom m (a + 1) rest

/-- The writes of a whole array, index by index. -/
theorem changesFrom_eq (m : List Host.Cell) (a : Nat) (l : List Byte) :
    changesFrom m a l =
      ((List.range' a l.length).filter fun i => Memory.read m i != byteAt l (i - a)).map fun i => (i, byteAt l (i - a)) := by
  induction l generalizing a with
  | nil => rfl
  | cons v rest ih =>
    have hstep : ∀ i ∈ List.range' (a + 1) rest.length, byteAt (v :: rest) (i - a) = byteAt rest (i - (a + 1)) := by
      intro i hi
      have := (List.mem_range'_1.mp hi).1
      obtain ⟨d, rfl⟩ : ∃ d, i = a + 1 + d := ⟨i - (a + 1), by omega⟩
      rw [show a + 1 + d - a = d + 1 by omega, show a + 1 + d - (a + 1) = d by omega]
      rfl
    have htail : changesFrom m (a + 1) rest =
        ((List.range' (a + 1) rest.length).filter fun i => Memory.read m i != byteAt (v :: rest) (i - a)).map
          fun i => (i, byteAt (v :: rest) (i - a)) := by
      rw [ih]
      have hf : (List.range' (a + 1) rest.length).filter (fun i => Memory.read m i != byteAt (v :: rest) (i - a)) =
          (List.range' (a + 1) rest.length).filter (fun i => Memory.read m i != byteAt rest (i - (a + 1))) :=
        List.filter_congr fun i hi => by rw [hstep i hi]
      rw [hf]
      exact List.map_congr_left fun i hi => by rw [hstep i (List.mem_filter.mp hi).1]
    have hhead : byteAt (v :: rest) (a - a) = v := by simp [byteAt]
    simp only [changesFrom, List.length_cons, List.range'_succ, List.filter_cons, hhead, htail]
    by_cases hv : Memory.read m a = v <;> simp [hv, byteAt]

/-- One update: nothing where the byte is already there, otherwise one logged write; outside the Key Store, the refusal. -/
theorem ksUpdate_spec (s : State) (a : Nat) (v : Byte) :
    (a < s.cfg.keyLen ∧ Memory.read s.ks a = v ∧ ksUpdate s a v = s) ∨
    (a < s.cfg.keyLen ∧ Memory.read s.ks a ≠ v ∧
      ksUpdate s a v = { s with ks := Memory.write s.ks a v, ksLog := s.ksLog ++ [(a, v)] }) ∨
    (s.cfg.keyLen ≤ a ∧ ksUpdate s a v = refuse s (.ksIndex a)) := by
  by_cases ha : a < s.cfg.keyLen
  · by_cases h : Memory.read s.ks a = v
    · exact .inl ⟨ha, h, by simp [ksUpdate, ha, h]⟩
    · exact .inr (.inl ⟨ha, h, by simp [ksUpdate, memWrite, h, ha]⟩)
  · exact .inr (.inr ⟨by omega, by simp [ksUpdate, ha]⟩)

/-- What updates of a whole array can change at all: the store, its log at the end, and, outside the Key Store only, the refused mark if it
was clear. -/
theorem ksUpdateAll_frame (l : List Byte) (a : Nat) (s : State) :
    ∃ m w r, ksUpdateAll s a l = { s with ks := m, ksLog := s.ksLog ++ w, refused := r } ∧
      (∀ x, s.refused = some x → r = some x) ∧ (a + l.length ≤ s.cfg.keyLen → r = s.refused) := by
  induction l generalizing a s with
  | nil => exact ⟨s.ks, [], s.refused, by simp [ksUpdateAll], fun _ h => h, fun _ => rfl⟩
  | cons v rest ih =>
    simp only [ksUpdateAll, List.length_cons]
    rcases ksUpdate_spec s a v with ⟨-, -, h⟩ | ⟨-, -, h⟩ | ⟨ha, h⟩ <;> rw [h]
    · obtain ⟨m, w, r, h, hr, hx⟩ := ih (a + 1) s
      exact ⟨m, w, r, h, hr, fun hl => hx (by omega)⟩
    · obtain ⟨m, w, r, h, hr, hx⟩ := ih (a + 1) { s with ks := Memory.write s.ks a v, ksLog := s.ksLog ++ [(a, v)] }
      exact ⟨m, (a, v) :: w, r, by simpa using h, hr, fun hl => hx (by dsimp only; omega)⟩
    · obtain ⟨m, w, r, h, hr, -⟩ := ih (a + 1) (refuse s (.ksIndex a))
      exact ⟨m, w, r, by rw [h]; rfl, fun x hx => hr x (by simp [hx]), fun hl => absurd hl (by omega)⟩

/-- Updates of an array inside a canonical Key Store: the array is there, every other byte is as before, the log has exactly the bytes that
differed, and the store is still canonical and in range. -/
theorem ksUpdateAll_spec (l : List Byte) (a : Nat) (s : State) (hl : a + l.length ≤ s.cfg.keyLen)
    (hm : Memory.wf s.ks = true) :
    ∃ m, ksUpdateAll s a l = { s with ks := m, ksLog := s.ksLog ++ changesFrom s.ks a l } ∧ Memory.wf m = true ∧
      (Memory.within s.cfg.keyLen s.ks = true → Memory.within s.cfg.keyLen m = true) ∧
      (∀ i, i < l.length → Memory.read m (a + i) = byteAt l i) ∧
      (∀ b, (b < a ∨ a + l.length ≤ b) → Memory.read m b = Memory.read s.ks b) := by
  induction l generalizing a s with
  | nil => exact ⟨s.ks, by simp [ksUpdateAll, changesFrom], hm, id, by simp, fun _ _ => rfl⟩
  | cons v rest ih =>
    simp only [List.length_cons] at hl
    simp only [ksUpdateAll]
    have hcongr : ∀ k, a < k → changesFrom (Memory.write s.ks a v) k rest = changesFrom s.ks k rest := by
      intro k hk
      clear ih hl
      induction rest generalizing k with
      | nil => rfl
      | cons u us ihu => simp only [changesFrom, read_write_other s.ks v (Nat.ne_of_gt hk), ihu (k + 1) (by omega)]
    rcases ksUpdate_spec s a v with ⟨-, hv, h⟩ | ⟨ha, hv, h⟩ | ⟨ha, -⟩
    · rw [h]
      obtain ⟨m, h1, h2, h3, h4, h5⟩ := ih (a + 1) s (by omega) hm
      refine ⟨m, by simpa [changesFrom, hv] using h1, h2, h3, fun i hi => ?_, fun b hb => h5 b ?_⟩
      · cases i with
        | zero => rw [Nat.add_zero, h5 a (.inl (by omega)), hv]; rfl
        | succ i => rw [show a + (i + 1) = a + 1 + i by omega, h4 i (by simpa using hi)]; rfl
      · simp only [List.length_cons] at hb; omega
    · rw [h]
      obtain ⟨m, h1, h2, h3, h4, h5⟩ := ih (a + 1) { s with ks := Memory.write s.ks a v, ksLog := s.ksLog ++ [(a, v)] }
        (by simpa using (by omega : a + 1 + rest.length ≤ s.cfg.keyLen)) (wf_write a v hm)
      refine ⟨m, by simpa [changesFrom, hv, hcongr] using h1, h2, fun hw => h3 (within_write v hw ha), fun i hi => ?_,
        fun b hb => ?_⟩
      · cases i with
        | zero =>
          rw [Nat.add_zero, h5 a (.inl (by omega))]
          exact read_write_same (wf_rising hm) a v
        | succ i => rw [show a + (i + 1) = a + 1 + i by omega, h4 i (by simpa using hi)]; rfl
      · simp only [List.length_cons] at hb
        rw [h5 b (by omega)]
        exact read_write_other _ _ (by omega)
    · omega

/-- What a read can change: the draws of the environment and the model's counter, and, outside the Key Store, the refused mark. -/
theorem memRead_frame (s : State) (a : Nat) :
    ∃ ds n r, (memRead s a).2 = { s with ksDraws := ds, draws := n, refused := r } ∧
      (∀ x, s.refused = some x → r = some x) ∧ (a < s.cfg.keyLen → r = s.refused) := by
  unfold memRead
  split
  · next ha =>
    split
    · exact ⟨s.ksDraws, s.draws, s.refused, rfl, fun _ h => h, fun _ => rfl⟩
    · unfold drawReadFailure
      split
      · next b rest _ => exact ⟨rest, s.draws, s.refused, rfl, fun _ h => h, fun _ => rfl⟩
      · exact ⟨s.ksDraws, s.draws + 1, s.refused, rfl, fun _ h => h, fun _ => rfl⟩
  · next ha =>
    exact ⟨s.ksDraws, s.draws, some (s.refused.getD (.ksIndex a)), rfl, fun x hx => by simp [hx], fun h => absurd h ha⟩

/-- A read that does not fail gives the stored byte. -/
theorem memRead_value {s : State} {a : Nat} {v : Byte} (h : (memRead s a).1 = some v) :
    v = Memory.read s.ks a ∧ a < s.cfg.keyLen := by
  unfold memRead at h
  split at h
  · next ha =>
    split at h
    · simp at h; exact ⟨h.symm, ha⟩
    · simp at h; exact ⟨h.2.symm, ha⟩
  · simp at h

/-- A read under NEVER, inside the Key Store. -/
theorem memRead_never {s : State} {a : Nat} (hf : s.cfg.ksFaultModel = .never) (ha : a < s.cfg.keyLen) :
    memRead s a = (some (Memory.read s.ks a), s) := by
  simp [memRead, ha, hf]

/-- A read under DRAW with a draw presented. -/
theorem memRead_draw {s : State} {a : Nat} {b : Bool} {ds : List Bool} (hf : s.cfg.ksFaultModel = .draw)
    (ha : a < s.cfg.keyLen) (hd : s.ksDraws = b :: ds) :
    memRead s a = (if b then none else some (Memory.read s.ks a), { s with ksDraws := ds }) := by
  simp [memRead, ha, hf, drawReadFailure, hd]

/-- The key's reads change only draws, and give the stored bytes when none fails. -/
theorem readKeyFrom_spec (n a : Nat) (s : State) :
    ∃ ds d r, (readKeyFrom s a n).2 = { s with ksDraws := ds, draws := d, refused := r } ∧
      (∀ x, s.refused = some x → r = some x) ∧ (a + n ≤ s.cfg.keyLen → r = s.refused) ∧
      (∀ k, (readKeyFrom s a n).1 = some k → k = (List.range' a n).map (Memory.read s.ks)) := by
  induction n generalizing a s with
  | zero => exact ⟨s.ksDraws, s.draws, s.refused, rfl, fun _ h => h, fun _ => rfl, fun k h => by
      simp [readKeyFrom] at h; simp [h]⟩
  | succ n ih =>
    obtain ⟨ds, d, r, hs, hr, hr'⟩ := memRead_frame s a
    simp only [readKeyFrom]
    generalize hg : memRead s a = g at *
    obtain ⟨v, t⟩ := g
    simp only at hs
    subst hs
    cases v with
    | none => exact ⟨ds, d, r, rfl, hr, fun h => hr' (by omega), fun k h => by simp at h⟩
    | some v =>
      have hv := memRead_value (s := s) (a := a) (v := v) (by rw [hg])
      obtain ⟨ds', d', r', hs', hx, hx', hk⟩ := ih (a + 1) { s with ksDraws := ds, draws := d, refused := r }
      simp only at hs' hx hx' hk
      dsimp only
      generalize hq : readKeyFrom { s with ksDraws := ds, draws := d, refused := r } (a + 1) n = q at *
      obtain ⟨w, u⟩ := q
      simp only at hs'
      subst hs'
      cases w with
      | none => exact ⟨ds', d', r', rfl, fun x h => hx x (hr x h), fun h => (hx' (by omega)).trans (hr' (by omega)),
          fun k h => by simp at h⟩
      | some w =>
        refine ⟨ds', d', r', rfl, fun x h => hx x (hr x h), fun h => (hx' (by omega)).trans (hr' (by omega)), fun k h => ?_⟩
        simp only [Option.some.injEq] at h
        rw [← h, hk w rfl, hv.1, List.range'_succ]
        rfl

/-- The key's reads under NEVER. -/
theorem readKeyFrom_never (n a : Nat) (s : State) (hf : s.cfg.ksFaultModel = .never) (h : a + n ≤ s.cfg.keyLen) :
    readKeyFrom s a n = (some ((List.range' a n).map (Memory.read s.ks)), s) := by
  induction n generalizing a with
  | zero => rfl
  | succ n ih =>
    simp only [readKeyFrom, memRead_never hf (show a < s.cfg.keyLen by omega), ih (a + 1) (by omega), List.range'_succ]
    rfl

/-! ### The engine -/

/-- The window as a number (R134). -/
theorem window_toNat (c : Config) (t : BitVec 64) : (window c t).toNat = t.toNat / c.timestep := by
  simp only [window, BitVec.toNat_ofNat]
  exact Nat.mod_eq_of_lt (lt_of_le_of_lt (Nat.div_le_self _ _) t.isLt)

/-- The offset as a number (R108). -/
theorem offsetOf_eq (dl : Nat) (outer : List Byte) : offsetOf dl outer = (byteAt outer (dl - 1)).toNat % 16 := by
  simp [offsetOf]

/-- The 31-bit value as a number (R109): the four bytes big-endian, the top bit dropped. -/
theorem binaryAt_toNat (outer : List Byte) (o : Nat) :
   (binaryAt outer o).toNat = (byteAt outer o).toNat % 128 * 2 ^ 24 + (byteAt outer (o + 1)).toNat * 2 ^ 16
        + (byteAt outer (o + 2)).toNat * 2 ^ 8 + (byteAt outer (o + 3)).toNat := by
  unfold binaryAt
  generalize byteAt outer o = a
  generalize byteAt outer (o+1) = b
  generalize byteAt outer (o+2) = c
  generalize byteAt outer (o+3) = d
  have h7 : (a &&& 0x7F).toNat = a.toNat % 128 := by
    rw [BitVec.toNat_and]; exact Nat.and_two_pow_sub_one_eq_mod a.toNat 7
  have ha := a.isLt; have hb := b.isLt; have hc := c.isLt; have hd := d.isLt
  have e : ∀ (x : BitVec 8) , (x.setWidth 32).toNat = x.toNat := by
    intro x; have := x.isLt; simp; omega
  have s1 : (((a &&& 0x7F).setWidth 32) <<< 24).toNat = a.toNat % 128 * 2 ^ 24 := by
    rw [BitVec.toNat_shiftLeft, e, h7, Nat.shiftLeft_eq]; omega
  have s2 : ((b.setWidth 32) <<< 16).toNat = b.toNat * 2 ^ 16 := by
    rw [BitVec.toNat_shiftLeft, e, Nat.shiftLeft_eq]; omega
  have s3 : ((c.setWidth 32) <<< 8).toNat = c.toNat * 2 ^ 8 := by
    rw [BitVec.toNat_shiftLeft, e, Nat.shiftLeft_eq]; omega
  rw [BitVec.toNat_or, BitVec.toNat_or, BitVec.toNat_or, s1, s2, s3, e]
  have o1 : a.toNat % 128 * 2 ^ 24 ||| b.toNat * 2 ^ 16 = a.toNat % 128 * 2 ^ 24 + b.toNat * 2 ^ 16 := by
    rw [Nat.mul_comm (a.toNat % 128)]
    exact (Nat.two_pow_add_eq_or_of_lt (by omega) _).symm
  have o2 : (a.toNat % 128 * 2 ^ 24 + b.toNat * 2 ^ 16) ||| c.toNat * 2 ^ 8 = a.toNat % 128 * 2 ^ 24 + b.toNat * 2 ^ 16 + c.toNat * 2 ^ 8 := by
    have : a.toNat % 128 * 2 ^ 24 + b.toNat * 2 ^ 16 = 2 ^ 16 * (a.toNat % 128 * 2 ^ 8 + b.toNat) := by omega
    rw [this]
    exact (Nat.two_pow_add_eq_or_of_lt (by omega) _).symm
  have o3 : (a.toNat % 128 * 2 ^ 24 + b.toNat * 2 ^ 16 + c.toNat * 2 ^ 8) ||| d.toNat = a.toNat % 128 * 2 ^ 24 + b.toNat * 2 ^ 16 + c.toNat * 2 ^ 8 + d.toNat := by
    have : a.toNat % 128 * 2 ^ 24 + b.toNat * 2 ^ 16 + c.toNat * 2 ^ 8 = 2 ^ 8 * (a.toNat % 128 * 2 ^ 16 + b.toNat * 2 ^ 8 + c.toNat) := by omega
    rw [this]
    exact (Nat.two_pow_add_eq_or_of_lt (by omega) _).symm
  rw [o1, o2, o3]

/-- The offset is a nibble. -/
theorem offsetOf_lt (dl : Nat) (outer : List Byte) : offsetOf dl outer < 16 := by
  simpa [offsetOf] using (((byteAt outer (dl - 1)).extractLsb' 0 4).isLt)

/-- Truncation of a digest long enough for every offset does not fault. -/
theorem truncate_ok {dl : Nat} (h : 19 ≤ dl) (outer : List Byte) :
    truncate dl outer = .ok (BitVec.ofNat 20 ((binaryAt outer (offsetOf dl outer)).toNat % 1000000)) := by
  have := offsetOf_lt dl outer
  simp only [truncate]
  rw [if_neg (by omega)]

theorem code_lt (n : Nat) : (BitVec.ofNat 20 (n % 1000000)).toNat < 1000000 := by
  simp only [BitVec.toNat_ofNat]
  omega

/-- One hash of the orchestrator: the digest of both byte strings, four log entries, the stream left free. -/
theorem hashTwo_spec (s : State) (x y : List Byte) :
    hashTwo s x y = (s.cfg.digest (x ++ y),
      { s with hashStream := freeStream s.draws, draws := s.draws + 1,
               hashLog := s.hashLog ++ [.reset, .update x, .update y, .finalize (s.cfg.digest (x ++ y))] }) := by
  simp [hashTwo, hashFinalize, hashUpdate, hashReset]

/-- The outer digest GENERATE truncates (R107). -/
def outerDigest (s : State) (t : BitVec 64) : List Byte :=
  s.cfg.digest (s.oeOpad ++ s.cfg.digest (s.oeIpad ++ counterBytes (window s.cfg t)))

/-- The eight log entries of GENERATE (R104). -/
def generateLog (s : State) (t : BitVec 64) : List HashCmd :=
  [.reset, .update s.oeIpad, .update (counterBytes (window s.cfg t)),
   .finalize (s.cfg.digest (s.oeIpad ++ counterBytes (window s.cfg t))),
   .reset, .update s.oeOpad, .update (s.cfg.digest (s.oeIpad ++ counterBytes (window s.cfg t))),
   .finalize (outerDigest s t)]

/-- GENERATE with invalid pads. -/
theorem generate_none {s : State} (h : s.oePadsValid = false) (t : BitVec 64) : generate s t = .ok (none, s) := by
  simp [generate, h]

/-- GENERATE with valid pads: the truncation of the outer digest decides. -/
theorem generate_valid {s : State} (h : s.oePadsValid = true) (t : BitVec 64) :
    generate s t = match truncate s.cfg.digestLen (outerDigest s t) with
      | .ok code => .ok (some code, { s with hashStream := freeStream (s.draws + 1), draws := s.draws + 1 + 1,
                                             hashLog := s.hashLog ++ generateLog s t })
      | .error f => .error f := by
  simp only [generate, h, Bool.true_eq_false, ↓reduceIte, hashTwo_spec, outerDigest, generateLog]
  cases truncate s.cfg.digestLen (s.cfg.digest (s.oeOpad ++ s.cfg.digest (s.oeIpad ++ counterBytes (window s.cfg t)))) <;> simp

/-- The code of an admitted configuration. -/
def codeOf (s : State) (t : BitVec 64) : BitVec 20 :=
  BitVec.ofNat 20 ((binaryAt (outerDigest s t) (offsetOf s.cfg.digestLen (outerDigest s t))).toNat % 1000000)

theorem generate_some {s : State} (hc : s.cfg.wf = true) (h : s.oePadsValid = true) (t : BitVec 64) :
    generate s t = .ok (some (codeOf s t), { s with hashStream := freeStream (s.draws + 1), draws := s.draws + 1 + 1,
                                                    hashLog := s.hashLog ++ generateLog s t }) := by
  rw [generate_valid h, truncate_ok (wf_facts hc).2.2.2.2.1]
  rfl

/-! ### Time -/

/-- TIME_TICK writes the counter and nothing else. -/
theorem timeTick_frame (s : State) : timeTick s = { s with tcSec := (timeTick s).tcSec, tcFrac := (timeTick s).tcFrac } := by
  unfold timeTick
  split
  · rfl
  · split <;> rfl

/-- TC_POWER_ON writes the counter and nothing else. -/
theorem tcPowerOn_frame (s : State) :
    tcPowerOn s = { s with tcSec := (tcPowerOn s).tcSec, tcFrac := (tcPowerOn s).tcFrac } := by
  unfold tcPowerOn
  split <;> rfl

theorem nextSecond_toNat (c : Config) (t : BitVec 64) : (nextSecond c t).toNat = (t.toNat + 1) % c.timeModulus := by
  have h1 := Nat.mod_lt (t.toNat + 1) (timeModulus_pos c)
  have h2 := timeModulus_le c
  simp only [nextSecond, BitVec.toNat_ofNat]
  exact Nat.mod_eq_of_lt (by omega)

/-! ### Boot -/

/-- What the second half of the boot can change at all. -/
theorem bootPads_frame (u : State) :
    ∃ ds d i o v e, bootPads u =
      { u with ksDraws := ds, draws := d, oeIpad := i, oeOpad := o, oePadsValid := v, stKsError := e } ∧
      i.length = (if v then 64 else u.oeIpad.length) ∧ o.length = (if v then 64 else u.oeOpad.length) ∧
      (u.stKsError = false → e = !v) ∧
      (v = true → i = padOf u.cfg 0x36 (keyStoreBytes u) ∧ o = padOf u.cfg 0x5C (keyStoreBytes u)) := by
  obtain ⟨ds, d, r, h, -, hx, hk⟩ := readKeyFrom_spec u.cfg.keyLen 0 u
  have hr : r = u.refused := hx (by omega)
  subst hr
  unfold bootPads
  generalize readKeyFrom u 0 u.cfg.keyLen = g at h hk
  obtain ⟨k, t⟩ := g
  simp only at h hk
  subst h
  cases k with
  | none => exact ⟨ds, d, u.oeIpad, u.oeOpad, false, true, rfl, by simp, by simp, fun _ => rfl, fun h => by simp at h⟩
  | some k =>
    have hk' : k = keyStoreBytes u := by rw [hk k rfl, keyStoreBytes, List.range_eq_range']
    subst hk'
    exact ⟨ds, d, _, _, true, u.stKsError, rfl, by simp, by simp, fun h => h, fun _ => ⟨rfl, rfl⟩⟩

/-- What BOOT_KEYSTORE can change at all; in a Key Store of one byte or more it refuses nothing. -/
theorem bootKeystore_frame (s : State) :
    ∃ ds d r m w i o v e, bootKeystore s =
      { s with ksDraws := ds, draws := d, refused := r, ks := m, ksLog := s.ksLog ++ w, oeIpad := i, oeOpad := o,
               oePadsValid := v, stKsError := e } ∧
      (∀ x, s.refused = some x → r = some x) ∧ (1 ≤ s.cfg.keyLen → r = s.refused) ∧
      i.length = (if v then 64 else s.oeIpad.length) ∧ o.length = (if v then 64 else s.oeOpad.length) ∧
      (s.stKsError = false → e = !v) ∧
      (v = true → i = padOf s.cfg 0x36 ((List.range s.cfg.keyLen).map (Memory.read m)) ∧
        o = padOf s.cfg 0x5C ((List.range s.cfg.keyLen).map (Memory.read m))) ∧
      (Memory.wf s.ks = true → Memory.wf m = true) ∧
      (Memory.wf s.ks = true → Memory.within s.cfg.keyLen s.ks = true → Memory.within s.cfg.keyLen m = true) := by
  obtain ⟨ds, d, r, h, hr, hr'⟩ := memRead_frame s 0
  unfold bootKeystore
  generalize memRead s 0 = g at h
  obtain ⟨b, t⟩ := g
  simp only at h
  subst h
  cases b with
  | none =>
    exact ⟨ds, d, r, s.ks, [], s.oeIpad, s.oeOpad, false, true, by simp [bootFail], hr, fun h => hr' (by omega), by simp,
      by simp, fun _ => rfl, fun h => by simp at h, id, fun _ => id⟩
  | some b =>
    dsimp only
    split
    · obtain ⟨m, w, r', h', hx, hx'⟩ := ksUpdateAll_frame (List.replicate s.cfg.keyLen 0x00) 0
        { s with ksDraws := ds, draws := d, refused := r }
      have hsub : 0 + (List.replicate s.cfg.keyLen (0x00 : Byte)).length ≤ s.cfg.keyLen := by simp
      have hmem : Memory.wf s.ks = true → Memory.wf m = true ∧
          (Memory.within s.cfg.keyLen s.ks = true → Memory.within s.cfg.keyLen m = true) := by
        intro hw
        obtain ⟨m', h1, h2, h3, -⟩ := ksUpdateAll_spec (List.replicate s.cfg.keyLen 0x00) 0
          { s with ksDraws := ds, draws := d, refused := r } hsub hw
        rw [h1] at h'
        simp only [State.mk.injEq] at h'
        have : m' = m := by simpa using h'.2.2.2.2.2.2.2.2.2.2.2.2.2.2.2.2.2.2.2.2.2.2.2.2.2.2.2.2.2.2.1
        exact ⟨this ▸ h2, fun hn => this ▸ h3 hn⟩
      obtain ⟨ds', d', i, o, v, e, h'', hi, ho, he, hp⟩ := bootPads_frame (zeroKeyStore { s with ksDraws := ds, draws := d, refused := r })
      rw [h'']
      simp only [zeroKeyStore, h'] at hi ho he hp ⊢
      exact ⟨ds', d', r', m, w, i, o, v, e, rfl, fun x hq => hx x (hr x hq), fun hk => (hx' hsub).trans (hr' (by omega)),
        hi, ho, he, hp, fun hw => (hmem hw).1, fun hw => (hmem hw).2⟩
    · obtain ⟨ds', d', i, o, v, e, h'', hi, ho, he, hp⟩ := bootPads_frame { s with ksDraws := ds, draws := d, refused := r }
      rw [h'']
      exact ⟨ds', d', r, s.ks, [], i, o, v, e, by simp, hr, fun hk => hr' (by omega), hi, ho, he, hp, id, fun _ => id⟩

end Sys2Proof.Machine
end

