-- ==== Sys2Proof/Laws/Control.lean ====
section
/-! SUPPORT. What one TICK can do (spec/44_power_display.md R182), said once: TIME_TICK, FRAMER_TICK and the poll each have one
lemma that lists their cases, and every statement about a TICK is proved from them. -/
namespace Sys2Proof.Machine

/-- FRAMER_TICK (R158): IDLE, a deadline that goes on, a deadline that expires. -/
theorem framerTick_cases (s : State) :
    (s.pfState = .idle ∧ framerTick s = s) ∨
    (s.pfState = .collecting ∧ 1 < s.pfTimer ∧ framerTick s = { s with pfTimer := s.pfTimer - 1 }) ∨
    (s.pfState = .collecting ∧ s.pfTimer ≤ 1 ∧ framerTick s =
      { s with pfTimer := 0, pfBuf := List.replicate s.cfg.keyLen 0x00, pfIdx := 0, pfState := .idle,
               txLog := s.txLog ++ timeoutText }) := by
  cases h : s.pfState with
  | idle => exact .inl ⟨rfl, by simp [framerTick, h]⟩
  | collecting =>
    by_cases ht : 1 < s.pfTimer
    · exact .inr (.inl ⟨rfl, ht, by simp [framerTick, h, show ¬ s.pfTimer - 1 = 0 by omega]⟩)
    · refine .inr (.inr ⟨rfl, by omega, ?_⟩)
      have : s.pfTimer - 1 = 0 := by omega
      simp [framerTick, h, this, expireFrame, clearedBuffer, emit]

/-- The state START_DISPLAY leaves with valid pads (R186). -/
def displayed (s : State) : State :=
  presentCode { s with hashStream := freeStream (s.draws + 1), draws := s.draws + 1 + 1,
                       hashLog := s.hashLog ++ generateLog s s.tcSec } (codeOf s s.tcSec)

/-- START_DISPLAY in an admitted configuration. -/
theorem startDisplay_spec {s : State} (hc : s.cfg.wf = true) :
    (s.oePadsValid = false ∧ startDisplay s = .ok s) ∨ (s.oePadsValid = true ∧ startDisplay s = .ok (displayed s)) := by
  cases h : s.oePadsValid with
  | false => exact .inl ⟨rfl, by simp [startDisplay, generate_none h]⟩
  | true => exact .inr ⟨rfl, by simp [startDisplay, generate_some hc h, displayed]⟩

/-- The poll of a wake that is served. -/
def CanServe (s : State) : Prop := s.clDevState = .dormant ∨ (s.clDevState = .listening ∧ s.pfState = .idle)

/-- Everything CONTROL_POLL can do outside the reserved state (R183, R184, R185). -/
inductive PollCase (s t : State) : Prop where
  | wakeShown (hs : CanServe s) (hw : s.clPendingWake = true) (hp : s.oePadsValid = true)
      (ht : t = displayed { s with clPendingWake := false })
  | wakeLost (hs : CanServe s) (hw : s.clPendingWake = true) (hp : s.oePadsValid = false)
      (ht : t = { s with clPendingWake := false })
  | dormantListens (hs : s.clDevState = .dormant) (hw : s.clPendingWake = false) (hm : s.cfg.listenMode = .continuous)
      (ht : t = { s with clDevState := .listening })
  | dormantOpens (hs : s.clDevState = .dormant) (hw : s.clPendingWake = false) (hm : s.cfg.listenMode = .periodic)
      (hl : s.clListenTimer ≤ 1) (ht : t = { s with clDevState := .listening, clListenTimer := s.cfg.listenWindowTicks })
  | dormantCounts (hs : s.clDevState = .dormant) (hw : s.clPendingWake = false) (hm : s.cfg.listenMode = .periodic)
      (hl : 1 < s.clListenTimer) (ht : t = { s with clListenTimer := s.clListenTimer - 1 })
  | frameWaits (hs : s.clDevState = .listening) (hf : s.pfState = .collecting)
      (ht : t = { s with clListenTimer := if s.cfg.listenMode = .periodic then s.clListenTimer - 1 else s.clListenTimer })
  | listenStays (hs : s.clDevState = .listening) (hf : s.pfState = .idle) (hw : s.clPendingWake = false)
      (hm : s.cfg.listenMode = .continuous) (ht : t = s)
  | listenCloses (hs : s.clDevState = .listening) (hf : s.pfState = .idle) (hw : s.clPendingWake = false)
      (hm : s.cfg.listenMode = .periodic) (hl : s.clListenTimer ≤ 1)
      (ht : t = { s with clDevState := .dormant, clListenTimer := s.cfg.listenPeriodTicks })
  | listenCounts (hs : s.clDevState = .listening) (hf : s.pfState = .idle) (hw : s.clPendingWake = false)
      (hm : s.cfg.listenMode = .periodic) (hl : 1 < s.clListenTimer)
      (ht : t = { s with clListenTimer := s.clListenTimer - 1 })
  | displayCounts (hs : s.clDevState = .displaying) (hm : s.cfg.displayMode = .flat) (hl : 1 < s.clDispTimer)
      (ht : t = { s with clDispTimer := s.clDispTimer - 1 })
  | displayExpires (hs : s.clDevState = .displaying) (hm : s.cfg.displayMode = .flat) (hl : s.clDispTimer ≤ 1)
      (ht : t = endDisplay s)
  | windowHolds (hs : s.clDevState = .displaying) (hm : s.cfg.displayMode = .windowEnd)
      (hl : window s.cfg s.tcSec = s.clDispWindow) (ht : t = s)
  | windowPasses (hs : s.clDevState = .displaying) (hm : s.cfg.displayMode = .windowEnd)
      (hl : window s.cfg s.tcSec ≠ s.clDispWindow) (ht : t = endDisplay s)

/-- A wake a poll acts on. -/
theorem serveWake_cases {s : State} (hc : s.cfg.wf = true) (hs : CanServe s) (hw : s.clPendingWake = true) :
    ∃ t, serveWake s = .ok t ∧ PollCase s t := by
  rcases startDisplay_spec (s := { s with clPendingWake := false }) hc with ⟨hp, h⟩ | ⟨hp, h⟩
  · exact ⟨_, h, .wakeLost hs hw hp rfl⟩
  · exact ⟨_, h, .wakeShown hs hw hp rfl⟩

/-- The poll answers in an admitted configuration, by one of its cases. -/
theorem controlPoll_cases {s : State} (hc : s.cfg.wf = true) (hr : s.clDevState ≠ .reserved) :
    ∃ t, controlPoll s = .ok t ∧ PollCase s t := by
  cases hd : s.clDevState with
  | reserved => exact absurd hd hr
  | dormant =>
    cases hw : s.clPendingWake with
    | true => simpa [controlPoll, hd, pollDormant, hw] using serveWake_cases hc (.inl hd) hw
    | false =>
      cases hm : s.cfg.listenMode with
      | continuous => exact ⟨_, by simp [controlPoll, hd, pollDormant, hw, hm], .dormantListens hd hw hm rfl⟩
      | periodic =>
        by_cases hl : 1 < s.clListenTimer
        · have h0 : ¬ s.clListenTimer - 1 = 0 := by omega
          exact ⟨_, by simp [controlPoll, hd, pollDormant, hw, hm, h0], .dormantCounts hd hw hm hl rfl⟩
        · have h0 : s.clListenTimer - 1 = 0 := by omega
          exact ⟨_, by simp [controlPoll, hd, pollDormant, hw, hm, h0], .dormantOpens hd hw hm (by omega) rfl⟩
  | listening =>
    cases hf : s.pfState with
    | collecting =>
      exact ⟨_, by simp [controlPoll, hd, pollListening, hf]; rfl, .frameWaits hd hf (by
        cases hm : s.cfg.listenMode <;> simp [windowTick, hm])⟩
    | idle =>
      cases hw : s.clPendingWake with
      | true => simpa [controlPoll, hd, pollListening, hf, hw] using serveWake_cases hc (.inr ⟨hd, hf⟩) hw
      | false =>
        cases hm : s.cfg.listenMode with
        | continuous => exact ⟨_, by simp [controlPoll, hd, pollListening, hf, hw, hm], .listenStays hd hf hw hm rfl⟩
        | periodic =>
          by_cases hl : 1 < s.clListenTimer
          · have h0 : ¬ s.clListenTimer - 1 = 0 := by omega
            exact ⟨_, by simp [controlPoll, hd, pollListening, hf, hw, hm, windowTick, h0],
              .listenCounts hd hf hw hm hl rfl⟩
          · have h0 : s.clListenTimer - 1 = 0 := by omega
            exact ⟨_, by simp [controlPoll, hd, pollListening, hf, hw, hm, windowTick, h0]; rfl,
              .listenCloses hd hf hw hm (by omega) (by simp [enterHome, hm, hf, hw])⟩
  | displaying =>
    cases hm : s.cfg.displayMode with
    | flat =>
      by_cases hl : 1 < s.clDispTimer
      · have h0 : ¬ s.clDispTimer - 1 = 0 := by omega
        exact ⟨_, by simp [controlPoll, hd, pollDisplaying, hm, h0], .displayCounts hd hm hl rfl⟩
      · have h0 : s.clDispTimer - 1 = 0 := by omega
        exact ⟨_, by simp [controlPoll, hd, pollDisplaying, hm, h0]; rfl, .displayExpires hd hm (by omega) rfl⟩
    | windowEnd =>
      by_cases hl : window s.cfg s.tcSec = s.clDispWindow
      · exact ⟨_, by simp [controlPoll, hd, pollDisplaying, hm, hl], .windowHolds hd hm hl rfl⟩
      · exact ⟨_, by simp [controlPoll, hd, pollDisplaying, hm, hl], .windowPasses hd hm hl rfl⟩

/-- END_DISPLAY, field by field (R187, R191). -/
theorem endDisplay_spec (s : State) :
    ∃ d l, endDisplay s = { s with dispLog := s.dispLog ++ [.blank], clDisplayText := [], clDisplayEn := false,
                                   clDispTimer := 0, clPendingWake := false, clDevState := d, clListenTimer := l } ∧
      (s.cfg.listenMode = .continuous → d = .listening ∧ l = s.clListenTimer) ∧
      (s.cfg.listenMode = .periodic → d = .dormant ∧ l = s.cfg.listenPeriodTicks) := by
  cases hm : s.cfg.listenMode with
  | continuous => exact ⟨.listening, s.clListenTimer, by simp [endDisplay, enterHome, hm, blank], fun _ => ⟨rfl, rfl⟩, by simp⟩
  | periodic =>
    exact ⟨.dormant, s.cfg.listenPeriodTicks, by simp [endDisplay, enterHome, hm, blank], by simp, fun _ => ⟨rfl, rfl⟩⟩

/-- What no poll changes. -/
structure PollFrame (s t : State) : Prop where
  cfg : t.cfg = s.cfg
  events : t.events = s.events
  ksDraws : t.ksDraws = s.ksDraws
  powered : t.powered = s.powered
  tcSec : t.tcSec = s.tcSec
  tcFrac : t.tcFrac = s.tcFrac
  pfState : t.pfState = s.pfState
  pfIdx : t.pfIdx = s.pfIdx
  pfBuf : t.pfBuf = s.pfBuf
  pfTimer : t.pfTimer = s.pfTimer
  oeIpad : t.oeIpad = s.oeIpad
  oeOpad : t.oeOpad = s.oeOpad
  oePadsValid : t.oePadsValid = s.oePadsValid
  stKsError : t.stKsError = s.stKsError
  stRxDropped : t.stRxDropped = s.stRxDropped
  txLog : t.txLog = s.txLog
  ksLog : t.ksLog = s.ksLog
  ks : t.ks = s.ks
  faulted : t.faulted = s.faulted
  refused : t.refused = s.refused
  hashLog : s.hashLog <+: t.hashLog
  dispLog : s.dispLog <+: t.dispLog

/-- The frame of every poll. -/
theorem PollCase.frame {s t : State} (h : PollCase s t) : PollFrame s t := by
  cases h with
  | wakeShown _ _ _ ht => subst ht; constructor <;> simp [displayed, presentCode, showText]
  | displayExpires _ _ _ ht =>
    obtain ⟨d, l, h, -⟩ := endDisplay_spec s
    rw [h] at ht; subst ht; constructor <;> simp
  | windowPasses _ _ _ ht =>
    obtain ⟨d, l, h, -⟩ := endDisplay_spec s
    rw [h] at ht; subst ht; constructor <;> simp
  | wakeLost _ _ _ ht => subst ht; constructor <;> simp
  | dormantListens _ _ _ ht => subst ht; constructor <;> simp
  | dormantOpens _ _ _ _ ht => subst ht; constructor <;> simp
  | dormantCounts _ _ _ _ ht => subst ht; constructor <;> simp
  | frameWaits _ _ ht => subst ht; constructor <;> simp
  | listenStays _ _ _ _ ht => subst ht; constructor <;> simp
  | listenCloses _ _ _ _ _ ht => subst ht; constructor <;> simp
  | listenCounts _ _ _ _ _ ht => subst ht; constructor <;> simp
  | displayCounts _ _ _ ht => subst ht; constructor <;> simp
  | windowHolds _ _ _ ht => subst ht; constructor <;> simp

/-- A TICK in an admitted configuration (R182): the counter, and while powered the framer and one case of the poll. -/
theorem execTick_cases {s : State} (hc : s.cfg.wf = true) (hr : s.powered = true → s.clDevState ≠ .reserved) :
    ∃ t, execTick s = .next t ∧
      ((s.powered = false ∧ t = timeTick s) ∨ (s.powered = true ∧ PollCase (framerTick (timeTick s)) t)) := by
  cases hp : s.powered with
  | false => exact ⟨timeTick s, by simp [execTick, tickSteps, hp, settle], .inl ⟨rfl, rfl⟩⟩
  | true =>
    have hd : (framerTick (timeTick s)).clDevState = s.clDevState ∧ (framerTick (timeTick s)).cfg = s.cfg := by
      rw [timeTick_frame s]
      rcases framerTick_cases { s with tcSec := (timeTick s).tcSec, tcFrac := (timeTick s).tcFrac } with
        ⟨-, h⟩ | ⟨-, -, h⟩ | ⟨-, -, h⟩ <;> rw [h] <;> exact ⟨rfl, rfl⟩
    obtain ⟨t, ht, hcase⟩ := controlPoll_cases (s := framerTick (timeTick s)) (by rw [hd.2]; exact hc)
      (by rw [hd.1]; exact hr hp)
    exact ⟨t, by simp [execTick, tickSteps, hp, settle, ht], .inr ⟨rfl, hcase⟩⟩

/-- What the poll of a powered TICK finds: the time counted, and the framer IDLE, counting or expired (R131, R158). -/
theorem framed_cases (s : State) :
    (s.pfState = .idle ∧
      framerTick (timeTick s) = { s with tcSec := (timeTick s).tcSec, tcFrac := (timeTick s).tcFrac }) ∨
    (s.pfState = .collecting ∧ 1 < s.pfTimer ∧
      framerTick (timeTick s) = { s with tcSec := (timeTick s).tcSec, tcFrac := (timeTick s).tcFrac,
                                         pfTimer := s.pfTimer - 1 }) ∨
    (s.pfState = .collecting ∧ s.pfTimer ≤ 1 ∧
      framerTick (timeTick s) = { s with tcSec := (timeTick s).tcSec, tcFrac := (timeTick s).tcFrac, pfTimer := 0,
                                         pfBuf := List.replicate s.cfg.keyLen 0x00, pfIdx := 0, pfState := .idle,
                                         txLog := s.txLog ++ timeoutText }) := by
  rw [timeTick_frame s]
  exact framerTick_cases { s with tcSec := (timeTick s).tcSec, tcFrac := (timeTick s).tcFrac }

/-- A TICK that finds the reserved device state (spec/93_implementation_defined.md). -/
theorem execTick_reserved {s : State} (hp : s.powered = true) (hr : s.clDevState = .reserved) :
    execTick s = .next (raiseFault s .reservedDevState) := by
  have hd : (framerTick (timeTick s)).clDevState = .reserved := by
    rw [timeTick_frame s]
    rcases framerTick_cases { s with tcSec := (timeTick s).tcSec, tcFrac := (timeTick s).tcFrac } with
      ⟨-, h⟩ | ⟨-, -, h⟩ | ⟨-, -, h⟩ <;> rw [h] <;> exact hr
  simp [execTick, tickSteps, hp, settle, controlPoll, hd]

end Sys2Proof.Machine
end

