-- ==== Sys2Proof/Laws/Decode.lean ====
section
/-! SUPPORT. The laws of the decoder and the encoder: the fields of a word, what an accepted word is, and RX dispatch case by case. -/
namespace Sys2Proof

@[simp] theorem kindOf_eventWord (k d : Byte) : kindOf (eventWord k d) = k := by
  unfold kindOf eventWord
  ext i hi
  simp only [BitVec.getElem_extractLsb', BitVec.getLsbD_append]
  simp [show ¬ 8 + i < 8 by omega, hi]

@[simp] theorem dataOf_eventWord (k d : Byte) : dataOf (eventWord k d) = d := by
  unfold dataOf eventWord
  ext i hi
  simp only [BitVec.getElem_extractLsb', BitVec.getLsbD_append]
  simp [hi]

/-- A word is its kind and its data. -/
theorem eventWord_fields (w : EventWord) : eventWord (kindOf w) (dataOf w) = w := by
  unfold kindOf dataOf eventWord
  ext i hi
  simp only [BitVec.getElem_append, BitVec.getElem_extractLsb']
  split
  · simp [BitVec.getLsbD_eq_getElem hi]
  · next h => rw [show 8 + (i - 8) = i by omega, BitVec.getLsbD_eq_getElem hi]

/-- A word of kind RX spells its byte. -/
theorem decodeEvent_rx (d : Byte) : decodeEvent (eventWord 0x01 d) = .ok (.rx d) := by
  simp [decodeEvent]

/-- What an accepted word is, event by event. -/
theorem decodeEvent_ok {w : EventWord} {e : Event} (h : decodeEvent w = .ok e) :
    (e = .rx (dataOf w) ∧ kindOf w = 0x01) ∨ (e = .btn ∧ w = 0x0200) ∨ (e = .tick ∧ w = 0x0300) ∨
    (e = .pwrOff ∧ w = 0x0400) ∨ (e = .pwrOn ∧ w = 0x0500) := by
  have hw := eventWord_fields w
  unfold decodeEvent withoutData at h
  split at h
  · next h1 => simp at h; exact .inl ⟨h.symm, h1⟩
  · split at h
    · next h2 =>
      split at h
      · next h0 => simp at h; exact .inr (.inl ⟨h.symm, by rw [← hw, h2, h0]; rfl⟩)
      · simp at h
    · split at h
      · next h2 =>
        split at h
        · next h0 => simp at h; exact .inr (.inr (.inl ⟨h.symm, by rw [← hw, h2, h0]; rfl⟩))
        · simp at h
      · split at h
        · next h2 =>
          split at h
          · next h0 => simp at h; exact .inr (.inr (.inr (.inl ⟨h.symm, by rw [← hw, h2, h0]; rfl⟩)))
          · simp at h
        · split at h
          · next h2 =>
            split at h
            · next h0 => simp at h; exact .inr (.inr (.inr (.inr ⟨h.symm, by rw [← hw, h2, h0]; rfl⟩)))
            · simp at h
          · simp at h

/-- RX dispatch, case by case (R151). -/
theorem selectRx_cases (c : RxContext) (d : Byte) :
    (c.powered = false ∧ selectRx c d = .rxOff d) ∨
    (c.powered = true ∧ c.listening = false ∧ selectRx c d = .rxDrop d) ∨
    (c.powered = true ∧ c.listening = true ∧ c.collecting = false ∧ d = sentinel ∧ selectRx c d = .rxSentinel) ∨
    (c.powered = true ∧ c.listening = true ∧ c.collecting = false ∧ d ≠ sentinel ∧ selectRx c d = .rxIgnored d) ∨
    (c.powered = true ∧ c.listening = true ∧ c.collecting = true ∧ c.lastKey = false ∧ selectRx c d = .rxKey d) ∨
    (c.powered = true ∧ c.listening = true ∧ c.collecting = true ∧ c.lastKey = true ∧ selectRx c d = .rxKeyLast d) := by
  obtain ⟨p, l, k, z⟩ := c
  cases p <;> cases l <;> cases k <;> cases z <;> by_cases hd : d = sentinel <;> simp [selectRx, hd]

/-- What an accepted word names in a context. -/
theorem decode_ok {c : RxContext} {w : EventWord} {i : Instr} (h : decode c w = .ok i) :
    (i = selectRx c (dataOf w) ∧ kindOf w = 0x01) ∨ (i = .btn ∧ w = 0x0200) ∨ (i = .tick ∧ w = 0x0300) ∨
    (i = .pwrOff ∧ w = 0x0400) ∨ (i = .pwrOn ∧ w = 0x0500) := by
  unfold decode at h
  split at h
  · next e he =>
    simp only [Except.ok.injEq] at h
    rcases decodeEvent_ok he with ⟨rfl, hk⟩ | ⟨rfl, hk⟩ | ⟨rfl, hk⟩ | ⟨rfl, hk⟩ | ⟨rfl, hk⟩ <;>
      simp only [selectOp] at h
    · exact .inl ⟨h.symm, hk⟩
    · exact .inr (.inl ⟨h.symm, hk⟩)
    · exact .inr (.inr (.inl ⟨h.symm, hk⟩))
    · exact .inr (.inr (.inr (.inl ⟨h.symm, hk⟩)))
    · exact .inr (.inr (.inr (.inr ⟨h.symm, hk⟩)))
  · simp at h

/-- An RX word names the operation RX dispatch selects. -/
theorem decode_rx (c : RxContext) (d : Byte) : decode c (eventWord 0x01 d) = .ok (selectRx c d) := by
  rw [decode, decodeEvent_rx]
  rfl

@[simp] theorem decode_btn (c : RxContext) : decode c 0x0200 = .ok .btn := rfl
@[simp] theorem decode_tick (c : RxContext) : decode c 0x0300 = .ok .tick := rfl
@[simp] theorem decode_pwrOff (c : RxContext) : decode c 0x0400 = .ok .pwrOff := rfl
@[simp] theorem decode_pwrOn (c : RxContext) : decode c 0x0500 = .ok .pwrOn := rfl

/-- What is decoded applies in its context (R74). -/
theorem decode_admits {c : RxContext} {w : EventWord} {i : Instr} (h : decode c w = .ok i) : c.admits i = true := by
  rcases decode_ok h with ⟨rfl, hk⟩ | ⟨rfl, hk⟩ | ⟨rfl, hk⟩ | ⟨rfl, hk⟩ | ⟨rfl, hk⟩ <;> try rfl
  rcases selectRx_cases c (dataOf w) with ⟨h1,h⟩|⟨h1,h2,h⟩|⟨h1,h2,h3,h4,h⟩|⟨h1,h2,h3,h4,h⟩|⟨h1,h2,h3,h4,h⟩|⟨h1,h2,h3,h4,h⟩ <;> rw [h] <;> simp [*, RxContext.admits]

/-- An RX word names no other event's operation. -/
theorem selectRx_ne (c : RxContext) (d : Byte) :
    selectRx c d ≠ .btn ∧ selectRx c d ≠ .tick ∧ selectRx c d ≠ .pwrOff ∧ selectRx c d ≠ .pwrOn := by
  obtain ⟨p, l, k, z⟩ := c
  cases p <;> cases l <;> cases k <;> cases z <;> by_cases hd : d = sentinel <;> simp [selectRx, hd]

/-- The one word of the operation. -/
theorem decode_eq_btn {c : RxContext} {w : EventWord} (h : decode c w = .ok .btn) : w = 0x0200 := by
  rcases decode_ok h with ⟨e, -⟩ | ⟨e, hw⟩ | ⟨e, hw⟩ | ⟨e, hw⟩ | ⟨e, hw⟩
  · exact absurd e.symm (selectRx_ne c (dataOf w)).1
  all_goals first | exact hw | cases e

/-- The one word of the operation. -/
theorem decode_eq_tick {c : RxContext} {w : EventWord} (h : decode c w = .ok .tick) : w = 0x0300 := by
  rcases decode_ok h with ⟨e, -⟩ | ⟨e, hw⟩ | ⟨e, hw⟩ | ⟨e, hw⟩ | ⟨e, hw⟩
  · exact absurd e.symm (selectRx_ne c (dataOf w)).2.1
  all_goals first | exact hw | cases e

/-- The one word of the operation. -/
theorem decode_eq_pwrOff {c : RxContext} {w : EventWord} (h : decode c w = .ok .pwrOff) : w = 0x0400 := by
  rcases decode_ok h with ⟨e, -⟩ | ⟨e, hw⟩ | ⟨e, hw⟩ | ⟨e, hw⟩ | ⟨e, hw⟩
  · exact absurd e.symm (selectRx_ne c (dataOf w)).2.2.1
  all_goals first | exact hw | cases e

/-- The one word of the operation. -/
theorem decode_eq_pwrOn {c : RxContext} {w : EventWord} (h : decode c w = .ok .pwrOn) : w = 0x0500 := by
  rcases decode_ok h with ⟨e, -⟩ | ⟨e, hw⟩ | ⟨e, hw⟩ | ⟨e, hw⟩ | ⟨e, hw⟩
  · exact absurd e.symm (selectRx_ne c (dataOf w)).2.2.2
  all_goals first | exact hw | cases e

end Sys2Proof
end

