-- ==== Sys2Proof/Laws/Exec.lean ====
section
/-! SUPPORT. The next state of the two operations with many effects, as one record update each: what a commit and a power-on can change, with
everything said of the changed fields. -/
namespace Sys2Proof.Machine

/-- COMMIT (R157) of a state, as one update. -/
theorem commitFrame_frame (s : State) :
    ∃ m w r, commitFrame s =
      { s with ks := m, ksLog := s.ksLog ++ w, refused := r,
               oeIpad := padOf s.cfg 0x36 s.pfBuf, oeOpad := padOf s.cfg 0x5C s.pfBuf, oePadsValid := true,
               txLog := s.txLog ++ savedAck s.pfBuf, pfBuf := List.replicate s.cfg.keyLen 0x00, pfIdx := 0,
               pfTimer := 0, pfState := .idle } ∧
      (∀ x, s.refused = some x → r = some x) ∧ (s.pfBuf.length ≤ s.cfg.keyLen → r = s.refused) ∧
      (s.pfBuf.length ≤ s.cfg.keyLen → Memory.wf s.ks = true → Memory.wf m = true ∧ w = changesFrom s.ks 0 s.pfBuf ∧
        (Memory.within s.cfg.keyLen s.ks = true → Memory.within s.cfg.keyLen m = true) ∧
        (∀ i, i < s.pfBuf.length → Memory.read m i = byteAt s.pfBuf i) ∧
        (∀ b, s.pfBuf.length ≤ b → Memory.read m b = Memory.read s.ks b)) := by
  by_cases hn : s.pfBuf.length ≤ s.cfg.keyLen ∧ Memory.wf s.ks = true
  · obtain ⟨m, h1, h2, h3, h4, h5⟩ := ksUpdateAll_spec s.pfBuf 0 s (by omega) hn.2
    refine ⟨m, _, s.refused, by simp [commitFrame, h1, computePads, emit, clearedBuffer], fun _ h => h, fun _ => rfl,
      fun _ _ => ⟨h2, rfl, h3, fun i hi => ?_, fun b hb => h5 b (.inr (by omega))⟩⟩
    have := h4 i hi
    rwa [Nat.zero_add] at this
  · obtain ⟨m, w, r, h, hr, hr'⟩ := ksUpdateAll_frame s.pfBuf 0 s
    exact ⟨m, w, r, by simp [commitFrame, h, computePads, emit, clearedBuffer], hr, fun h => hr' (by omega),
      fun h1 h2 => absurd ⟨h1, h2⟩ hn⟩

/-- The state RX.KEY_LAST leaves (R156, R157), as one update of the state it meets. `key` is the frame's bytes. -/
theorem execRxKeyLast_frame (d : Byte) (s : State) (key : List Byte) (hkey : key = s.pfBuf.set (s.cfg.keyLen - 1) d) :
    ∃ m w r, execRxKeyLast d s = .next
      { s with ks := m, ksLog := s.ksLog ++ w, refused := r,
               oeIpad := padOf s.cfg 0x36 key, oeOpad := padOf s.cfg 0x5C key, oePadsValid := true,
               txLog := s.txLog ++ savedAck key, pfBuf := List.replicate s.cfg.keyLen 0x00, pfIdx := 0,
               pfTimer := 0, pfState := .idle } ∧
      (∀ x, s.refused = some x → r = some x) ∧ (s.pfBuf.length ≤ s.cfg.keyLen → r = s.refused) ∧
      (s.pfBuf.length ≤ s.cfg.keyLen → Memory.wf s.ks = true → Memory.wf m = true ∧ w = changesFrom s.ks 0 key ∧
        (Memory.within s.cfg.keyLen s.ks = true → Memory.within s.cfg.keyLen m = true) ∧
        (∀ i, i < s.pfBuf.length → Memory.read m i = byteAt key i) ∧
        (∀ b, s.pfBuf.length ≤ b → Memory.read m b = Memory.read s.ks b)) := by
  subst hkey
  obtain ⟨m, w, r, h, hr, hr', hm⟩ := commitFrame_frame (putKeyByte { s with pfIdx := s.cfg.keyLen } (s.cfg.keyLen - 1) d)
  have hl : (putKeyByte { s with pfIdx := s.cfg.keyLen } (s.cfg.keyLen - 1) d).pfBuf.length = s.pfBuf.length := by
    simp [putKeyByte]
  rw [hl] at hr' hm
  exact ⟨m, w, r, by rw [execRxKeyLast, h]; rfl, hr, hr', hm⟩

/-- PWR_ON (R242) as one update: the reset values of R42, the boot's effects, and the fields it keeps. -/
theorem execPwrOn_frame (s : State) :
    ∃ ds d r m w i o v st sec frac, execPwrOn s = .next
      { s with ksDraws := ds, draws := d, refused := r, ks := m, ksLog := s.ksLog ++ w, oeIpad := i, oeOpad := o,
               oePadsValid := v, stKsError := !v, hashStream := st, tcSec := sec, tcFrac := frac,
               powered := true, pfState := .idle, pfIdx := 0, pfBuf := List.replicate s.cfg.keyLen 0x00, pfTimer := 0,
               oeCode := 0, oeCodeValid := false, clDevState := .dormant, clPendingWake := false,
               clListenTimer := s.cfg.listenTimerReset, clDispTimer := 0, clDispWindow := 0, clDisplayEn := false,
               clDisplayText := [], stRxDropped := false,
               dispLog := s.dispLog ++ (if s.powered && s.clDisplayEn then [.blank] else []) } ∧
      (∀ x, s.refused = some x → r = some x) ∧ (1 ≤ s.cfg.keyLen → r = s.refused) ∧
      i.length = 64 ∧ o.length = 64 ∧
      (v = true → i = padOf s.cfg 0x36 ((List.range s.cfg.keyLen).map (Memory.read m)) ∧
        o = padOf s.cfg 0x5C ((List.range s.cfg.keyLen).map (Memory.read m))) ∧
      (Memory.wf s.ks = true → Memory.wf m = true) ∧
      (Memory.wf s.ks = true → Memory.within s.cfg.keyLen s.ks = true → Memory.within s.cfg.keyLen m = true) ∧
      (s.cfg.timeStrategy = .rtc → sec = s.tcSec ∧ frac = s.tcFrac) ∧
      (s.cfg.timeStrategy = .uptime → sec = 0 ∧ frac = 0) := by
  obtain ⟨n, dl, hoff⟩ : ∃ n dl, resetVolatile (if s.powered then powerOff s else s) =
      { resetVolatile s with draws := n + 1, oeIpad := freeBytes n .oeIpad blockLen, oeOpad := freeBytes n .oeOpad blockLen,
                             hashStream := freeStream n, dispLog := dl } ∧
      dl = s.dispLog ++ (if s.powered && s.clDisplayEn then [.blank] else []) := by
    cases hp : s.powered with
    | false => exact ⟨s.draws, s.dispLog, rfl, by simp⟩
    | true =>
      cases he : s.clDisplayEn with
      | false => exact ⟨s.draws + 1, s.dispLog, by simp [powerOff, darkenDisplay, he, scrambleVolatile, resetVolatile], by simp⟩
      | true => exact ⟨s.draws + 1, s.dispLog ++ [.blank],
          by simp [powerOff, darkenDisplay, he, scrambleVolatile, resetVolatile, blank], by simp⟩
  obtain ⟨hoff, rfl⟩ := hoff
  generalize hu : resetVolatile (if s.powered then powerOff s else s) = u at hoff
  obtain ⟨ds, d, r, m, w, i, o, v, e, h, hr, hr', hi, ho, he, hp, hw, hn⟩ := bootKeystore_frame (tcPowerOn u)
  have hi' : i.length = 64 := by
    rw [hi, tcPowerOn_frame, hoff]; cases v <;> simp [blockLen]
  have ho' : o.length = 64 := by
    rw [ho, tcPowerOn_frame, hoff]; cases v <;> simp [blockLen]
  rw [tcPowerOn_frame, hoff] at he
  have he' : e = !v := he rfl
  subst he'
  refine ⟨ds, d, r, m, w, i, o, v, u.hashStream, (tcPowerOn u).tcSec, (tcPowerOn u).tcFrac, ?_, ?_, ?_, hi', ho', ?_, ?_, ?_, ?_, ?_⟩
  · rw [execPwrOn, hu, h, tcPowerOn_frame, hoff]
    simp [resetVolatile]
  · rw [tcPowerOn_frame, hoff] at hr; exact hr
  · rw [tcPowerOn_frame, hoff] at hr'; exact hr'
  · rw [tcPowerOn_frame, hoff] at hp; exact hp
  · rw [tcPowerOn_frame, hoff] at hw; exact hw
  · rw [tcPowerOn_frame, hoff] at hn; exact hn
  · intro hs
    have hc : u.cfg = s.cfg := by rw [hoff]; rfl
    simp only [tcPowerOn, hc, hs]
    rw [hoff]
    exact ⟨rfl, rfl⟩
  · intro hs
    have hc : u.cfg = s.cfg := by rw [hoff]; rfl
    simp only [tcPowerOn, hc, hs]
    exact ⟨trivial, trivial⟩

/-- PWR_OFF (R241) of a powered device: what is kept. -/
theorem powerOff_keeps (s : State) :
    (powerOff s).powered = false ∧ (powerOff s).clDisplayEn = false ∧ (powerOff s).clDisplayText = [] ∧
    (powerOff s).dispLog = s.dispLog ++ (if s.clDisplayEn then [.blank] else []) ∧
    (powerOff s).cfg = s.cfg ∧ (powerOff s).events = s.events ∧ (powerOff s).ksDraws = s.ksDraws ∧
    (powerOff s).tcSec = s.tcSec ∧ (powerOff s).tcFrac = s.tcFrac ∧ (powerOff s).ks = s.ks ∧
    (powerOff s).ksLog = s.ksLog ∧ (powerOff s).txLog = s.txLog ∧ (powerOff s).hashLog = s.hashLog ∧
    (powerOff s).faulted = s.faulted ∧ (powerOff s).refused = s.refused ∧
    (powerOff s).pfBuf.length = s.cfg.keyLen ∧ (powerOff s).oeIpad.length = 64 ∧ (powerOff s).oeOpad.length = 64 := by
  cases he : s.clDisplayEn <;>
    simp [powerOff, scrambleVolatile, darkenDisplay, he, blank, blockLen]

/-- What a TICK keeps, whatever its state: all but the time, the framer, the control and the code. -/
theorem tick_fields {s t : State} (hc : s.cfg.wf = true) (h : execTick s = .next t) :
   t.cfg = s.cfg ∧ t.events = s.events ∧ t.ks = s.ks ∧ t.ksLog = s.ksLog ∧ s.txLog <+: t.txLog ∧ s.hashLog <+: t.hashLog ∧ s.dispLog <+: t.dispLog ∧
   t.refused = s.refused ∧ t.oeIpad = s.oeIpad ∧ t.oeOpad = s.oeOpad ∧ t.powered = s.powered ∧
   ((t.faulted = s.faulted ∧ t.tcSec = (timeTick s).tcSec ∧ t.tcFrac = (timeTick s).tcFrac) ∨ (s.powered = true ∧ s.clDevState = .reserved ∧ t = raiseFault s .reservedDevState)) := by
  by_cases hr : s.powered = true ∧ s.clDevState = .reserved
  · rw [execTick_reserved hr.1 hr.2] at h; simp at h; subst h
    simp [hr]
  · obtain ⟨t', h', hcase⟩ := execTick_cases hc (fun hp hd => hr ⟨hp, hd⟩)
    rw [h'] at h; simp at h; subst h
    rcases hcase with ⟨hp, rfl⟩ | ⟨hp, hp2⟩
    · have := timeTick_frame s
      rw [this]; simp
    · have f := hp2.frame
      have e := timeTick_frame s
      generalize timeTick s = u at *
      have hcases := framerTick_cases u
      refine ⟨?_,?_,?_,?_,?_,?_,?_,?_,?_,?_,?_,.inl ⟨?_,?_,?_⟩⟩
      · rw [f.cfg]; rcases hcases with ⟨_,h⟩|⟨_,_,h⟩|⟨_,_,h⟩ <;> rw [h, e]
      · rw [f.events]; rcases hcases with ⟨_,h⟩|⟨_,_,h⟩|⟨_,_,h⟩ <;> rw [h, e]
      · rw [f.ks]; rcases hcases with ⟨_,h⟩|⟨_,_,h⟩|⟨_,_,h⟩ <;> rw [h, e]
      · rw [f.ksLog]; rcases hcases with ⟨_,h⟩|⟨_,_,h⟩|⟨_,_,h⟩ <;> rw [h, e]
      · rw [f.txLog]; rcases hcases with ⟨_,h⟩|⟨_,_,h⟩|⟨_,_,h⟩ <;> rw [h, e]; simp
      · refine List.IsPrefix.trans ?_ f.hashLog; rcases hcases with ⟨_,h⟩|⟨_,_,h⟩|⟨_,_,h⟩ <;> rw [h, e]
      · refine List.IsPrefix.trans ?_ f.dispLog; rcases hcases with ⟨_,h⟩|⟨_,_,h⟩|⟨_,_,h⟩ <;> rw [h, e]
      · rw [f.refused]; rcases hcases with ⟨_,h⟩|⟨_,_,h⟩|⟨_,_,h⟩ <;> rw [h, e]
      · rw [f.oeIpad]; rcases hcases with ⟨_,h⟩|⟨_,_,h⟩|⟨_,_,h⟩ <;> rw [h, e]
      · rw [f.oeOpad]; rcases hcases with ⟨_,h⟩|⟨_,_,h⟩|⟨_,_,h⟩ <;> rw [h, e]
      · rw [f.powered]; rcases hcases with ⟨_,h⟩|⟨_,_,h⟩|⟨_,_,h⟩ <;> rw [h, e]
      · rw [f.faulted]; rcases hcases with ⟨_,h⟩|⟨_,_,h⟩|⟨_,_,h⟩ <;> rw [h, e]
      · rw [f.tcSec]; rcases hcases with ⟨_,h⟩|⟨_,_,h⟩|⟨_,_,h⟩ <;> rw [h]
      · rw [f.tcFrac]; rcases hcases with ⟨_,h⟩|⟨_,_,h⟩|⟨_,_,h⟩ <;> rw [h]


/-- What every operation keeps or only extends. -/
theorem exec_fields {i : Instr} {s t : State} (hc : s.cfg.wf = true) (h : exec i s = .next t) :
   t.cfg = s.cfg ∧ t.events = s.events ∧ s.txLog <+: t.txLog ∧ s.ksLog <+: t.ksLog ∧ s.hashLog <+: t.hashLog ∧ s.dispLog <+: t.dispLog ∧
   (∀ x, s.refused = some x → t.refused = some x) ∧ (∀ x, s.faulted = some x → t.faulted = some x) := by
  cases i with
  | rxOff d => simp [exec, execRxOff] at h; subst h; simp
  | rxDrop d => simp only [exec, execRxDrop] at h; split at h <;> (simp at h; subst h; simp); (intro x hx; simp [hx])
  | rxSentinel => simp [exec, execRxSentinel] at h; subst h; simp
  | rxIgnored d => simp [exec, execRxIgnored] at h; subst h; simp
  | rxKey d => simp [exec, execRxKey] at h; subst h; simp
  | rxKeyLast d =>
    simp only [exec] at h
    obtain ⟨m, w, r, hh, hr, -⟩ := execRxKeyLast_frame d s _ rfl
    rw [hh] at h; simp only [Host.Outcome.next.injEq] at h; subst h
    refine ⟨rfl, rfl, ?_, ?_, ?_, ?_, hr, fun _ h => h⟩ <;> simp
  | btn => simp only [exec, execBtn] at h; split at h <;> (simp at h; subst h; simp)
  | tick =>
    have := tick_fields hc h
    refine ⟨this.1, this.2.1, this.2.2.2.2.1, ?_, this.2.2.2.2.2.1, this.2.2.2.2.2.2.1, ?_, ?_⟩
    · rw [this.2.2.2.1]
    · rw [this.2.2.2.2.2.2.2.1]; exact fun _ h => h
    · rcases this.2.2.2.2.2.2.2.2.2.2.2 with ⟨h,_⟩ | ⟨_,_,rfl⟩
      · rw [h]; exact fun _ h => h
      · intro x hx; simp [hx]
  | pwrOff =>
    simp only [exec, execPwrOff] at h; split at h
    · simp at h; subst h; simp
    · simp at h; subst h
      have := powerOff_keeps s
      simp [this]
  | pwrOn =>
    obtain ⟨ds, d, r, m, w, i, o, v, st, sec, frac, hh, hr, -⟩ := execPwrOn_frame s
    simp only [exec] at h; rw [hh] at h; simp at h; subst h
    refine ⟨rfl, rfl, ?_, ?_, ?_, ?_, hr, fun _ h => h⟩ <;> simp


end Sys2Proof.Machine
end

