-- ==== Sys2Proof/Laws/Invariant.lean ====
section
/-! SUPPORT. The invariant of Safety.lean under the parts of a TICK: each keeps it. -/
namespace Sys2Proof.Machine

/-- The invariant does not look at the events. -/
theorem Invariant.withEvents {s : State} (h : Invariant s) (es : List EventWord) : Invariant { s with events := es } :=
  ⟨{ cfg := h.ranges.cfg, ksCanonical := h.ranges.ksCanonical, ksWithin := h.ranges.ksWithin, tcSec := h.ranges.tcSec,
     tcFrac := h.ranges.tcFrac, pfBuf := h.ranges.pfBuf, oeIpad := h.ranges.oeIpad, oeOpad := h.ranges.oeOpad,
     dark := h.ranges.dark },
   fun hp => { h.powered hp with }⟩

/-- TIME_TICK keeps the counter in its ranges (R23, R24). -/
theorem timeTick_range {s : State} (h : Ranges s) :
    (timeTick s).tcSec.toNat < s.cfg.timeModulus ∧ (timeTick s).tcFrac < s.cfg.tps := by
  have h1 := h.tcSec
  have h2 := h.tcFrac
  unfold timeTick
  split
  · exact ⟨h1, h2⟩
  · split
    · exact ⟨by simp only [nextSecond_toNat]; exact Nat.mod_lt _ (timeModulus_pos _), by dsimp only; omega⟩
    · exact ⟨h1, by dsimp only; omega⟩

/-- TIME_TICK keeps the invariant. -/
theorem Invariant.timeTick {s : State} (h : Invariant s) : Invariant (timeTick s) := by
  have ht := timeTick_range h.ranges
  rw [timeTick_frame s]
  exact ⟨{ h.ranges with tcSec := ht.1, tcFrac := ht.2 }, fun hp => { h.powered hp with }⟩

/-- FRAMER_TICK keeps the invariant. -/
theorem Invariant.framerTick {s : State} (h : Invariant s) (hp : s.powered = true) : Invariant (framerTick s) := by
  have P := h.powered hp
  rcases framerTick_cases s with ⟨-, e⟩ | ⟨hc, hl, e⟩ | ⟨hc, hl, e⟩ <;> rw [e]
  · exact h
  · exact ⟨{ h.ranges with }, fun _ => { P with collecting_bounds := fun hx => by have := P.collecting_bounds hx; dsimp only; omega }⟩
  · exact ⟨{ h.ranges with pfBuf := by simp },
      fun _ => { P with collecting_listening := fun hx => by simp at hx
                        collecting_bounds := fun hx => by simp at hx
                        idle_cleared := fun _ => ⟨rfl, rfl⟩ }⟩

/-- Every poll keeps the invariant. -/
theorem Invariant.poll {s t : State} (h : Invariant s) (hp : s.powered = true) (c : PollCase s t) : Invariant t := by
  have P := h.powered hp
  have R := h.ranges
  have W := wf_facts R.cfg
  have f := c.frame
  have hR : (t.powered = false → t.clDisplayEn = false ∧ t.clDisplayText = []) → Ranges t := fun hd =>
    { cfg := by rw [f.cfg]; exact R.cfg
      ksCanonical := by rw [f.ks]; exact R.ksCanonical
      ksWithin := by rw [f.ks, f.cfg]; exact R.ksWithin
      tcSec := by rw [f.tcSec, f.cfg]; exact R.tcSec
      tcFrac := by rw [f.tcFrac, f.cfg]; exact R.tcFrac
      pfBuf := by rw [f.pfBuf, f.cfg]; exact R.pfBuf
      oeIpad := by rw [f.oeIpad]; exact R.oeIpad
      oeOpad := by rw [f.oeOpad]; exact R.oeOpad
      dark := hd }
  refine ⟨hR (fun h => by rw [f.powered, hp] at h; simp at h), fun _ => ?_⟩
  clear hR f
  cases c with
  | wakeShown hs hw hv ht =>
    subst ht
    have hi : s.pfState = .idle := by
      rcases hs with hs | hs
      · cases hq : s.pfState with
        | idle => rfl
        | collecting => have := P.collecting_listening hq; rw [hs] at this; simp at this
      · exact hs.2
    exact { P with
      collecting_listening := fun hx => by simp [displayed, presentCode, hi] at hx
      displaying_code := fun _ => ⟨rfl, rfl, rfl⟩
      displaying_timer := fun _ hm => by
        have hm' : s.cfg.displayMode = .flat := hm
        simp only [displayed, presentCode, showText_cfg, hm']
        exact ⟨W.2.2.2.2.2.2 hm', Nat.le_refl _⟩
      dev_state := by simp [displayed, presentCode]
      not_displaying := fun hx => by simp [displayed, presentCode] at hx
      code_range := code_lt _
      dormant_timer := fun _ hx => by simp [displayed, presentCode] at hx
      listening_timer := fun _ hx => by simp [displayed, presentCode] at hx }
  | displayExpires hs hm hl ht =>
    obtain ⟨d, l, e, e1, e2⟩ := endDisplay_spec s
    rw [e] at ht; subst ht
    have hi : s.pfState = .idle := by
      cases hq : s.pfState with
        | idle => rfl
        | collecting => have := P.collecting_listening hq; rw [hs] at this; simp at this
    cases hlm : s.cfg.listenMode with
    | continuous =>
      obtain ⟨rfl, rfl⟩ := e1 hlm
      exact { P with
        collecting_listening := fun _ => rfl
        displaying_code := by simp
        displaying_timer := by simp
        dev_state := by simp
        not_displaying := by simp
        dormant_timer := by simp
        listening_timer := by simp [hlm] }
    | periodic =>
      obtain ⟨rfl, rfl⟩ := e2 hlm
      exact { P with
        collecting_listening := fun h => by simp [hi] at h
        displaying_code := by simp
        displaying_timer := by simp
        dev_state := by simp
        not_displaying := by simp
        dormant_timer := fun _ _ => ⟨(W.2.2.2.2.2.1 hlm).1, Nat.le_refl _⟩
        listening_timer := by simp
        continuous_timer := fun h => by simp [hlm] at h }
  | windowPasses hs hm hl ht =>
    obtain ⟨d, l, e, e1, e2⟩ := endDisplay_spec s
    rw [e] at ht; subst ht
    have hi : s.pfState = .idle := by
      cases hq : s.pfState with
        | idle => rfl
        | collecting => have := P.collecting_listening hq; rw [hs] at this; simp at this
    cases hlm : s.cfg.listenMode with
    | continuous =>
      obtain ⟨rfl, rfl⟩ := e1 hlm
      exact { P with
        collecting_listening := fun _ => rfl
        displaying_code := by simp
        displaying_timer := by simp
        dev_state := by simp
        not_displaying := by simp
        dormant_timer := by simp
        listening_timer := by simp [hlm] }
    | periodic =>
      obtain ⟨rfl, rfl⟩ := e2 hlm
      exact { P with
        collecting_listening := fun h => by simp [hi] at h
        displaying_code := by simp
        displaying_timer := by simp
        dev_state := by simp
        not_displaying := by simp
        dormant_timer := fun _ _ => ⟨(W.2.2.2.2.2.1 hlm).1, Nat.le_refl _⟩
        listening_timer := by simp
        continuous_timer := fun h => by simp [hlm] at h }
  | wakeLost hs hw hv ht => subst ht; exact { P with }
  | dormantListens hs hw hm ht =>
    subst ht
    exact { P with
        collecting_listening := fun _ => rfl
        displaying_code := by simp
        displaying_timer := by simp
        dev_state := by simp
        not_displaying := fun _ => P.not_displaying (by simp [hs])
        dormant_timer := by simp
        listening_timer := by simp [hm] }
  | dormantOpens hs hw hm hl ht =>
    subst ht
    exact { P with
        collecting_listening := fun _ => rfl
        displaying_code := by simp
        displaying_timer := by simp
        dev_state := by simp
        not_displaying := fun _ => P.not_displaying (by simp [hs])
        dormant_timer := by simp
        listening_timer := fun _ _ => Nat.le_refl _
        continuous_timer := fun h => by simp [hm] at h }
  | dormantCounts hs hw hm hl ht =>
    subst ht
    exact { P with
        dormant_timer := fun h1 h2 => by have := P.dormant_timer h1 h2; dsimp only; omega
        listening_timer := fun h1 h2 => by simp [hs] at h2
        continuous_timer := fun h => by simp [hm] at h }
  | frameWaits hs hf ht =>
    subst ht
    exact { P with
        dormant_timer := fun h1 h2 => by simp [hs] at h2
        listening_timer := fun h1 h2 => by 
          have h1' : s.cfg.listenMode = .periodic := h1
          have := P.listening_timer h1 h2
          simp only [h1', if_true]; omega
        continuous_timer := fun h => by have h' : s.cfg.listenMode = .continuous := h; have := P.continuous_timer h'; simp [h', this] }
  | listenStays hs hf hw hm ht => subst ht; exact P
  | listenCloses hs hf hw hm hl ht =>
    subst ht
    exact { P with
        collecting_listening := fun h => by simp [hf] at h
        displaying_code := by simp
        displaying_timer := by simp
        dev_state := by simp
        not_displaying := fun _ => P.not_displaying (by simp [hs])
        dormant_timer := fun _ _ => ⟨(W.2.2.2.2.2.1 hm).1, Nat.le_refl _⟩
        listening_timer := by simp
        continuous_timer := fun h => by simp [hm] at h }
  | listenCounts hs hf hw hm hl ht =>
    subst ht
    exact { P with
        dormant_timer := fun h1 h2 => by simp [hs] at h2
        listening_timer := fun h1 h2 => by have := P.listening_timer h1 h2; dsimp only; omega
        continuous_timer := fun h => by simp [hm] at h }
  | displayCounts hs hm hl ht =>
    subst ht
    exact { P with
        displaying_timer := fun h1 h2 => by have := P.displaying_timer h1 h2; dsimp only; omega }
  | windowHolds hs hm hl ht => subst ht; exact P

/-- A TICK keeps the invariant. -/
theorem Invariant.tick {s t : State} (h : Invariant s) (e : execTick s = .next t) : Invariant t := by
  obtain ⟨t', e', hc⟩ := execTick_cases h.ranges.cfg (fun hp => (h.powered hp).dev_state)
  rw [e'] at e; simp at e; subst e
  rcases hc with ⟨hp, rfl⟩ | ⟨hp, hc⟩
  · exact h.timeTick
  · have hp1 : (Machine.timeTick s).powered = true := by rw [timeTick_frame s]; exact hp
    have hp2 : (Machine.framerTick (Machine.timeTick s)).powered = true := by
      rcases framerTick_cases (Machine.timeTick s) with ⟨-, e⟩ | ⟨-, -, e⟩ | ⟨-, -, e⟩ <;> rw [e] <;> exact hp1
    exact (h.timeTick.framerTick hp1).poll hp2 hc

/-- Outside LISTENING the framer is IDLE (R190). -/
theorem idle_of_not_listening {s : State} (h : Invariant s) (hp : s.powered = true) (hd : s.clDevState ≠ .listening) :
    s.pfState = .idle := by
  cases hq : s.pfState with
  | idle => rfl
  | collecting => exact absurd ((h.powered hp).collecting_listening hq) hd

end Sys2Proof.Machine
end

