-- ==== Sys2Proof/Laws/PerInstr.lean ====
section
/-! SUPPORT. What holds of every operation as a term, one lemma per constructor: its encoding lies in its row of
spec/opcode_table.json and spells an event, and where the operation is well-formed and its row applies, that event selects it
(spec/30_encoding.md R73, R74). -/
namespace Sys2Proof

/-- The kind byte of an RX word is all its row fixes. -/
theorem rx_in_row (d : Byte) : eventWord 0x01 d &&& 0xFF00 = 0x0100 := by
  unfold eventWord
  ext i hi
  simp only [BitVec.getElem_and, BitVec.getElem_append]
  interval_cases i <;> simp

namespace Laws.Encoding

/-- The encoding of an operation: in its row, an event's word, and the event's selection in a context its row applies in. -/
def Statement (i : Instr) : Prop :=
  encode i &&& tableMask i = tableMatch i ∧
  ∃ e, decodeEvent (encode i) = .ok e ∧ ∀ c : RxContext, i.wf = true → c.admits i = true → selectOp c e = i

theorem rxOff (d : Byte) : Statement (.rxOff d) :=
  ⟨rx_in_row d, .rx d, decodeEvent_rx d, fun c _ h => by simp_all [RxContext.admits, selectOp, selectRx]⟩

theorem rxDrop (d : Byte) : Statement (.rxDrop d) :=
  ⟨rx_in_row d, .rx d, decodeEvent_rx d, fun c _ h => by simp_all [RxContext.admits, selectOp, selectRx]⟩

theorem rxSentinel : Statement .rxSentinel :=
  ⟨rfl, .rx sentinel, rfl, fun c _ h => by simp_all [RxContext.admits, selectOp, selectRx]⟩

theorem rxIgnored (d : Byte) : Statement (.rxIgnored d) :=
  ⟨rx_in_row d, .rx d, decodeEvent_rx d, fun c w h => by simp_all [Instr.wf, RxContext.admits, selectOp, selectRx]⟩

theorem rxKey (d : Byte) : Statement (.rxKey d) :=
  ⟨rx_in_row d, .rx d, decodeEvent_rx d, fun c _ h => by simp_all [RxContext.admits, selectOp, selectRx]⟩

theorem rxKeyLast (d : Byte) : Statement (.rxKeyLast d) :=
  ⟨rx_in_row d, .rx d, decodeEvent_rx d, fun c _ h => by simp_all [RxContext.admits, selectOp, selectRx]⟩

theorem btn : Statement .btn := ⟨rfl, .btn, rfl, fun _ _ _ => rfl⟩

theorem tick : Statement .tick := ⟨rfl, .tick, rfl, fun _ _ _ => rfl⟩

theorem pwrOff : Statement .pwrOff := ⟨rfl, .pwrOff, rfl, fun _ _ _ => rfl⟩

theorem pwrOn : Statement .pwrOn := ⟨rfl, .pwrOn, rfl, fun _ _ _ => rfl⟩

end Laws.Encoding

end Sys2Proof
end

