-- ==== Sys2Proof/Laws/Step.lean ====
section
/-! SUPPORT. What one step can do, said once: the event taken, and either the decoded operation or the refusal of a reserved word. -/
namespace Sys2Proof.Machine

@[simp] theorem rxContext_events (s : State) (es : List EventWord) :
    rxContext { s with events := es } = rxContext s := rfl

/-- The step of a presented word (R72, R74). -/
theorem step_eq {s : State} {w : EventWord} {rest : List EventWord} (hc : s.cfg.wf = true) (he : s.events = w :: rest) :
    step s = performWord w { s with events := rest } := by
  simp [step, hc, takeEvent, he]

/-- The step of a word that decodes is exec of what it decodes to. -/
theorem step_exec {s : State} {w : EventWord} {rest : List EventWord} {i : Instr} (hc : s.cfg.wf = true)
    (he : s.events = w :: rest) (hd : decode (rxContext s) w = .ok i) : step s = exec i { s with events := rest } := by
  rw [step_eq hc he, performWord, rxContext_events, hd]

/-- The inversion of a step that answers a next state. -/
theorem step_next {s t : State} (h : step s = .next t) :
    s.cfg.wf = true ∧ ∃ w rest, s.events = w :: rest ∧
      ((∃ i, decode (rxContext s) w = .ok i ∧ exec i { s with events := rest } = .next t) ∨
       ((∃ e, decode (rxContext s) w = .error e) ∧ t = refuse { s with events := rest } (.reservedEvent w))) := by
  cases hc : s.cfg.wf with
  | false => simp [step, hc] at h
  | true =>
    refine ⟨rfl, ?_⟩
    cases he : s.events with
    | nil => simp [step, hc, takeEvent, he] at h
    | cons w rest =>
      refine ⟨w, rest, rfl, ?_⟩
      rw [step_eq hc he, performWord, rxContext_events] at h
      cases hd : decode (rxContext s) w with
      | ok i => rw [hd] at h; exact .inl ⟨i, rfl, h⟩
      | error e => rw [hd] at h; simp only [Host.Outcome.next.injEq] at h; exact .inr ⟨⟨e, rfl⟩, h.symm⟩

/-- Every operation answers a next state: TICK in an admitted configuration or the reserved state, the others always. -/
theorem exec_next (i : Instr) {s : State} (hc : s.cfg.wf = true) : ∃ t, exec i s = .next t := by
  cases i with
  | rxDrop d => simp only [exec, execRxDrop]; split <;> exact ⟨_, rfl⟩
  | btn => simp only [exec, execBtn]; split <;> exact ⟨_, rfl⟩
  | pwrOff => simp only [exec, execPwrOff]; split <;> exact ⟨_, rfl⟩
  | tick =>
    by_cases hr : s.powered = true ∧ s.clDevState = .reserved
    · exact ⟨_, execTick_reserved hr.1 hr.2⟩
    · obtain ⟨t, h, -⟩ := execTick_cases hc (fun hp hd => hr ⟨hp, hd⟩)
      exact ⟨t, h⟩
  | rxOff d => exact ⟨_, rfl⟩
  | rxSentinel => exact ⟨_, rfl⟩
  | rxIgnored d => exact ⟨_, rfl⟩
  | rxKey d => exact ⟨_, rfl⟩
  | rxKeyLast d => exact ⟨_, rfl⟩
  | pwrOn => exact ⟨_, rfl⟩

/-- What every step keeps or only extends: the configuration, the rest of the events, the logs, the marks. -/
theorem step_fields {s t : State} (h : step s = .next t) :
   t.cfg = s.cfg ∧ t.events = s.events.tail ∧ s.txLog <+: t.txLog ∧ s.ksLog <+: t.ksLog ∧ s.hashLog <+: t.hashLog ∧ s.dispLog <+: t.dispLog ∧
   (∀ x, s.refused = some x → t.refused = some x) ∧ (∀ x, s.faulted = some x → t.faulted = some x) := by
  obtain ⟨hc, w, rest, he, (⟨i, -, h⟩ | ⟨-, rfl⟩)⟩ := step_next h
  · have := exec_fields (s := {s with events := rest}) hc h
    rw [he]; exact this
  · rw [he]; refine ⟨rfl, rfl, ?_, ?_, ?_, ?_, ?_, ?_⟩ <;> simp; intro x hx; simp [hx]


/-- No step: the state itself. -/
theorem run_zero (s : State) : core.run 0 s = .next s := rfl

/-- A run whose first step answers a next state goes on from it. -/
theorem run_succ {s t : State} (k : Nat) (h : step s = .next t) : core.run (k + 1) s = core.run k t := by
  have h' : core.step s = .next t := h
  simp only [Host.Core.run]
  rw [h']

/-- A run is cut at any of its states. -/
theorem run_add {s t : State} (j k : Nat) (h : core.run j s = .next t) : core.run (j + k) s = core.run k t := by
  induction j generalizing s with
  | zero =>
    have h' : (Host.Outcome.next s : Host.Outcome State Fault Refusal) = .next t := h
    rw [Host.Outcome.next.injEq] at h'
    rw [h', Nat.zero_add]
  | succ j ih =>
    rw [show j + 1 + k = (j + k) + 1 by omega]
    cases hs : step s with
    | next u => rw [run_succ (j + k) hs]; exact ih (by rwa [run_succ j hs] at h)
    | fault r =>
      have h' : core.step s = .fault r := hs
      simp [Host.Core.run, h'] at h
    | refused r =>
      have h' : core.step s = .refused r := hs
      simp [Host.Core.run, h'] at h

/-- `withFetchWord` does what it is for: the next step runs the operation `decodeTableWord` reads. -/
theorem step_withFetchWord (s : State) {nbits w : Nat} {i : Instr} (hc : s.cfg.wf = true)
    (h : decodeTableWord nbits w = some i) :
    ∃ t, step (s.withFetchWord nbits w) = exec i t ∧ t.events = s.events := by
  unfold decodeTableWord at h
  split at h
  · next hn =>
    have hw : w % 2 ^ nbits = w := Nat.mod_eq_of_lt hn.2
    split at h
    · next j hj =>
      simp only [Option.some.injEq] at h
      subst h
      unfold State.withFetchWord
      rw [hw]
      dsimp only
      split
      · next hk =>
        refine ⟨_, step_exec (rest := s.events) hc rfl ?_, rfl⟩
        rcases decode_ok hj with ⟨rfl, -⟩ | ⟨rfl, h'⟩ | ⟨rfl, h'⟩ | ⟨rfl, h'⟩ | ⟨rfl, h'⟩
        · have hf := eventWord_fields (BitVec.ofNat 16 w)
          rw [hk] at hf
          rw [← hf, decode_rx, dataOf_eventWord]
          simp [selectRx, rxContext, RxContext.listeningIdle]
        all_goals (rw [h'] at hk; exact absurd hk (by decide))
      · next hk =>
        refine ⟨_, step_exec (rest := s.events) hc rfl ?_, rfl⟩
        rcases decode_ok hj with ⟨-, h'⟩ | ⟨rfl, h'⟩ | ⟨rfl, h'⟩ | ⟨rfl, h'⟩ | ⟨rfl, h'⟩
        · exact absurd h' hk
        all_goals (rw [h']; rfl)
    · simp at h
  · simp at h

end Sys2Proof.Machine
end

