-- ==== Sys2Proof/Tests/Slice0.lean ====
section
/-! SUPPORT. The model's own tests: the well-formedness smoke, decoding and encoding of words written out from spec/30_encoding.md, the vectors
of spec/95_test_vectors.md that take one step, and for every obligation with hypotheses a witness that meets them. -/
open Sys2Proof Sys2Proof.Machine Sys2Proof.Claims

namespace Sys2Proof.Tests

/-! ### Well-formedness: each check refuses an ill-formed term -/

theorem test_wf_ignored_sentinel : (Instr.rxIgnored 0xAA).wf = false := by decide
theorem test_wf_config_taken : Config.taken.wf = true := by decide
theorem test_wf_keyLen_low : { Config.taken with keyLen := 0 }.wf = false := by decide
theorem test_wf_keyLen_high : { Config.taken with keyLen := 65 }.wf = false := by decide
theorem test_wf_digestLen_sha1 : { Config.taken with digestLen := 32 }.wf = false := by decide
theorem test_wf_digestLen_sha256 : { Config.taken with hashAlg := .sha256 }.wf = false := by decide
theorem test_wf_timestep : { Config.taken with timestep := 0 }.wf = false := by decide
theorem test_wf_tps : { Config.taken with tps := 0 }.wf = false := by decide
theorem test_wf_listenPeriod : { Config.taken with listenPeriodTicks := 0 }.wf = false := by decide
theorem test_wf_listenWindow : { Config.taken with listenWindowTicks := 0 }.wf = false := by decide
theorem test_wf_listen_continuous :
    { Config.taken with listenMode := .continuous, listenPeriodTicks := 0, listenWindowTicks := 0 }.wf = true := by decide
theorem test_wf_displayTicks : { Config.taken with displayTicks := 0 }.wf = false := by decide
theorem test_wf_display_windowEnd :
    { Config.taken with displayMode := .windowEnd, displayTicks := 0 }.wf = true := by decide

/-! ### Decoding and encoding: the words of R73 bit by bit, K in bits 15:8 and D in bits 7:0 -/

/-- A context: powered, listening, collecting, last key byte. -/
def ctx (p l c k : Bool) : RxContext := ⟨p, l, c, k⟩

theorem test_decode_rxOff : decode (ctx false true true true) 0b00000001_10101010 = .ok (.rxOff 0xAA) := by decide
theorem test_decode_rxDrop : decode (ctx true false false false) 0b00000001_10101010 = .ok (.rxDrop 0xAA) := by decide
theorem test_decode_rxSentinel : decode (ctx true true false false) 0b00000001_10101010 = .ok .rxSentinel := by decide
theorem test_decode_rxIgnored : decode (ctx true true false true) 0b00000001_00000111 = .ok (.rxIgnored 0x07) := by decide
theorem test_decode_rxKey : decode (ctx true true true false) 0b00000001_10101010 = .ok (.rxKey 0xAA) := by decide
theorem test_decode_rxKeyLast : decode (ctx true true true true) 0b00000001_11000001 = .ok (.rxKeyLast 0xC1) := by decide
theorem test_decode_btn : decode (ctx true true false false) 0b00000010_00000000 = .ok .btn := by decide
theorem test_decode_tick : decode (ctx true true false false) 0b00000011_00000000 = .ok .tick := by decide
theorem test_decode_pwrOff : decode (ctx true true false false) 0b00000100_00000000 = .ok .pwrOff := by decide
theorem test_decode_pwrOn : decode (ctx false false false false) 0b00000101_00000000 = .ok .pwrOn := by decide
theorem test_decode_reserved_kinds :
    decodeEvent 0x0000 = .error (.reservedKind 0x00) ∧ decodeEvent 0x0600 = .error (.reservedKind 0x06) ∧
    decodeEvent 0xFFAA = .error (.reservedKind 0xFF) := by decide
theorem test_decode_nonzero_data :
    decodeEvent 0x0201 = .error (.nonzeroData 0x02 0x01) ∧ decodeEvent 0x0580 = .error (.nonzeroData 0x05 0x80) := by decide
theorem test_encode :
    encode (.rxOff 0x55) = 0b00000001_01010101 ∧ encode (.rxDrop 0x80) = 0b00000001_10000000 ∧
    encode .rxSentinel = 0b00000001_10101010 ∧ encode (.rxIgnored 0x01) = 0b00000001_00000001 ∧
    encode (.rxKey 0xF0) = 0b00000001_11110000 ∧ encode (.rxKeyLast 0x0F) = 0b00000001_00001111 ∧
    encode .btn = 0b00000010_00000000 ∧ encode .tick = 0b00000011_00000000 ∧
    encode .pwrOff = 0b00000100_00000000 ∧ encode .pwrOn = 0b00000101_00000000 := by decide
theorem test_decodeTableWord :
    decodeTableWord 16 0x01AA = some .rxSentinel ∧ decodeTableWord 16 0x0107 = some (.rxIgnored 0x07) ∧
    decodeTableWord 16 0x0200 = some .btn ∧ decodeTableWord 16 0x0300 = some .tick ∧
    decodeTableWord 16 0x0400 = some .pwrOff ∧ decodeTableWord 16 0x0500 = some .pwrOn ∧
    decodeTableWord 16 0x0600 = none ∧ decodeTableWord 16 0x0201 = none := by decide

/-! ### States: spec/95_test_vectors.md's start states and smaller ones -/

/-- K_RFC: ASCII "12345678901234567890". -/
def keyRfc : List Byte :=
  [0x31, 0x32, 0x33, 0x34, 0x35, 0x36, 0x37, 0x38, 0x39, 0x30, 0x31, 0x32, 0x33, 0x34, 0x35, 0x36, 0x37, 0x38, 0x39, 0x30]

/-- A powered device in home-independent state `d` whose Key Store holds `key` and whose pads are the key's. -/
def device (c : Config) (key : List Byte) (d : DevState) : State :=
  { State.fresh c (key.zipIdx.map fun p => (p.2, p.1)) 0 0 with
    powered := true, oeIpad := padOf c 0x36 key, oeOpad := padOf c 0x5C key, oePadsValid := true, clDevState := d }

/-- The P-vectors' start: powered, LISTENING, `cl_listen_timer` = 3000, IDLE, Key Store K_RFC. -/
def listening : State := { device Config.taken keyRfc .listening with clListenTimer := 3000 }

/-- A small configuration: two key bytes, two ticks a second, windows of two seconds, short timers. -/
def small : Config :=
  { Config.taken with keyLen := 2, tps := 2, timestep := 2, listenPeriodTicks := 3, listenWindowTicks := 2, displayTicks := 2 }

/-- Small devices in each state. -/
def dormant : State := { device small [0x31, 0x32] .dormant with tcSec := 5, tcFrac := 1, clListenTimer := 1 }
def idle : State := { device small [0x31, 0x32] .listening with tcSec := 5, tcFrac := 1, clListenTimer := 1 }
def collecting : State := { idle with pfState := .collecting, pfIdx := 1, pfBuf := [0x41, 0x00], pfTimer := 1 }
def displaying : State :=
  { device small [0x31, 0x32] .displaying with
    tcSec := 5, tcFrac := 1, oeCode := 287082, oeCodeValid := true, clDisplayText := digits6 287082, clDisplayEn := true
    clDispTimer := 1, clDispWindow := 2 }
def unpowered : State := { State.fresh small [] 5 1 with clDevState := .dormant }

/-- The invariant, from its parts as one decidable proposition. -/
theorem invariant_of {s : State}
    (r : s.cfg.wf = true ∧ Memory.wf s.ks = true ∧ Memory.within s.cfg.keyLen s.ks = true ∧
      s.tcSec.toNat < s.cfg.timeModulus ∧ s.tcFrac < s.cfg.tps ∧ s.pfBuf.length = s.cfg.keyLen ∧
      s.oeIpad.length = blockLen ∧ s.oeOpad.length = blockLen ∧
      (s.powered = false → s.clDisplayEn = false ∧ s.clDisplayText = []))
    (p : s.powered = true →
      (s.pfState = .collecting → s.clDevState = .listening) ∧
      (s.pfState = .collecting → s.pfIdx ≤ s.cfg.keyLen - 1 ∧ 1 ≤ s.pfTimer ∧ s.pfTimer ≤ s.cfg.provTimeoutTicks) ∧
      (s.pfState = .idle → s.pfIdx = 0 ∧ s.pfBuf = List.replicate s.cfg.keyLen 0x00) ∧
      (s.clDevState = .displaying → s.clDisplayEn = true ∧ s.oeCodeValid = true ∧ s.clDisplayText = digits6 s.oeCode.toNat) ∧
      (s.clDevState = .displaying → s.cfg.displayMode = .flat → 1 ≤ s.clDispTimer ∧ s.clDispTimer ≤ s.cfg.displayTicks) ∧
      (s.oePadsValid = true →
        s.oeIpad = padOf s.cfg 0x36 (keyStoreBytes s) ∧ s.oeOpad = padOf s.cfg 0x5C (keyStoreBytes s)) ∧
      s.clDevState ≠ .reserved ∧
      (s.clDevState ≠ .displaying → s.clDisplayEn = false ∧ s.clDisplayText = []) ∧
      s.oeCode.toNat < 1000000 ∧
      (s.cfg.listenMode = .periodic → s.clDevState = .dormant →
        1 ≤ s.clListenTimer ∧ s.clListenTimer ≤ s.cfg.listenPeriodTicks) ∧
      (s.cfg.listenMode = .periodic → s.clDevState = .listening → s.clListenTimer ≤ s.cfg.listenWindowTicks) ∧
      (s.cfg.listenMode = .continuous → s.clListenTimer = 0)) : Invariant s := by
  obtain ⟨r1, r2, r3, r4, r5, r6, r7, r8, r9⟩ := r
  refine ⟨⟨r1, r2, r3, r4, r5, r6, r7, r8, r9⟩, fun h => ?_⟩
  obtain ⟨p1, p2, p3, p4, p5, p6, p7, p8, p9, p10, p11, p12⟩ := p h
  exact ⟨p1, p2, p3, p4, p5, p6, p7, p8, p9, p10, p11, p12⟩

theorem dormant_inv : Invariant dormant := invariant_of (by decide) (by decide)
theorem idle_inv : Invariant idle := invariant_of (by decide) (by decide)
theorem collecting_inv : Invariant collecting := invariant_of (by decide) (by decide)
theorem displaying_inv : Invariant displaying := invariant_of (by decide) (by decide)
theorem unpowered_inv : Invariant unpowered := invariant_of (by decide) (by decide)

/-- A field of a next state. -/
def field {α : Type} (o : Host.Outcome State Fault Refusal) (f : State → α) : Option α :=
  match o with
  | .next t => some (f t)
  | _ => none

/-! ### One step of each operation (spec/95_test_vectors.md) -/

/-- F11. -/
theorem test_rxOff : exec (.rxOff 0xAA) unpowered = .next unpowered ∧ status unpowered = 0 := ⟨rfl, by decide⟩
/-- F10: in DORMANT with K_RFC stored, the dropped sentinel leaves STATUS 0x00001900. -/
theorem test_rxDrop : field (exec (.rxDrop 0xAA) (device Config.taken keyRfc .dormant)) status = some 0x00001900 := by decide
/-- F2. -/
theorem test_rxSentinel :
    field (exec .rxSentinel listening) (fun t => (t.pfState, t.pfIdx, t.pfTimer)) = some (.collecting, 0, 2000) := by decide
/-- F1: 0x0A and 0x00 are one digit. -/
theorem test_rxIgnored_one_digit :
    field (exec (.rxIgnored 0x0A) listening) (·.txLog) =
      some [0x49, 0x67, 0x6E, 0x6F, 0x72, 0x65, 0x64, 0x20, 0x48, 0x65, 0x78, 0x3A, 0x20, 0x41, 0x0D, 0x0A] := by decide
/-- F1: 0x3F is two digits. -/
theorem test_rxIgnored_two_digits :
    field (exec (.rxIgnored 0x3F) listening) (·.txLog) =
      some [0x49, 0x67, 0x6E, 0x6F, 0x72, 0x65, 0x64, 0x20, 0x48, 0x65, 0x78, 0x3A, 0x20, 0x33, 0x46, 0x0D, 0x0A] := by decide
/-- R155's example with F3's STATUS: the fifth key byte 0x31. -/
theorem test_rxKey :
    field (exec (.rxKey 0x31) { listening with pfState := .collecting, pfIdx := 4 })
      (fun t => (t.pfBuf.take 6, status t)) = some ([0x00, 0x00, 0x00, 0x00, 0x31, 0x00], 0x00051165) := by decide
/-- F12: with N = 1 the byte after the sentinel commits the 1-byte key 7E. -/
theorem test_rxKeyLast_one_byte :
    field (exec (.rxKeyLast 0x7E) { device { Config.taken with keyLen := 1 } [0x31] .listening with pfState := .collecting })
      (fun t => (t.txLog, t.ksLog, Memory.read t.ks 0)) =
      some ([0x4B, 0x65, 0x79, 0x20, 0x73, 0x61, 0x76, 0x65, 0x64, 0x3A, 0x20, 0x7E, 0x0D, 0x0A], [(0, 0x7E)], 0x7E) := by
  decide
/-- F5: K_RFC with byte 5 = 0x41 and byte 19 = 0x42 makes two physical writes. -/
theorem test_rxKeyLast_two_writes :
    field (exec (.rxKeyLast 0x42)
      { listening with pfState := .collecting, pfIdx := 19, pfBuf := (keyRfc.set 5 0x41).set 19 0x00 }) (·.ksLog) =
      some [(5, 0x41), (19, 0x42)] := by decide
/-- C1. -/
theorem test_btn : field (exec .btn dormant) (fun t => (t.clPendingWake, t.clDevState)) = some (true, .dormant) := by decide
/-- T1: TPS = 1000, (29, 999) and a tick give (30, 0), and the window goes to 1. -/
theorem test_tick_carries :
    field (exec .tick { listening with tcSec := 29, tcFrac := 999 })
      (fun t => (t.tcSec, t.tcFrac, window t.cfg t.tcSec)) = some (30, 0, 1) := by decide
/-- C7: the last tick of a FLAT display blanks it and goes home to DORMANT with the whole listen period. -/
theorem test_tick_ends_display :
    field (exec .tick { device Config.taken keyRfc .displaying with clDisplayEn := true, clDispTimer := 1 })
      (fun t => (t.dispLog, t.clDevState, t.clListenTimer, t.clDisplayEn)) =
      some ([.blank], .dormant, 10000, false) := by decide
/-- B6: a power-off emits nothing, a display in progress goes dark. -/
theorem test_pwrOff :
    field (exec .pwrOff displaying) (fun t => (t.powered, t.dispLog, t.clDisplayText, t.txLog)) =
      some (false, [.blank], [], []) := by decide
/-- B2: a store FF 00 is zeroed by one physical write. -/
theorem test_pwrOn_zero_initialises :
    field (exec .pwrOn { unpowered with ks := [(1, 0x00)] })
      (fun t => (t.ksLog, t.oePadsValid, t.clDevState, t.oeIpad.take 2)) =
      some ([(0, 0x00)], true, .dormant, [0x36, 0x36]) := by decide
/-- B4: the first read fails. -/
theorem test_pwrOn_read_fails :
    field (exec .pwrOn { State.fresh { Config.taken with ksFaultModel := .draw } (keyRfc.zipIdx.map fun p => (p.2, p.1)) 0 0
      with ksDraws := [true] }) status = some 0x00001400 := by decide

/-! ### Shared operations and values -/

/-- T3: TW = 32 wraps. -/
theorem test_time_wraps :
    ((timeTick { listening with cfg := { Config.taken with timeWidth := .w32 }, tcSec := 4294967295, tcFrac := 999 }).tcSec,
     (timeTick { listening with cfg := { Config.taken with timeWidth := .w32 }, tcSec := 4294967295, tcFrac := 999 }).tcFrac)
      = (0, 0) := by decide
/-- T7. -/
theorem test_prov_timeout :
    ([1000, 32768, 1, 3].map fun n => { Config.taken with tps := n }.provTimeoutTicks) = [2000, 65536, 2, 6] := by decide
/-- T8. -/
theorem test_window : ([0, 29, 30, 59, 60].map fun t => window Config.taken t) = [0, 0, 1, 1, 2] := by decide
/-- E12: offset 15 of a SHA-1 digest. -/
theorem test_truncate_offset_15 :
    truncate 20 [0xbb, 0x3f, 0xaf, 0xd7, 0xac, 0xb8, 0xdd, 0x43, 0x54, 0x28, 0x93, 0x2c, 0xd0, 0xf3, 0xd0, 0x19, 0xda, 0x7d,
      0xbf, 0x9f] = .ok 749439 := by decide
/-- R111's worked example: offset 0, the top bit masked, code 755224 (R109, R110). -/
theorem test_truncate_masks :
    truncate 20 [0xcc, 0x93, 0xcf, 0x18, 0x50, 0x8d, 0x94, 0x93, 0x4c, 0x64, 0xb6, 0x5d, 0x8b, 0xa7, 0x66, 0x7f, 0xb7, 0xcd,
      0xe4, 0xb0] = .ok 755224 := by decide
/-- R213: a digest too short for its offset. -/
theorem test_truncate_overflow : truncate 4 [0x00, 0x00, 0x00, 0x01] = .error .offsetOverflow := by decide
/-- R51: outside the Key Store an update is refused also where the byte compared would be equal. -/
theorem test_ksUpdate_outside : (ksUpdate idle 2 0xFF).refused = some (.ksIndex 2) := by decide
/-- R82's example. -/
theorem test_digits : digits6 26920 = [0x30, 0x32, 0x36, 0x39, 0x32, 0x30] := by decide
/-- R105's example. -/
theorem test_counter_bytes : counterBytes (window Config.taken 59) = [0, 0, 0, 0, 0, 0, 0, 1] := by decide
/-- R102's example: the pads of K_RFC. -/
theorem test_pads :
    ((padOf Config.taken 0x36 keyRfc).take 4, (padOf Config.taken 0x36 keyRfc).drop 62,
     (padOf Config.taken 0x5C keyRfc).take 4, (padOf Config.taken 0x5C keyRfc).drop 62) =
      ([0x07, 0x04, 0x05, 0x02], [0x36, 0x36], [0x6D, 0x6E, 0x6F, 0x68], [0x5C, 0x5C]) := by decide
/-- N3. -/
theorem test_code_word : codeWord { listening with oeCode := 755224 } = 0x000B8618 := by decide
/-- N2: WAIT_MS 2500 at TPS = 32768. -/
theorem test_wait_ms : msTicks { Config.taken with tps := 32768 } 2500 = 81920 := by decide
/-- N1 and R87: a program's words; comments, both spellings of a byte. -/
theorem test_transcribe :
    transcribe small "PWR_ON ; boot\nRX 0xAA\nRX 7\n\nBTN\nTICKS 2\nFRAME 0x1 2\nSEND \"A;\"".toList =
      .ok [0x0500, 0x01AA, 0x0107, 0x0200, 0x0300, 0x0300, 0x01AA, 0x0101, 0x0102, 0x0141, 0x013B] := by decide
/-- R88: the line and the reason of a refusal. -/
theorem test_transcribe_refuses :
    transcribe small "TICK\nBTN 1".toList = .error ⟨2, .operandNotAllowed⟩ ∧
    transcribe small "RX 256".toList = .error ⟨1, .rxOperands⟩ ∧ transcribe small "NOP".toList = .error ⟨1, .unknownMnemonic⟩ ∧
    transcribe small "TICKS 0".toList = .error ⟨1, .ticksZero⟩ ∧ transcribe small "FRAME 1".toList = .error ⟨1, .frameLength⟩ ∧
    transcribe small "PARTIAL 1 2".toList = .error ⟨1, .partialLength⟩ := by decide

/-! ### Steps -/

/-- B7. -/
theorem test_step_reserved :
    field (step { listening with events := [0x0600] }) (fun t => (t.refused, t.events, t.pfState)) =
      some (some (.reservedEvent 0x0600), [], .idle) := by decide
/-- The words of the table run as the first operation after reset. -/
theorem test_first_words :
    field (step (State.reset.withFetchWord 16 0x01AA)) (·.pfState) = some .collecting ∧
    field (step (State.reset.withFetchWord 16 0x0107)) (fun t => t.txLog.length) = some 16 ∧
    field (step (State.reset.withFetchWord 16 0x0200)) (·.clPendingWake) = some false ∧
    field (step (State.reset.withFetchWord 16 0x0300)) (·.tcFrac) = some 1 ∧
    field (step (State.reset.withFetchWord 16 0x0400)) (·.powered) = some false ∧
    field (step (State.reset.withFetchWord 16 0x0500)) (·.powered) = some true := by decide

/-! ### Witnesses: states and operands that meet every hypothesis of the obligation named -/

theorem witness_DecodeAndEncodeAgree :
    ((Instr.rxIgnored 0xAB).wf = true ∧ (ctx true true false false).admits (.rxIgnored 0xAB) = true) ∧
    decode (ctx true true true true) 0x01AA = .ok (.rxKeyLast 0xAA) := by decide

theorem witness_EventKindsAndReservedWords :
    kindOf 0x01FF = 0x01 ∧ (kindOf 0x0200 = 0x02 ∧ dataOf 0x0200 = 0x00) ∧ (kindOf 0x0300 = 0x03 ∧ dataOf 0x0300 = 0x00) ∧
    (kindOf 0x0400 = 0x04 ∧ dataOf 0x0400 = 0x00) ∧ (kindOf 0x0500 = 0x05 ∧ dataOf 0x0500 = 0x00) ∧
    idle.cfg.wf = true ∧ Next { idle with events := [0x0600] } 0x0600 [] ∧
    Reserved 0x0000 ∧ Reserved 0x0600 ∧ Reserved 0xFF00 ∧ Reserved 0x0201 ∧ Reserved 0x05FF := by decide

theorem witness_StepRunsTheDecodedOperation :
    idle.cfg.wf = true ∧ Next { idle with events := [0x0141] } 0x0141 [] ∧
    decode (rxContext { idle with events := [0x0141] }) 0x0141 = .ok (.rxIgnored 0x41) := by decide

/-- Every clause, and both sides of the bounds on the data and on the index. -/
theorem witness_RxDispatchOrder :
    Next { idle with events := [0x01AA] } (eventWord 0x01 0xAA) [] ∧ idle.cfg.wf = true ∧
    unpowered.powered = false ∧ (dormant.powered = true ∧ dormant.clDevState ≠ .listening) ∧
    (idle.powered = true ∧ idle.clDevState = .listening ∧ idle.pfState = .idle) ∧ (0xAB : Byte) ≠ 0xAA ∧
    (collecting.powered = true ∧ collecting.clDevState = .listening ∧ collecting.pfState = .collecting ∧
      ¬ collecting.pfIdx < collecting.cfg.keyLen - 1) ∧
    { collecting with pfIdx := 0 }.pfIdx < collecting.cfg.keyLen - 1 := by decide

theorem witness_EveryEventIsAccepted :
    idle.cfg.wf = true ∧ Next { idle with events := [0x0600] } 0x0600 [] ∧ idle.events = [] := by decide

/-- Both refusals a step can end in. -/
theorem witness_EveryEventIsAccepted_refusals :
    step idle = .refused .noEvent ∧ step { idle with cfg := { small with tps := 0 } } = .refused .configuration := ⟨rfl, rfl⟩

theorem witness_RxOffChangesNothing : unpowered.powered = false ∧ unpowered.cfg.wf = true := by decide

theorem witness_UnpoweredIgnoresRxButtonAndPowerOff :
    unpowered.cfg.wf = true ∧ unpowered.powered = false ∧ Next { unpowered with events := [0x01AA] } 0x01AA [] ∧
    kindOf 0x01AA = 0x01 ∧ (0x0200 : EventWord) = encode .btn ∧ (0x0400 : EventWord) = encode .pwrOff := by decide

theorem witness_RxDropSetsTheStickyBit :
    dormant.powered = true ∧ dormant.clDevState = .dormant ∧ displaying.powered = true ∧
    displaying.clDevState = .displaying ∧ dormant.cfg.wf = true := by decide

theorem witness_ReservedDeviceStateIsAFault :
    { dormant with clDevState := .reserved }.powered = true ∧ { dormant with clDevState := .reserved }.clDevState = .reserved := by
  decide

theorem witness_RxIgnoredEchoesTheByte :
    idle.powered = true ∧ idle.clDevState = .listening ∧ idle.pfState = .idle ∧ (0xAB : Byte) ≠ 0xAA ∧ idle.cfg.wf = true := by
  decide

/-- The boundary of one and two digits. -/
theorem witness_HexEchoSpellsTheByte : (0x0F : Byte).toNat < 16 ∧ 16 ≤ (0x10 : Byte).toNat := by decide

theorem witness_RxSentinelStartsAFrame :
    idle.powered = true ∧ idle.clDevState = .listening ∧ idle.pfState = .idle ∧ idle.cfg.wf = true := by decide

theorem witness_RxKeyStoresOneByte :
    collecting.powered = true ∧ collecting.clDevState = .listening ∧ collecting.pfState = .collecting ∧
    { collecting with pfIdx := 0 }.pfIdx < collecting.cfg.keyLen - 1 ∧ collecting.cfg.wf = true := by decide

theorem witness_RxKeyLastCommitsTheFrame :
    collecting.cfg.wf = true ∧ collecting.powered = true ∧ collecting.clDevState = .listening ∧
    collecting.pfState = .collecting ∧ collecting.pfIdx = collecting.cfg.keyLen - 1 ∧
    collecting.pfBuf.length = collecting.cfg.keyLen ∧ Memory.wf collecting.ks = true := by decide

theorem witness_CommitWritesOnlyDifferingBytes :
    collecting.cfg.wf = true ∧ collecting.pfBuf.length = collecting.cfg.keyLen ∧ Memory.wf collecting.ks = true := by decide

theorem witness_FramerTickCountsTheDeadline :
    (idle.cfg.wf = true ∧ idle.powered = true ∧ idle.clDevState = .listening ∧ idle.pfState = .idle) ∧
    (collecting.pfState = .collecting ∧ collecting.pfTimer = 1) ∧ 1 < { collecting with pfTimer := 2 }.pfTimer := by decide

theorem witness_FullFrameProvisionsItsKey :
    Invariant { idle with events := frameWords [0xAA, 0xFF] ++ [0x0300] } ∧ idle.powered = true ∧
    idle.clDevState = .listening ∧ idle.pfState = .idle ∧ ([0xAA, 0xFF] : List Byte).length = idle.cfg.keyLen :=
  ⟨invariant_of (by decide) (by decide), by decide⟩

theorem witness_PartialFrameTimesOut :
    Invariant { collecting with events := List.replicate collecting.pfTimer (encode .tick) ++ [0x0200] } ∧
    collecting.powered = true ∧ collecting.pfState = .collecting ∧ 0 < collecting.pfTimer :=
  ⟨invariant_of (by decide) (by decide), by decide⟩

/-- A commit, a boot that writes, and a step that leaves the store alone. -/
theorem witness_KeyStoreChangesOnlyAtCommitAndBoot :
    Next { collecting with events := [0x0142] } 0x0142 [] ∧
    field (step { collecting with events := [0x0142] }) (·.ksLog) = some [(0, 0x41), (1, 0x42)] ∧
    field (step { unpowered with events := [0x0500] }) (·.ksLog) = some [(0, 0x00), (1, 0x00)] ∧
    field (step { idle with events := [0x0200] }) (·.ksLog) = some [] := by decide

theorem witness_KsUpdateWritesOnlyAChange :
    1 < idle.cfg.keyLen ∧ Memory.wf idle.ks = true ∧ Memory.read idle.ks 1 = 0x32 ∧ Memory.read idle.ks 1 ≠ 0xFF := by decide

theorem witness_ComputePadsXorsTheKey : ([0x31, 0x32] : List Byte).length = idle.cfg.keyLen ∧ idle.cfg.wf = true := by decide

theorem witness_CounterBytesAreBigEndian : 1 ≤ small.timestep ∧ 1 ≤ Config.taken.timestep := by decide

theorem witness_TruncationSelectsMasksAndReduces :
    (List.replicate 20 (0x0F : Byte)).length = 20 ∧ (List.replicate 32 (0x0F : Byte)).length = 32 ∧
    ([0x00, 0x00, 0x00, 0x01] : List Byte).length - 1 <
      (byteAt [0x00, 0x00, 0x00, 0x01] (([0x00, 0x00, 0x00, 0x01] : List Byte).length - 1)).toNat % 16 + 3 := by decide

theorem witness_GenerateIssuesEightCommands :
    dormant.cfg.wf = true ∧ dormant.oePadsValid = true ∧ { dormant with oePadsValid := false }.oePadsValid = false := by decide

/-- Two times of one window, in two devices that differ in their Key Stores. -/
theorem witness_CodeDependsOnPadsAndWindowOnly :
    dormant.cfg = { dormant with ks := [] }.cfg ∧ dormant.oeIpad = { dormant with ks := [] }.oeIpad ∧
    dormant.oeOpad = { dormant with ks := [] }.oeOpad ∧ dormant.oePadsValid = { dormant with ks := [] }.oePadsValid ∧
    (4 : BitVec 64).toNat / dormant.cfg.timestep = (5 : BitVec 64).toNat / dormant.cfg.timestep := by decide

theorem witness_DisplayShowsTheHotpOfTheStoredKey :
    Invariant { dormant with clPendingWake := true } ∧ dormant.powered = true ∧ dormant.oePadsValid = true ∧
    WakeServed { dormant with clPendingWake := true } ∧ WakeServed { idle with clPendingWake := true } :=
  ⟨invariant_of (by decide) (by decide), by decide⟩

theorem witness_DigitsSpellTheCode : 0 < 1000000 ∧ 999999 < 1000000 ∧ (0x30 : Byte) ∈ digits6 0 := by decide

theorem witness_InvalidPadsShowNothing :
    Invariant { dormant with oePadsValid := false, clPendingWake := true } ∧ dormant.powered = true ∧
    WakeServed { dormant with oePadsValid := false, clPendingWake := true } :=
  ⟨invariant_of (by decide) (by decide), by decide⟩

theorem witness_TickAdvancesTheCounter :
    (dormant.cfg.wf = true ∧ dormant.powered = true ∧ dormant.clDevState ≠ .reserved) ∧ unpowered.powered = false := by decide

/-- The four outcomes: unchanged, one more, a PWR_ON under UPTIME, the wrap. -/
theorem witness_TimeIsMonotone :
    Next { idle with events := [0x0200] } 0x0200 [] ∧ idle.tcSec.toNat < idle.cfg.timeModulus ∧
    field (step { idle with events := [0x0200] }) (·.tcSec) = some 5 ∧
    field (step { idle with events := [0x0300] }) (·.tcSec) = some 6 ∧
    field (step { idle with events := [0x0500], cfg := { small with timeStrategy := .uptime } }) (·.tcSec) = some 0 ∧
    field (step { idle with events := [0x0300], tcSec := 0xFFFFFFFFFFFFFFFF }) (·.tcSec) = some 0 := by decide

/-- A tick that opens a window and one that does not. -/
theorem witness_WindowAdvancesAtMultiplesOfTheTimestep :
    idle.cfg.wf = true ∧ idle.tcSec.toNat + 1 < idle.cfg.timeModulus ∧
    field (exec .tick idle) (fun t => (t.tcSec, window t.cfg t.tcSec)) = some (6, 3) ∧ window idle.cfg idle.tcSec = 2 ∧
    field (exec .tick { idle with tcSec := 6 }) (fun t => (t.tcSec, window t.cfg t.tcSec)) = some (7, 3) := by decide

theorem witness_ProvTimeoutIsTheLeastTickCount : 2000 * small.tps ≤ 4 * 1000 ∧ ¬ 2000 * small.tps ≤ 3 * 1000 := by decide

theorem witness_ButtonOnlySetsThePendingWake :
    idle.powered = true ∧ unpowered.powered = false ∧ idle.cfg.wf = true := by decide

theorem witness_HeldButtonMakesOneDisplay :
    Invariant { dormant with events := List.replicate (2 + 1) (encode .btn) ++ encode .tick :: [] } ∧ dormant.powered = true ∧
    dormant.clDevState = .dormant ∧ dormant.oePadsValid = true :=
  ⟨invariant_of (by decide) (by decide), by decide⟩

theorem witness_WakeStartsTheDisplay :
    Invariant { idle with clPendingWake := true } ∧ idle.powered = true ∧ idle.oePadsValid = true ∧
    WakeServed { idle with clPendingWake := true } := ⟨invariant_of (by decide) (by decide), by decide⟩

/-- The invariant state of each clause: a wake, CONTINUOUS, the last tick of the period and one before it. -/
theorem witness_DormantPoll :
    Invariant { dormant with clPendingWake := true } ∧ Invariant dormant ∧ Invariant { dormant with clListenTimer := 2 } ∧
    Invariant { dormant with cfg := { small with listenMode := .continuous }, clListenTimer := 0 } ∧
    dormant.powered = true ∧ dormant.clDevState = .dormant ∧ dormant.clPendingWake = false ∧
    dormant.cfg.listenMode = .periodic ∧ dormant.clListenTimer = 1 :=
  ⟨invariant_of (by decide) (by decide), dormant_inv, invariant_of (by decide) (by decide),
    invariant_of (by decide) (by decide), by decide⟩

/-- The invariant state of each clause: a frame in flight, a wake, CONTINUOUS, the window's last tick and one before it. -/
theorem witness_ListeningPoll :
    Invariant { collecting with pfTimer := 2 } ∧ Invariant { idle with clPendingWake := true } ∧
    Invariant { idle with cfg := { small with listenMode := .continuous }, clListenTimer := 0 } ∧ Invariant idle ∧
    Invariant { idle with clListenTimer := 0 } ∧ Invariant { idle with clListenTimer := 2 } ∧
    idle.powered = true ∧ idle.clDevState = .listening ∧ idle.clListenTimer ≤ 1 :=
  ⟨invariant_of (by decide) (by decide), invariant_of (by decide) (by decide), invariant_of (by decide) (by decide), idle_inv,
    invariant_of (by decide) (by decide), invariant_of (by decide) (by decide), by decide⟩

theorem witness_TimeoutAndWakeInOneTick :
    Invariant { collecting with clPendingWake := true } ∧ collecting.powered = true ∧ collecting.pfState = .collecting ∧
    collecting.pfTimer = 1 ∧ collecting.oePadsValid = true := ⟨invariant_of (by decide) (by decide), by decide⟩

/-- The invariant state of each clause: FLAT with two ticks left and with one; WINDOW_END inside the window and at its end. -/
theorem witness_DisplayingPoll :
    Invariant { displaying with clDispTimer := 2 } ∧ Invariant displaying ∧
    Invariant { displaying with cfg := { small with displayMode := .windowEnd } } ∧
    displaying.powered = true ∧ displaying.clDevState = .displaying ∧ displaying.cfg.displayMode = .flat ∧
    field (exec .tick { displaying with cfg := { small with displayMode := .windowEnd } }) (·.clDevState) = some .dormant ∧
    field (exec .tick { displaying with cfg := { small with displayMode := .windowEnd }, tcSec := 4 }) (·.clDevState)
      = some .displaying :=
  ⟨invariant_of (by decide) (by decide), displaying_inv, invariant_of (by decide) (by decide), by decide⟩

theorem witness_FlatDisplayLastsItsTicks :
    Invariant { displaying with events := List.replicate displaying.clDispTimer (encode .tick) ++ [] } ∧
    displaying.powered = true ∧ displaying.clDevState = .displaying ∧ displaying.cfg.displayMode = .flat ∧
    0 < displaying.clDispTimer := ⟨invariant_of (by decide) (by decide), by decide⟩

theorem witness_FrameInFlightDefersTheWake :
    Invariant { collecting with pfTimer := 2, clPendingWake := true, events := [0x0300] } ∧ collecting.powered = true ∧
    collecting.pfState = .collecting ∧
    field (step { collecting with pfTimer := 2, clPendingWake := true, events := [0x0300] })
      (fun t => (t.powered, t.pfState, t.clPendingWake)) = some (true, .collecting, true) :=
  ⟨invariant_of (by decide) (by decide), by decide⟩

/-- A step that serves a wake (its code is that of an uninterpreted hash, so it is not evaluated). -/
theorem wake_step {s : State} {rest : List EventWord} (hc : s.cfg.wf = true) (he : s.events = 0x0300 :: rest)
    (hp : s.powered = true) (hv : s.oePadsValid = true) (hf : s.pfState = .idle)
    (hd : s.clDevState = .dormant ∨ s.clDevState = .listening) (hw : s.clPendingWake = true) :
    ∃ t, step s = .next t ∧ t.powered = true ∧ t.clDevState = .displaying ∧ t.hashLog.length = s.hashLog.length + 8 := by
  have hs : step s = exec .tick { s with events := rest } := step_exec (i := .tick) hc he rfl
  obtain ⟨t, ht, ⟨h, -⟩ | ⟨-, c⟩⟩ := execTick_cases (s := { s with events := rest }) hc
    (fun _ => by rcases hd with h | h <;> simp [h])
  · simp [hp] at h
  · refine ⟨t, hs.trans ht, c.frame.powered.trans ?_, ?_⟩ <;>
      rcases framed_cases { s with events := rest } with ⟨-, e⟩ | ⟨i, -, -⟩ | ⟨i, -, -⟩ <;> try simp [hf] at i
    · rw [e]; exact hp
    · rw [e] at c
      cases c with
      | wakeShown _ _ _ h => subst h; simp [displayed, presentCode, showText, generateLog]
      | _ => simp_all

/-- One step for each transition. -/
theorem witness_OnlyTheListedTransitions :
    Invariant dormant ∧ Invariant idle ∧ Invariant displaying ∧
    field (step { displaying with events := [0x0500] }) (fun t => (t.powered, t.clDevState)) = some (true, .dormant) ∧
    field (step { dormant with events := [0x0300] }) (·.clDevState) = some .listening ∧
    field (step { idle with events := [0x0300] }) (·.clDevState) = some .dormant ∧
    field (step { displaying with events := [0x0300] }) (·.clDevState) = some .dormant :=
  ⟨dormant_inv, idle_inv, displaying_inv, by decide⟩

/-- The transitions that serve a wake. -/
theorem witness_OnlyTheListedTransitions_wake :
    (∃ t, step { dormant with events := [0x0300], clPendingWake := true } = .next t ∧ t.powered = true ∧
      t.clDevState = .displaying ∧ t.hashLog.length = 8) ∧
    (∃ t, step { idle with events := [0x0300], clPendingWake := true } = .next t ∧ t.powered = true ∧
      t.clDevState = .displaying ∧ t.hashLog.length = 8) :=
  ⟨wake_step (by decide) rfl rfl rfl rfl (.inl rfl) rfl, wake_step (by decide) rfl rfl rfl rfl (.inr rfl) rfl⟩

theorem witness_EnablesOfEachPowerState :
    (Invariant unpowered ∧ unpowered.powered = false) ∧ (Invariant dormant ∧ dormant.powered = true ∧ dormant.clDevState = .dormant) ∧
    (Invariant idle ∧ idle.powered = true ∧ idle.clDevState = .listening) ∧
    (Invariant displaying ∧ displaying.powered = true ∧ displaying.clDevState = .displaying) :=
  ⟨⟨unpowered_inv, rfl⟩, ⟨dormant_inv, rfl, rfl⟩, ⟨idle_inv, rfl, rfl⟩, ⟨displaying_inv, rfl, rfl⟩⟩

theorem witness_ObservationWordFields :
    unpowered.powered = false ∧ idle.powered = true ∧ idle.pfIdx < 128 ∧ { idle with pfIdx := 127 }.pfIdx < 128 ∧
    (dormant.powered = true ∧ dormant.clDevState = .dormant) ∧ idle.clDevState = .listening ∧
    (displaying.powered = true ∧ displaying.clDevState = .displaying) ∧
    { dormant with clDevState := .reserved }.clDevState = .reserved := by decide

theorem witness_PowerOffDarkensTheDevice : unpowered.powered = false ∧ displaying.powered = true := by decide

theorem witness_PowerOnGivesTheResetValues :
    displaying.cfg.wf = true ∧ displaying.cfg.timeStrategy = .rtc ∧
    { small with timeStrategy := .uptime }.timeStrategy = .uptime := by decide

/-- NEVER and DRAW, an erased store and a key. -/
theorem witness_BootInitialisesAndDerivesThePads :
    unpowered.cfg.wf = true ∧ ReadsSucceed unpowered [] ∧ Memory.wf unpowered.ks = true ∧ Memory.read unpowered.ks 0 = 0xFF ∧
    ReadsSucceed { unpowered with cfg := { small with ksFaultModel := .draw }, ksDraws := [false, false, false, true] } [true] ∧
    Memory.read idle.ks 0 ≠ 0xFF := by decide

/-- The first read and the last read fail, on an erased store and on a key. -/
theorem witness_BootReadFailureDisablesTheEngine :
    { small with ksFaultModel := .draw }.wf = true ∧ { small with ksFaultModel := .draw }.ksFaultModel = .draw ∧
    Memory.wf unpowered.ks = true ∧ 0 ≤ small.keyLen ∧ 2 ≤ small.keyLen ∧
    ([true] : List Bool) = List.replicate 0 false ++ true :: [] ∧
    ([false, false, true] : List Bool) = List.replicate 2 false ++ true :: [] ∧
    Memory.read unpowered.ks 0 = 0xFF ∧ Memory.read idle.ks 0 ≠ 0xFF := by decide

theorem witness_PowerCycleKeepsKeyAndTime :
    Invariant { idle with events := encode .pwrOff :: (List.replicate 3 (encode .tick) ++ encode .pwrOn :: []) } ∧
    idle.powered = true ∧ idle.cfg.ksFaultModel = .never ∧ Memory.read idle.ks 0 ≠ 0xFF ∧ idle.cfg.timeStrategy = .rtc :=
  ⟨invariant_of (by decide) (by decide), by decide⟩

theorem witness_FreshDeviceMeetsTheInvariant :
    small.wf = true ∧ Memory.wf [(0, 0x31), (1, 0x32)] = true ∧ Memory.within small.keyLen [(0, 0x31), (1, 0x32)] = true ∧
    (0xFFFFFFFFFFFFFFFF : BitVec 64).toNat < small.timeModulus ∧ 1 < small.tps := by decide

theorem witness_EveryStepKeepsTheInvariant :
    Invariant { collecting with events := [0x0300] } ∧
    field (step { collecting with events := [0x0300] }) (·.pfState) = some .idle :=
  ⟨invariant_of (by decide) (by decide), by decide⟩

theorem witness_InvariantStatesNeverFault :
    Invariant { dormant with events := [0x0300] } ∧ Next { dormant with events := [0x0300] } 0x0300 [] ∧
    field (step { dormant with events := [0x0300] }) (·.clDevState) = some .listening ∧ ¬ Reserved 0x0300 :=
  ⟨invariant_of (by decide) (by decide), by decide⟩

theorem witness_ConfigurationNeverChanges : field (step { idle with events := [0x0500] }) (·.powered) = some true := by decide

theorem witness_LogsOnlyGrow :
    field (step { idle with events := [0x0141], txLog := [0x58] }) (fun t => t.txLog.take 2) = some [0x58, 0x49] := by decide

theorem witness_MarksAreNeverCleared :
    field (step { idle with events := [0x0500], faulted := some .offsetOverflow, refused := some (.reservedEvent 0x0000) })
      (fun t => (t.faulted, t.refused)) = some (some .offsetOverflow, some (.reservedEvent 0x0000)) ∧
    ¬ { idle with faulted := some .offsetOverflow }.faulted = none := by decide

/-- A display (its hash log: `witness_OnlyTheListedTransitions_wake`) and a commit: the pads do change. -/
theorem witness_EngineRunsOnlyWhereInvoked :
    dormant.powered = true ∧ dormant.hashLog = [] ∧
    Next { dormant with events := [0x0300], clPendingWake := true } 0x0300 [] ∧
    Next { collecting with events := [0x0142] } 0x0142 [] ∧
    field (step { collecting with events := [0x0142] }) (fun t => decide (t.oeIpad = collecting.oeIpad)) = some false := by decide

theorem witness_TransmissionIsIndependentOfTheStoredKey :
    field (core.run 1 { collecting with events := [0x0142] }) (fun t => t.txLog.length) = some 15 ∧
    field (core.run 1 { collecting with events := [0x0142], ks := [], oeIpad := [], oeOpad := [] }) (fun t => t.txLog.length)
      = some 15 := by decide

theorem witness_ProgramLinesExpand :
    1 ≤ 1 ∧ ([0x31, 0x32] : List Byte).length = small.keyLen ∧ ([0x31] : List Byte).length < small.keyLen ∧
    ([] : List Byte).length ≠ small.keyLen ∧ small.keyLen ≤ ([0x31, 0x32] : List Byte).length := by decide

/-- The first index past the end, with the byte an unlisted cell reads as and with another. -/
theorem witness_KeyStoreIndexOutsideIsRefused :
    idle.cfg.keyLen ≤ 2 ∧ Memory.read idle.ks 2 = 0xFF ∧ Memory.read idle.ks 2 ≠ 0x00 := by decide

end Sys2Proof.Tests
end

/-! # Proofs: the scope (spec/00_scope.md) -/

namespace Sys2Proof.Machine

/-- Settles O54: the configuration is the first of the facts `step_fields` states of every step, whether the event is
performed or its word is refused (R10). -/
theorem configurationNeverChanges : Obligations.ConfigurationNeverChanges := by
  intro s t h
  obtain ⟨hcfg, -⟩ := step_fields h
  exact hcfg

end Sys2Proof.Machine

/-! # Proofs: the state (spec/10_state.md) -/

namespace Sys2Proof.Machine

/-! ## The operations that keep the invariant

The TICK is `Invariant.tick` (Laws/Invariant.lean); here are the others, each in the states its row of the table applies
in. -/

/-- The invariant looks at neither mark. -/
theorem Invariant.refuse {s : State} (h : Invariant s) (r : Refusal) : Invariant (refuse s r) :=
  ⟨{ h.ranges with }, fun hp => { h.powered hp with }⟩

/-- RX.DROP sets a bit the invariant does not look at; under R41 item 7 its fault cannot happen. -/
theorem Invariant.rxDrop {s t : State} {d : Byte} (h : Invariant s) (hp : s.powered = true)
    (e : execRxDrop d s = .next t) : Invariant t := by
  have hd := (h.powered hp).dev_state
  have ht : t = { s with stRxDropped := true } := by
    cases hs : s.clDevState with
    | reserved => exact absurd hs hd
    | dormant | listening | displaying => simpa [execRxDrop, hs] using e.symm
  subst ht
  exact ⟨{ h.ranges with }, fun hp => { h.powered hp with }⟩

/-- RX.SENTINEL opens a frame with the whole deadline before it (R154). -/
theorem Invariant.rxSentinel {s t : State} (h : Invariant s) (hl : s.clDevState = .listening)
    (e : execRxSentinel s = .next t) : Invariant t := by
  obtain rfl := Host.Outcome.next.inj e
  exact ⟨{ h.ranges with }, fun hp =>
    { h.powered hp with
      collecting_listening := fun _ => hl
      collecting_bounds := fun _ => ⟨Nat.zero_le _, provTimeoutTicks_pos h.ranges.cfg, Nat.le_refl _⟩
      idle_cleared := fun hi => by cases hi }⟩

/-- RX.KEY puts a byte where another follows, so the index stays a frame's (R155). -/
theorem Invariant.rxKey {s t : State} {d : Byte} (h : Invariant s) (hf : s.pfState = .collecting)
    (hi : s.pfIdx < s.cfg.keyLen - 1) (e : execRxKey d s = .next t) : Invariant t := by
  obtain rfl := Host.Outcome.next.inj e
  refine ⟨{ h.ranges with pfBuf := by simpa using h.ranges.pfBuf }, fun hp => ?_⟩
  have P := h.powered hp
  obtain ⟨-, htimer⟩ := P.collecting_bounds hf
  exact { P with
    collecting_bounds := fun _ => ⟨hi, htimer⟩
    idle_cleared := fun hq => by simp [hf] at hq }

/-- RX.KEY_LAST commits the frame: the Key Store holds the frame's bytes, which are those the pads are of (R157). -/
theorem Invariant.rxKeyLast {s t : State} {d : Byte} (h : Invariant s) (e : execRxKeyLast d s = .next t) :
    Invariant t := by
  have R := h.ranges
  obtain ⟨m, w, r, hnext, -, -, hstore⟩ := execRxKeyLast_frame d s _ rfl
  obtain ⟨hwf, -, hwithin, hread, -⟩ := hstore R.pfBuf.le R.ksCanonical
  obtain rfl := Host.Outcome.next.inj (hnext.symm.trans e)
  have hkey : (List.range s.cfg.keyLen).map (Memory.read m) = s.pfBuf.set (s.cfg.keyLen - 1) d :=
    keyBytes_of_reads m _ _ (by simpa using R.pfBuf) (by simpa [R.pfBuf] using hread)
  exact ⟨{ R with
      ksCanonical := hwf
      ksWithin := hwithin R.ksWithin
      pfBuf := by simp
      oeIpad := padOf_length ..
      oeOpad := padOf_length .. },
    fun hp =>
    { h.powered hp with
      collecting_listening := fun hf => by cases hf
      collecting_bounds := fun hf => by cases hf
      idle_cleared := fun _ => ⟨rfl, rfl⟩
      pads_fresh := fun _ => by simp [keyStoreBytes, hkey] }⟩

/-- BTN sets the wake flag, which the invariant does not look at (R181). -/
theorem Invariant.btn {s t : State} (h : Invariant s) (e : execBtn s = .next t) : Invariant t := by
  unfold execBtn at e
  split at e <;> obtain rfl := Host.Outcome.next.inj e
  · exact h
  · exact ⟨{ h.ranges with }, fun hp => { h.powered hp with }⟩

/-- Without power only the ranges and the dark display are left of the invariant (R241). -/
theorem Invariant.powerOff {s : State} (h : Invariant s) : Invariant (powerOff s) := by
  have R := h.ranges
  obtain ⟨hoff, hen, htext, -, hcfg, -, -, hsec, hfrac, hks, -, -, -, -, -, hbuf, hipad, hopad⟩ := powerOff_keeps s
  exact ⟨{
      cfg := hcfg ▸ R.cfg
      ksCanonical := hks ▸ R.ksCanonical
      ksWithin := hcfg ▸ hks ▸ R.ksWithin
      tcSec := hcfg ▸ hsec ▸ R.tcSec
      tcFrac := hcfg ▸ hfrac ▸ R.tcFrac
      pfBuf := hcfg ▸ hbuf
      oeIpad := hipad
      oeOpad := hopad
      dark := fun _ => ⟨hen, htext⟩ },
    fun hp => by simp [hoff] at hp⟩

/-- PWR_OFF, powered or not. -/
theorem Invariant.pwrOff {s t : State} (h : Invariant s) (e : execPwrOff s = .next t) : Invariant t := by
  unfold execPwrOff at e
  split at e <;> obtain rfl := Host.Outcome.next.inj e
  · exact h
  · exact h.powerOff

/-- The listen timer's reset value is in the range it has in DORMANT (R42, R183). -/
theorem listenTimerReset_periodic {c : Config} (hc : c.wf = true) (hm : c.listenMode = .periodic) :
    1 ≤ c.listenTimerReset ∧ c.listenTimerReset ≤ c.listenPeriodTicks := by
  obtain ⟨-, -, -, -, -, hperiod, -⟩ := wf_facts hc
  simpa [Config.listenTimerReset, hm] using (hperiod hm).1

/-- PWR_ON establishes the powered half of the invariant from the ranges alone (R42, R243). -/
theorem Invariant.pwrOn {s t : State} (h : Invariant s) (e : execPwrOn s = .next t) : Invariant t := by
  have R := h.ranges
  obtain ⟨ds, n, r, m, w, i, o, v, st, sec, frac, hnext, -, -, hi, ho, hpads, hwf, hwithin, hrtc, huptime⟩ :=
    execPwrOn_frame s
  obtain rfl := Host.Outcome.next.inj (hnext.symm.trans e)
  have htime : sec.toNat < s.cfg.timeModulus ∧ frac < s.cfg.tps := by
    cases hs : s.cfg.timeStrategy with
    | rtc =>
      obtain ⟨rfl, rfl⟩ := hrtc hs
      exact ⟨R.tcSec, R.tcFrac⟩
    | uptime =>
      obtain ⟨rfl, rfl⟩ := huptime hs
      obtain ⟨-, -, -, htps, -⟩ := wf_facts R.cfg
      exact ⟨timeModulus_pos _, htps⟩
  exact ⟨{
      cfg := R.cfg
      ksCanonical := hwf R.ksCanonical
      ksWithin := hwithin R.ksCanonical R.ksWithin
      tcSec := htime.1
      tcFrac := htime.2
      pfBuf := by simp
      oeIpad := hi
      oeOpad := ho
      dark := fun _ => ⟨rfl, rfl⟩ },
    fun _ => {
      collecting_listening := fun hf => by cases hf
      collecting_bounds := fun hf => by cases hf
      idle_cleared := fun _ => ⟨rfl, rfl⟩
      displaying_code := fun hd => by cases hd
      displaying_timer := fun hd => by cases hd
      pads_fresh := hpads
      dev_state := fun hd => by cases hd
      not_displaying := fun _ => ⟨rfl, rfl⟩
      code_range := show (0 : BitVec 20).toNat < 1000000 by decide
      dormant_timer := fun hm _ => listenTimerReset_periodic R.cfg hm
      listening_timer := fun _ hd => by cases hd
      continuous_timer := fun hm => by
        have hm : s.cfg.listenMode = .continuous := hm
        simp [Config.listenTimerReset, hm] }⟩

/-- Every operation keeps the invariant in the states in which its row applies (R74, R151). -/
theorem Invariant.exec {i : Instr} {s t : State} (h : Invariant s) (ha : (rxContext s).admits i = true)
    (e : exec i s = .next t) : Invariant t := by
  cases i with
  | rxOff d =>
    obtain rfl := Host.Outcome.next.inj e
    exact h
  | rxDrop d =>
    simp only [RxContext.admits, rxContext, Bool.and_eq_true] at ha
    exact h.rxDrop (d := d) ha.1 e
  | rxSentinel =>
    simp only [RxContext.admits, rxContext, Bool.and_eq_true, decide_eq_true_eq] at ha
    exact h.rxSentinel ha.1.2 e
  | rxIgnored d =>
    obtain rfl := Host.Outcome.next.inj e
    exact ⟨{ h.ranges with }, fun hp => { h.powered hp with }⟩
  | rxKey d =>
    simp only [RxContext.admits, rxContext, Bool.and_eq_true, decide_eq_true_eq, Bool.not_not] at ha
    exact h.rxKey ha.1.2 ha.2 e
  | rxKeyLast d => exact h.rxKeyLast e
  | btn => exact h.btn e
  | tick => exact h.tick e
  | pwrOff => exact h.pwrOff e
  | pwrOn => exact h.pwrOn e

/-- Settles O52: an accepted word performs an operation whose row applies in the state, which keeps the invariant; a
reserved word sets a mark only. -/
theorem everyStepKeepsTheInvariant : Obligations.EveryStepKeepsTheInvariant := by
  intro s t h hstep
  obtain ⟨-, w, rest, -, ⟨i, hdecode, hexec⟩ | ⟨-, rfl⟩⟩ := step_next hstep
  · exact (h.withEvents rest).exec (decode_admits hdecode) hexec
  · exact (h.withEvents rest).refuse _

/-! ## Logs -/

/-- Settles O55: the logs are among the elements `step_fields` says every step only extends (R38). -/
theorem logsOnlyGrow : Obligations.LogsOnlyGrow := by
  intro s t h
  obtain ⟨-, -, htx, hks, hhash, hdisp, -⟩ := step_fields h
  exact ⟨htx, hks, hhash, hdisp⟩

/-! ## The fresh device -/

/-- A fresh device is unpowered, so the invariant asks only for its ranges. -/
theorem invariant_fresh {c : Config} {ks : List Host.Cell} {sec : BitVec 64} {frac : Nat} (hc : c.wf = true)
    (hks : Memory.wf ks = true) (hn : Memory.within c.keyLen ks = true) (hsec : sec.toNat < c.timeModulus)
    (hfrac : frac < c.tps) : Invariant (State.fresh c ks sec frac) :=
  ⟨{ cfg := hc
     ksCanonical := hks
     ksWithin := hn
     tcSec := hsec
     tcFrac := hfrac
     pfBuf := List.length_replicate
     oeIpad := List.length_replicate
     oeOpad := List.length_replicate
     dark := fun _ => ⟨rfl, rfl⟩ },
   fun hp => by cases hp⟩

/-- Settles O51: `invariant_fresh`, for every drawn storage and time and for those of the reset state; the elements R44
fixes are the fields of `State.fresh`. -/
theorem freshDeviceMeetsTheInvariant : Obligations.FreshDeviceMeetsTheInvariant := by
  refine ⟨fun c ks sec frac hc hks hn hsec hfrac => ⟨invariant_fresh hc hks hn hsec hfrac, _, rfl, ?_⟩,
    invariant_fresh (by decide) rfl rfl (by decide) (by decide)⟩
  exact ⟨rfl, rfl, rfl, rfl, rfl, rfl, rfl, rfl, rfl, ⟨rfl, rfl⟩, rfl⟩

/-! ## A power cycle

One lemma for each of its three parts: PWR_OFF, the TICKs without power, and the boot of PWR_ON. -/

/-- The elements every part of a power cycle keeps (R43, R52). -/
structure CycleKept (s t : State) : Prop where
  cfg : t.cfg = s.cfg
  ks : t.ks = s.ks
  ksLog : t.ksLog = s.ksLog
  txLog : t.txLog = s.txLog
  hashLog : t.hashLog = s.hashLog

theorem CycleKept.refl (s : State) : CycleKept s s := ⟨rfl, rfl, rfl, rfl, rfl⟩

theorem CycleKept.trans {s t u : State} (h : CycleKept s t) (h' : CycleKept t u) : CycleKept s u :=
  ⟨h'.cfg.trans h.cfg, h'.ks.trans h.ks, h'.ksLog.trans h.ksLog, h'.txLog.trans h.txLog, h'.hashLog.trans h.hashLog⟩

theorem CycleKept.keyStoreBytes {s t : State} (h : CycleKept s t) : keyStoreBytes t = keyStoreBytes s := by
  rw [Machine.keyStoreBytes, h.cfg, h.ks, Machine.keyStoreBytes]

/-- The time counter's value in ticks, the fraction counted (R23, R24). -/
def clockTicks (s : State) : Nat := s.tcSec.toNat * s.cfg.tps + s.tcFrac

/-- Wherever the counter runs, TIME_TICK counts one tick, modulo the wrap of the seconds (R131, R133). -/
theorem clockTicks_timeTick {s : State} (hrun : s.powered = true ∨ s.cfg.timeStrategy = .rtc) :
    clockTicks (timeTick s) ≡ clockTicks s + 1 [MOD s.cfg.timeModulus * s.cfg.tps] := by
  have hnot : ¬ (s.powered = false ∧ s.cfg.timeStrategy = .uptime) := by
    rcases hrun with hp | hs <;> simp [*]
  by_cases hcarry : s.tcFrac + 1 = s.cfg.tps
  · have hold : clockTicks s + 1 = (s.tcSec.toNat + 1) * s.cfg.tps := by
      rw [clockTicks, Nat.add_assoc, hcarry, Nat.succ_mul]
    have hnew : clockTicks (timeTick s) = (s.tcSec.toNat + 1) % s.cfg.timeModulus * s.cfg.tps := by
      simp [clockTicks, timeTick, hnot, hcarry, nextSecond_toNat]
    rw [hold, hnew]
    exact (Nat.mod_modEq _ _).mul_right' _
  · have hnew : clockTicks (timeTick s) = clockTicks s + 1 := by
      simp [clockTicks, timeTick, hnot, hcarry, Nat.add_assoc]
    rw [hnew]

/-- PWR_OFF of a powered device: the time stands where it was (R133, R241). -/
theorem step_pwrOff_powered {s : State} {rest : List EventWord} (h : Invariant s) (hp : s.powered = true)
    (he : s.events = encode .pwrOff :: rest) :
    ∃ t, step s = .next t ∧ t.events = rest ∧ t.powered = false ∧ CycleKept s t ∧ clockTicks t = clockTicks s := by
  have hstep : step s = .next (powerOff { s with events := rest }) := by
    rw [step_exec h.ranges.cfg he (decode_pwrOff _)]
    simp [exec, execPwrOff, hp]
  obtain ⟨hpowered, -, -, -, hcfg, hevents, -, hsec, hfrac, hks, hksLog, htxLog, hhashLog, -⟩ :=
    powerOff_keeps { s with events := rest }
  exact ⟨_, hstep, hevents, hpowered, ⟨hcfg, hks, hksLog, htxLog, hhashLog⟩, by simp [clockTicks, hcfg, hsec, hfrac]⟩

/-- A TICK of an unpowered device is TIME_TICK alone (R182), which counts under RTC (R133). -/
theorem step_tick_unpowered {s : State} {rest : List EventWord} (h : Invariant s) (hp : s.powered = false)
    (he : s.events = encode .tick :: rest) :
    ∃ t, step s = .next t ∧ t.events = rest ∧ t.powered = false ∧ CycleKept s t ∧
      (s.cfg.timeStrategy = .rtc → clockTicks t ≡ clockTicks s + 1 [MOD s.cfg.timeModulus * s.cfg.tps]) := by
  have hstep : step s = .next (timeTick { s with events := rest }) := by
    rw [step_exec h.ranges.cfg he (decode_tick _)]
    simp [exec, execTick, tickSteps, settle, hp]
  refine ⟨_, hstep, ?_, ?_, ?_, fun hs => clockTicks_timeTick (s := { s with events := rest }) (.inr hs)⟩ <;>
    rw [timeTick_frame]
  · exact hp
  · exact ⟨rfl, rfl, rfl, rfl, rfl⟩

/-- `k` TICKs of an unpowered device: under RTC the time goes on by exactly `k` ticks (R133). -/
theorem run_ticks_unpowered (k : Nat) {s : State} {rest : List EventWord} (h : Invariant s) (hp : s.powered = false)
    (he : s.events = List.replicate k (encode .tick) ++ rest) :
    ∃ t, core.run k s = .next t ∧ t.events = rest ∧ t.powered = false ∧ CycleKept s t ∧ Invariant t ∧
      (s.cfg.timeStrategy = .rtc → clockTicks t ≡ clockTicks s + k [MOD s.cfg.timeModulus * s.cfg.tps]) := by
  induction k generalizing s with
  | zero => exact ⟨s, run_zero s, he, hp, .refl s, h, fun _ => .rfl⟩
  | succ k ih =>
    obtain ⟨u, hstep, hevents, hpowered, hkept, htick⟩ := step_tick_unpowered h hp he
    obtain ⟨t, hrun, hevents, hpowered, hkept', hinv, hticks⟩ :=
      ih (everyStepKeepsTheInvariant _ _ h hstep) hpowered hevents
    rw [hkept.cfg] at hticks
    refine ⟨t, by rw [run_succ k hstep, hrun], hevents, hpowered, hkept.trans hkept', hinv, fun hs => ?_⟩
    calc clockTicks t ≡ clockTicks u + k [MOD s.cfg.timeModulus * s.cfg.tps] := hticks hs
      _ ≡ clockTicks s + 1 + k [MOD s.cfg.timeModulus * s.cfg.tps] := (htick hs).add_right k
      _ = clockTicks s + (k + 1) := by omega

/-- Under RTC the power-up leaves the counter running (R136). -/
theorem tcPowerOn_rtc {s : State} (hs : s.cfg.timeStrategy = .rtc) : tcPowerOn s = s := by
  simp [tcPowerOn, hs]

/-- Under UPTIME the power-up restarts the counter (R136). -/
theorem tcPowerOn_uptime {s : State} (hs : s.cfg.timeStrategy = .uptime) :
    tcPowerOn s = { s with tcSec := 0, tcFrac := 0 } := by
  simp [tcPowerOn, hs]

/-- BOOT_KEYSTORE under NEVER of a Key Store with a key: the pads of the key, and no write (R52, R243). -/
theorem bootKeystore_never {s : State} (hn : 1 ≤ s.cfg.keyLen) (hf : s.cfg.ksFaultModel = .never)
    (hkey : Memory.read s.ks 0 ≠ erasedByte) : bootKeystore s = computePads s (keyStoreBytes s) := by
  simp [bootKeystore, memRead_never hf hn, hkey, bootPads, readKeyFrom_never _ _ _ hf, keyStoreBytes,
    List.range_eq_range']

/-- PWR_ON of an unpowered device under NEVER whose Key Store has a key (R136, R242, R243). -/
theorem step_pwrOn_never {s : State} {rest : List EventWord} (h : Invariant s) (hp : s.powered = false)
    (hf : s.cfg.ksFaultModel = .never) (hkey : Memory.read s.ks 0 ≠ erasedByte)
    (he : s.events = encode .pwrOn :: rest) :
    ∃ t, step s = .next t ∧ t.events = rest ∧ t.powered = true ∧ CycleKept s t ∧ t.oePadsValid = true ∧
      t.oeIpad = padOf s.cfg 0x36 (keyStoreBytes s) ∧
      (s.cfg.timeStrategy = .uptime → t.tcSec = 0 ∧ t.tcFrac = 0) ∧
      (s.cfg.timeStrategy = .rtc → clockTicks t = clockTicks s) := by
  obtain ⟨hn, -⟩ := wf_facts h.ranges.cfg
  generalize hu : resetVolatile { s with events := rest } = u
  have hcounted := tcPowerOn_frame u
  have hboot : bootKeystore (tcPowerOn u) = computePads (tcPowerOn u) (keyStoreBytes s) := by
    rw [hcounted]; subst hu
    exact bootKeystore_never hn hf hkey
  have hstep : step s = .next (computePads (tcPowerOn u) (keyStoreBytes s)) := by
    rw [step_exec h.ranges.cfg he (decode_pwrOn _), exec, execPwrOn, if_neg (by simp [hp]), hu, hboot]
  refine ⟨_, hstep, ?_⟩
  subst hu
  cases hs : s.cfg.timeStrategy with
  | rtc =>
    rw [tcPowerOn_rtc (s := resetVolatile { s with events := rest }) hs]
    exact ⟨rfl, rfl, ⟨rfl, rfl, rfl, rfl, rfl⟩, rfl, rfl, nofun, fun _ => rfl⟩
  | uptime =>
    rw [tcPowerOn_uptime (s := resetVolatile { s with events := rest }) hs]
    exact ⟨rfl, rfl, ⟨rfl, rfl, rfl, rfl, rfl⟩, rfl, rfl, fun _ => ⟨rfl, rfl⟩, nofun⟩

/-- Settles O50: PWR_OFF, the TICKs without power and the boot in turn, each of which keeps the Key Store and the three
logs; the time is counted by the TICKs alone, and kept or zeroed by the boot (R136). -/
theorem powerCycleKeepsKeyAndTime : Obligations.PowerCycleKeepsKeyAndTime := by
  intro s k rest h hp hnever hkey he
  obtain ⟨off, hoff, hevents, hpowered, hkeptOff, hclockOff⟩ := step_pwrOff_powered h hp he
  have hinvOff := everyStepKeepsTheInvariant _ _ h hoff
  obtain ⟨waited, hrun, hevents, hpowered, hkeptTicks, hinvTicks, hclockTicks⟩ :=
    run_ticks_unpowered k hinvOff hpowered hevents
  have hkeptWait := hkeptOff.trans hkeptTicks
  obtain ⟨t, hon, hevents, hpowered, hkeptOn, hvalid, hipad, huptime, hrtc⟩ :=
    step_pwrOn_never hinvTicks hpowered (hkeptWait.cfg ▸ hnever) (hkeptWait.ks ▸ hkey) hevents
  have hinv := everyStepKeepsTheInvariant _ _ hinvTicks hon
  have hkept := hkeptWait.trans hkeptOn
  rw [hkeptWait.cfg] at hipad huptime hrtc
  rw [hkeptOff.cfg, hclockOff] at hclockTicks
  refine ⟨t, by rw [run_succ (k + 1) hoff, run_add k 1 hrun, run_succ 0 hon, run_zero], hevents, hpowered, hkept.ks,
    hkept.ksLog, hkept.txLog, hkept.hashLog, hvalid, by rw [hipad, hkeptWait.keyStoreBytes], huptime, fun hs => ?_⟩
  have htime := hclockTicks hs
  rw [← hrtc hs, clockTicks, hkept.cfg] at htime
  exact ⟨hkept.cfg ▸ hinv.ranges.tcFrac, htime⟩

end Sys2Proof.Machine

/-! # Proofs: the memory (spec/20_memory.md) -/

namespace Sys2Proof.Machine

/-! ## A Key Store access outside the indices 0 to N - 1 (R51) -/

section Outside

variable {s : State} {a : Nat} (ha : s.cfg.keyLen ≤ a)
include ha

/-- The refused read draws nothing either, so the state differs in the mark alone. -/
theorem memRead_outside : memRead s a = (none, refuse s (.ksIndex a)) := by
  simp [memRead, Nat.not_lt.mpr ha]

theorem memWrite_outside (v : Byte) : memWrite s a v = refuse s (.ksIndex a) := by
  simp [memWrite, Nat.not_lt.mpr ha]

/-- Also for the byte an index outside reads as: the first two cases of `ksUpdate_spec` are inside. -/
theorem ksUpdate_outside (v : Byte) : ksUpdate s a v = refuse s (.ksIndex a) := by
  rcases ksUpdate_spec s a v with ⟨hin, -⟩ | ⟨hin, -⟩ | ⟨-, h⟩
  · exact absurd hin (Nat.not_lt.mpr ha)
  · exact absurd hin (Nat.not_lt.mpr ha)
  · exact h

end Outside

/-- Settles O60: each of the three accesses outside is the refusal, which sets the mark and nothing else (R51). -/
theorem keyStoreIndexOutsideIsRefused : Obligations.KeyStoreIndexOutsideIsRefused := by
  intro s a v ha
  exact ⟨memRead_outside ha, memWrite_outside ha v, ksUpdate_outside ha v⟩

/-! ## An update inside them (R56) -/

theorem ksUpdate_of_read_eq {s : State} {a : Nat} {v : Byte} (ha : a < s.cfg.keyLen) (hv : Memory.read s.ks a = v) :
    ksUpdate s a v = s := by
  rcases ksUpdate_spec s a v with ⟨-, -, h⟩ | ⟨-, hne, -⟩ | ⟨hout, -⟩
  · exact h
  · exact absurd hv hne
  · exact absurd ha (Nat.not_lt.mpr hout)

/-- Settles O21, by the cases of `ksUpdate_spec`. After a write the canonical store reads as the byte written, so the second
update finds it there (R61). -/
theorem ksUpdateWritesOnlyAChange : Obligations.KsUpdateWritesOnlyAChange := by
  intro s a v ha hwf
  rcases ksUpdate_spec s a v with ⟨-, hv, h⟩ | ⟨-, hv, h⟩ | ⟨hout, -⟩
  · exact ⟨fun _ => h, fun hne => absurd hv hne, by rw [h, h]⟩
  · have hread : Memory.read (Memory.write s.ks a v) a = v := read_write_same (wf_rising hwf) a v
    refine ⟨fun heq => absurd heq hv, fun _ => ⟨_, h, hread, fun b hb => read_write_other s.ks v hb⟩, ?_⟩
    rw [h]
    exact ksUpdate_of_read_eq ha hread
  · exact absurd ha (Nat.not_lt.mpr hout)

end Sys2Proof.Machine

/-! # Proofs: the encoding (spec/30_encoding.md) -/

namespace Sys2Proof

/-! ## Decoding and encoding (R71, R73, R74) -/

/-- `Laws.Encoding.Statement` of every operation, from the lemma of its constructor. -/
theorem encoding_statement (i : Instr) : Laws.Encoding.Statement i := by
  cases i with
  | rxOff d => exact Laws.Encoding.rxOff d
  | rxDrop d => exact Laws.Encoding.rxDrop d
  | rxSentinel => exact Laws.Encoding.rxSentinel
  | rxIgnored d => exact Laws.Encoding.rxIgnored d
  | rxKey d => exact Laws.Encoding.rxKey d
  | rxKeyLast d => exact Laws.Encoding.rxKeyLast d
  | btn => exact Laws.Encoding.btn
  | tick => exact Laws.Encoding.tick
  | pwrOff => exact Laws.Encoding.pwrOff
  | pwrOn => exact Laws.Encoding.pwrOn

/-- The decoder inverts the encoder where the operation's row applies. -/
theorem decode_encode {c : RxContext} {i : Instr} (hwf : i.wf = true) (ha : c.admits i = true) :
    decode c (encode i) = .ok i := by
  obtain ⟨-, e, hevent, hselect⟩ := encoding_statement i
  simp only [decode, hevent, hselect c hwf ha]

/-- Whatever the state selects for a byte, its encoding is the byte's RX word (R151). -/
theorem encode_selectRx (c : RxContext) (d : Byte) : encode (selectRx c d) = eventWord 0x01 d := by
  rcases selectRx_cases c d with ⟨-, h⟩ | ⟨-, -, h⟩ | ⟨-, -, -, rfl, h⟩ | ⟨-, -, -, -, h⟩ | ⟨-, -, -, -, h⟩ |
    ⟨-, -, -, -, h⟩ <;> rw [h] <;> rfl

/-- Dispatch leaves RX.IGNORED no sentinel (R151, R153). -/
theorem wf_selectRx (c : RxContext) (d : Byte) : (selectRx c d).wf = true := by
  rcases selectRx_cases c d with ⟨-, h⟩ | ⟨-, -, h⟩ | ⟨-, -, -, -, h⟩ | ⟨-, -, -, hd, h⟩ | ⟨-, -, -, -, h⟩ |
    ⟨-, -, -, -, h⟩ <;> rw [h]
  case inr.inr.inr.inl => simpa [Instr.wf] using hd
  all_goals rfl

/-- The encoder inverts the decoder on every accepted word. -/
theorem encode_decode {c : RxContext} {w : EventWord} {i : Instr} (h : decode c w = .ok i) :
    encode i = w ∧ i.wf = true := by
  rcases decode_ok h with ⟨rfl, hk⟩ | ⟨rfl, rfl⟩ | ⟨rfl, rfl⟩ | ⟨rfl, rfl⟩ | ⟨rfl, rfl⟩
  · exact ⟨by rw [encode_selectRx, ← hk, eventWord_fields], wf_selectRx c _⟩
  all_goals exact ⟨rfl, rfl⟩

/-- Settles O1: `decode_encode` one way; the other way `encode_decode`, with `decode_admits` for the row. -/
theorem decodeAndEncodeAgree : Obligations.DecodeAndEncodeAgree := by
  refine ⟨fun c i => decode_encode, fun c w i h => ?_⟩
  obtain ⟨hword, hwf⟩ := encode_decode h
  exact ⟨hword, hwf, decode_admits h⟩

/-- Settles O2: each sample word is the encoding of the operation it stands for, whose row applies in the context. -/
theorem sampleWordsDecode : Obligations.SampleWordsDecode :=
  ⟨decode_encode (i := .rxSentinel) rfl rfl, decode_encode (i := .rxIgnored 0x07) rfl rfl,
    decode_encode (i := .rxKey 0xAA) rfl rfl, decode_encode (i := .rxKeyLast 0x07) rfl rfl,
    decode_encode (i := .rxDrop 0xAA) rfl rfl, decode_encode (i := .rxOff 0xAA) rfl rfl,
    decode_btn _, decode_tick _, decode_pwrOff _, decode_pwrOn _⟩

/-! ## The event kinds and the reserved words (R73) -/

theorem eq_eventWord {w : EventWord} {k d : Byte} (hk : kindOf w = k) (hd : dataOf w = d) : w = eventWord k d := by
  rw [← hk, ← hd, eventWord_fields]

/-- A reserved word spells no event: the five ways of `decodeEvent_ok` have kind 1, or kind 2 to 5 and data 0. -/
theorem decodeEvent_reserved {w : EventWord} (h : Claims.Reserved w) : ∃ r, decodeEvent w = .error r := by
  cases he : decodeEvent w with
  | error r => exact ⟨r, rfl⟩
  | ok e =>
    rcases decodeEvent_ok he with ⟨-, hk⟩ | ⟨-, rfl⟩ | ⟨-, rfl⟩ | ⟨-, rfl⟩ | ⟨-, rfl⟩
    · simp [Claims.Reserved, hk] at h
    all_goals exact absurd h (by decide)

end Sys2Proof

namespace Sys2Proof.Machine

/-- A reserved word is taken and refused, whatever the state selects for RX words. -/
theorem step_reserved {s : State} {w : EventWord} {rest : List EventWord} (hc : s.cfg.wf = true)
    (he : s.events = w :: rest) (hw : Claims.Reserved w) :
    step s = .next (refuse { s with events := rest } (.reservedEvent w)) := by
  obtain ⟨r, hr⟩ := decodeEvent_reserved hw
  simp only [step_eq hc he, performWord, decode, hr]

/-- Settles O3: a word of the kinds 1 to 5 is the `eventWord` of its fields, which the decoder reads; `step_reserved` is the
rest. -/
theorem eventKindsAndReservedWords : Obligations.EventKindsAndReservedWords := by
  refine ⟨fun w hk => ?_, fun w hk hd => ?_, fun w hk hd => ?_, fun w hk hd => ?_, fun w hk hd => ?_,
    fun s w rest => step_reserved⟩
  · rw [eq_eventWord hk rfl, decodeEvent_rx, dataOf_eventWord]
  all_goals rw [eq_eventWord hk hd]; rfl

/-! ## A step on an event (R72, R74) -/

/-- Settles O4: `step_exec`. -/
theorem stepRunsTheDecodedOperation : Obligations.StepRunsTheDecodedOperation :=
  fun _ _ _ _ => step_exec

/-- A word is performed or refused, and either is a next state. -/
theorem performWord_next (w : EventWord) {s : State} (hc : s.cfg.wf = true) : ∃ t, performWord w s = .next t := by
  unfold performWord
  split
  · exact exec_next _ hc
  · exact ⟨_, rfl⟩

/-- An event of an admitted configuration is accepted, and it alone is taken (R72). -/
theorem step_event {s : State} {w : EventWord} {rest : List EventWord} (hc : s.cfg.wf = true)
    (he : s.events = w :: rest) : ∃ t, step s = .next t ∧ t.events = rest := by
  obtain ⟨t, ht⟩ : ∃ t, step s = .next t := by
    rw [step_eq hc he]
    exact performWord_next w hc
  obtain ⟨-, hevents, -⟩ := step_fields ht
  exact ⟨t, ht, by rw [hevents, he, List.tail_cons]⟩

/-- What a step can end in: one of the model's two refusals, or a next state (R72, R232). -/
theorem step_cases (s : State) :
    (s.cfg.wf = false ∧ step s = .refused .configuration) ∨ (s.events = [] ∧ step s = .refused .noEvent) ∨
    ∃ t, step s = .next t := by
  cases hc : s.cfg.wf with
  | false => exact .inl ⟨rfl, by simp [step, hc]⟩
  | true =>
    cases he : s.events with
    | nil => exact .inr (.inl ⟨rfl, by simp [step, hc, takeEvent, he]⟩)
    | cons w rest =>
      obtain ⟨t, ht, -⟩ := step_event hc he
      exact .inr (.inr ⟨t, ht⟩)

/-- Settles O6: `step_event`, and what the three ways of `step_cases` exclude. -/
theorem everyEventIsAccepted : Obligations.EveryEventIsAccepted := by
  refine ⟨fun s w rest => step_event, fun s f h => ?_, fun s r h => ?_⟩
  · rcases step_cases s with ⟨-, e⟩ | ⟨-, e⟩ | ⟨t, e⟩ <;> rw [e] at h <;> cases h
  · rcases step_cases s with ⟨hc, e⟩ | ⟨he, e⟩ | ⟨t, e⟩ <;> rw [e] at h <;> cases h
    · exact .inr ⟨hc, rfl⟩
    · exact .inl ⟨he, rfl⟩

end Sys2Proof.Machine

namespace Sys2Proof

/-! ## The texts: the echo and the display's digits (R79, R82) -/

open Claims

/-- The sixteen digits: 0-9 from 0x30, A-F from 0x41. -/
theorem hexDigit_spec : ∀ n < 16, IsHexDigit (hexDigit n) ∧ hexValue (hexDigit n) = n := by decide

/-- Both digits of a byte, by the quotient and the remainder of its value. -/
theorem hexTwoDigits_spec (d : Byte) :
    ∃ a b, hexTwoDigits d = [a, b] ∧ IsHexDigit a ∧ IsHexDigit b ∧ hexValue a = d.toNat / 16 ∧
      hexValue a * 16 + hexValue b = d.toNat := by
  have hd : d.toNat < 256 := d.isLt
  obtain ⟨hhigh, hq⟩ := hexDigit_spec (d.toNat / 16) (by omega)
  obtain ⟨hlow, hr⟩ := hexDigit_spec (d.toNat % 16) (by omega)
  exact ⟨_, _, rfl, hhigh, hlow, hq, by omega⟩

/-- Settles O12: the prefix is the definition's; the digits are those of `hexDigit_spec` and `hexTwoDigits_spec`, and the
first of two is not 0 from 16 on. -/
theorem hexEchoSpellsTheByte : Obligations.HexEchoSpellsTheByte := by
  refine ⟨fun f d => rfl, fun d hd => ?_, fun d hd => ?_, fun d => ?_⟩
  · obtain ⟨hdigit, hvalue⟩ := hexDigit_spec d.toNat hd
    exact ⟨_, by simp [hexText, hd, crlf], hdigit, hvalue⟩
  · obtain ⟨a, b, htext, ha, hb, hq, hvalue⟩ := hexTwoDigits_spec d
    exact ⟨a, b, by simp [hexText, Nat.not_lt.mpr hd, htext, crlf], ha, hb, by omega, hvalue⟩
  · obtain ⟨a, b, htext, ha, hb, -, hvalue⟩ := hexTwoDigits_spec d
    exact ⟨a, b, by simp [hexText, htext, crlf], ha, hb, hvalue⟩

/-- A decimal digit in ASCII does not wrap in its byte. -/
theorem asciiDigit_toNat (n : Nat) : (BitVec.ofNat 8 (0x30 + n % 10)).toNat = 0x30 + n % 10 := by
  rw [BitVec.toNat_ofNat, Nat.mod_eq_of_lt (by omega)]

theorem digits6_ascii {code : Nat} {b : Byte} (h : b ∈ digits6 code) : 0x30 ≤ b.toNat ∧ b.toNat ≤ 0x39 := by
  obtain ⟨j, -, rfl⟩ := List.mem_map.mp h
  rw [asciiDigit_toNat]
  omega

theorem decimalValue_digits6 {code : Nat} (h : code < 1000000) : decimalValue (digits6 code) = code := by
  simp only [decimalValue, digits6, List.range_succ, List.range_zero, List.nil_append, List.cons_append, List.map_cons,
    List.map_nil, List.foldl_cons, List.foldl_nil, asciiDigit_toNat, Nat.add_sub_cancel_left]
  omega

end Sys2Proof

namespace Sys2Proof.Machine

/-- Settles O28: the six digits by `digits6_length`, `decimalValue_digits6` and `digits6_ascii`; the two display commands
are the updates of `disp_log` the statement writes out. -/
theorem digitsSpellTheCode : Obligations.DigitsSpellTheCode :=
  ⟨fun code h => ⟨digits6_length code, decimalValue_digits6 h, fun _ => digits6_ascii⟩, fun _ _ => rfl, fun _ => rfl⟩

/-! ## The observation words (R84, R85) -/

theorem bitAt_getLsbD {i : Nat} (hi : i < 32) (b : Bool) (j : Nat) : (bitAt i b).getLsbD j = (decide (j = i) && b) := by
  cases b with
  | false => simp [bitAt]
  | true =>
    have h : (bitAt i true).getLsbD j = (decide (i < 32) && decide (i = j)) := BitVec.getLsbD_twoPow i j
    simp [h, hi, eq_comm]

/-- STATUS bit by bit: DEV_STATE from bit 0 and PF_IDX from bit 16 on, the flags at their places (R84). -/
theorem statusPowered_getElem (s : State) {j : Nat} (hj : j < 32) : (statusPowered s)[j] =
    ((devStateBits s.clDevState).getLsbD j ||
      decide (j = 2) && pfStateBit s.pfState || decide (j = 3) && s.clPendingWake || decide (j = 4) && displayEn s ||
      decide (j = 5) && pgCore s || decide (j = 6) && pgRx s || decide (j = 8) && s.oePadsValid ||
      decide (j = 9) && s.oeCodeValid || decide (j = 10) && s.stKsError || decide (j = 11) && s.stRxDropped ||
      decide (j = 12) && provisioned s || decide (16 ≤ j) && (BitVec.ofNat 7 s.pfIdx).getLsbD (j - 16)) := by
  simp only [← BitVec.getLsbD_eq_getElem, statusPowered, BitVec.getLsbD_or, bitAt_getLsbD, Nat.reduceLT,
    BitVec.getLsbD_setWidth, BitVec.getLsbD_shiftLeft, hj, show j - 16 < 32 by omega, decide_true, Bool.true_and,
    Nat.not_lt, ← decide_not]

/-- The fields of STATUS wider than a bit: DEV_STATE, PF_IDX and two reserved ones (R84). Each holds bit by bit, in
`statusPowered_getElem`. -/
theorem statusPowered_fields (s : State) :
    (statusPowered s).extractLsb' 0 2 = devStateBits s.clDevState ∧ (statusPowered s).extractLsb' 13 3 = 0 ∧
    (statusPowered s).extractLsb' 16 7 = BitVec.ofNat 7 s.pfIdx ∧ (statusPowered s).extractLsb' 23 9 = 0 := by
  refine ⟨?_, ?_, ?_, ?_⟩
  all_goals
    ext j hj
    rw [BitVec.getElem_extractLsb', BitVec.getLsbD_eq_getElem (by omega), statusPowered_getElem]
    interval_cases j <;> simp

/-- PROVISIONED, read off the cells of the Key Store (R84). -/
theorem provisioned_iff (s : State) : provisioned s = true ↔ ∃ i, i < s.cfg.keyLen ∧ Memory.read s.ks i ≠ 0x00 := by
  simp [provisioned, keyStoreBytes]

theorem pfStateBit_eq (p : PfState) : pfStateBit p = decide (p = .collecting) := by cases p <;> rfl

/-- CODE is the code below twelve zeros (R85). -/
theorem codeWord_fields (s : State) :
    (codeWord s).extractLsb' 0 20 = s.oeCode ∧ (codeWord s).extractLsb' 20 12 = 0 := by
  constructor
  · ext j hj
    simp [codeWord, BitVec.getLsbD_eq_getElem hj, show j < 32 by omega]
  · ext j hj
    simp [codeWord]

/-- Settles O45: while powered, the wide fields by `statusPowered_fields` and the single bits by `statusPowered_getElem`;
`pf_idx` below 128 fills its field without loss. -/
theorem observationWordFields : Obligations.ObservationWordFields := by
  intro s
  obtain ⟨hcode, hzero⟩ := codeWord_fields s
  refine ⟨fun hp => if_neg (by simp [hp]), fun hp hidx => ?_, hcode, hzero, rfl⟩
  obtain ⟨hdev, hreserved, hpfIdx, hreserved'⟩ := statusPowered_fields s
  rw [show status s = statusPowered s from if_pos hp, hdev, hpfIdx, ← provisioned_iff]
  refine ⟨?_, ?_, ?_, ?_, ?_, ?_, ?_, ?_, ?_, ?_, ?_, ?_, ?_, ?_, ?_, hreserved, Nat.mod_eq_of_lt hidx, hreserved'⟩
  iterate 4 exact fun h => by rw [h]; rfl
  all_goals simp [statusPowered_getElem, pfStateBit_eq, displayEn, pgCore, pgRx, hp]

/-! ## The lines of an event program (R86, R87, R88) -/

/-- The transcriber's tick count is the ceiling of R87: no shorter than `m` milliseconds, and the least such. -/
theorem msTicks_least (c : Config) (m : Nat) :
    m * c.tps ≤ msTicks c m * 1000 ∧ ∀ k, m * c.tps ≤ k * 1000 → msTicks c m ≤ k := by
  unfold msTicks
  exact ⟨by omega, fun k hk => by omega⟩

/-- Settles O59: `expandLine` line by line, its tests decided by the hypotheses; WAIT_MS by `msTicks_least`. -/
theorem programLinesExpand : Obligations.ProgramLinesExpand := by
  intro c key text d n m
  exact ⟨rfl, rfl, rfl, rfl, rfl, fun hn => if_neg (by omega), ⟨msTicks c m, rfl, msTicks_least c m⟩, fun h => if_pos h,
    rfl, fun h => if_pos h, rfl, fun h => if_neg h, fun h => if_neg (by omega)⟩

end Sys2Proof.Machine

/-! # Proofs: the HMAC-OTP engine (spec/41_hmac_otp.md) -/

namespace Sys2Proof.Machine

open Claims

/-! ## The pads (R102) -/

/-- Inside the block, byte `i` of a pad is the constant XOR the zero-extended key's byte. -/
theorem byteAt_padOf (c : Config) (pad : Byte) (key : List Byte) {i : Nat} (hi : i < 64) :
    byteAt (padOf c pad key) i = pad ^^^ keyByte c key i := by
  simp [byteAt, padOf, blockLen, hi]

/-- The pad of a key of N bytes as RFC 2104 builds it: the key padded with zeros to the block, each byte XOR the constant
(R116). -/
theorem padOf_eq_map {c : Config} {key : List Byte} (pad : Byte) (hk : key.length = c.keyLen) (hn : c.keyLen ≤ 64) :
    padOf c pad key = (key ++ List.replicate (64 - key.length) 0x00).map (· ^^^ pad) := by
  apply List.ext_getElem
  · simp [hk, hn]
  · intro i hi _
    by_cases hkey : i < c.keyLen
    · have hkey' : i < key.length := hk ▸ hkey
      simp [padOf, keyByte, hkey, byteAt, hkey', BitVec.xor_comm]
    · have hkey' : key.length ≤ i := hk ▸ Nat.not_lt.mp hkey
      simp [padOf, keyByte, hkey, hkey', BitVec.xor_comm]

/-- Settles O22: the bytes by `byteAt_padOf`, the lengths by `padOf_length`; COMPUTE_PADS is the update the statement writes
out (R102). -/
theorem computePadsXorsTheKey : Obligations.ComputePadsXorsTheKey := by
  intro s key _ _
  exact ⟨fun i hi => ⟨byteAt_padOf s.cfg 0x36 key hi, byteAt_padOf s.cfg 0x5C key hi⟩, padOf_length .., padOf_length .., rfl⟩

/-! ## The counter bytes (R105) -/

/-- The counter bytes by division: byte `j` of the 64-bit window is its quotient by 256^(7-j). -/
theorem counterBytes_window (c : Config) (t : BitVec 64) : counterBytes (window c t) = counterOf c t := by
  refine List.map_congr_left fun j hj => BitVec.eq_of_toNat_eq ?_
  have hj : j < 8 := List.mem_range.mp hj
  have hpow : 2 ^ (56 - 8 * j) = 256 ^ (7 - j) := by
    rw [show 56 - 8 * j = 8 * (7 - j) by omega, Nat.pow_mul]
  rw [BitVec.extractLsb'_toNat, Nat.shiftRight_eq_div_pow, hpow, window_toNat, BitVec.toNat_ofNat]

theorem bigEndian_concat (l : List Byte) (b : Byte) : bigEndian (l ++ [b]) = bigEndian l * 256 + b.toNat := by
  simp [bigEndian]

/-- The last `k` base-256 digits of a number, most significant first, spell it modulo 256^k. -/
theorem bigEndian_digits (k n : Nat) :
    bigEndian ((List.range k).map fun j => BitVec.ofNat 8 (n / 256 ^ (k - 1 - j))) = n % 256 ^ k := by
  induction k generalizing n with
  | zero => simp [bigEndian, Nat.mod_one]
  | succ k ih =>
    have hhigh : ((List.range k).map fun j => BitVec.ofNat 8 (n / 256 ^ (k - j))) =
        (List.range k).map fun j => BitVec.ofNat 8 (n / 256 / 256 ^ (k - 1 - j)) := by
      refine List.map_congr_left fun j hj => ?_
      have hj : j < k := List.mem_range.mp hj
      rw [Nat.div_div_eq_div_mul, ← Nat.pow_succ', show (k - 1 - j).succ = k - j by omega]
    rw [List.range_succ, List.map_append, List.map_singleton, bigEndian_concat, Nat.add_sub_cancel, hhigh, ih]
    simp only [Nat.sub_self, Nat.pow_zero, Nat.div_one, BitVec.toNat_ofNat, Nat.pow_succ', Nat.mod_mul]
    omega

/-- Settles O23: the eight bytes are the base-256 digits of the quotient, which fits in them. -/
theorem counterBytesAreBigEndian : Obligations.CounterBytesAreBigEndian := by
  intro c t _
  refine ⟨counterBytes_length _, ?_⟩
  have hfits : t.toNat / c.timestep < 256 ^ 8 := lt_of_le_of_lt (Nat.div_le_self _ _) t.isLt
  rw [counterBytes_window, counterOf, bigEndian_digits 8, Nat.mod_eq_of_lt hfits]

/-- Two times of one window have the same window counter (R114). -/
theorem window_congr {c : Config} {t u : BitVec 64} (h : t.toNat / c.timestep = u.toNat / c.timestep) :
    window c t = window c u := by
  rw [window, h, window]

/-! ## Truncation (R108, R109, R110) -/

/-- The selected value has its top bit masked (R109). -/
theorem binaryAt_lt (outer : List Byte) (o : Nat) : (binaryAt outer o).toNat < 2 ^ 31 := by
  rw [binaryAt_toNat]
  have h0 := (byteAt outer o).isLt
  have h1 := (byteAt outer (o + 1)).isLt
  have h2 := (byteAt outer (o + 2)).isLt
  have h3 := (byteAt outer (o + 3)).isLt
  omega

/-- A remainder by 1000000 fits in the 20 bits of a code (R110). -/
theorem code_toNat (n : Nat) : (BitVec.ofNat 20 (n % 1000000)).toNat = n % 1000000 := by
  rw [BitVec.toNat_ofNat, Nat.mod_eq_of_lt (by omega)]

/-- Settles O24: the code by `truncate_ok`, its value by `binaryAt_toNat`; the fault is the test that opens `truncate`. -/
theorem truncationSelectsMasksAndReduces : Obligations.TruncationSelectsMasksAndReduces := by
  refine ⟨fun outer hlen => ?_, fun outer hshort => ?_⟩
  · have hlong : 19 ≤ outer.length := by omega
    exact ⟨_, _, rfl, binaryAt_toNat .., binaryAt_lt .., truncate_ok hlong outer, by rw [code_toNat, offsetOf_eq]⟩
  · exact if_pos (by rw [offsetOf_eq]; exact hshort)

/-! ## GENERATE (R104, R111 to R114) -/

/-- Settles O25: `generate_none` and `generate_some`, whose code is the truncation of the outer digest by `truncate_ok`. -/
theorem generateIssuesEightCommands : Obligations.GenerateIssuesEightCommands := by
  intro s t hc
  obtain ⟨-, -, -, -, hdigest, -⟩ := wf_facts hc
  exact ⟨fun hp => generate_none hp t,
    fun hp => ⟨codeOf s t, _, _, _, rfl, rfl, generate_some hc hp t, truncate_ok hdigest _, rfl⟩⟩

/-- The result of GENERATE without the state it leaves: NONE, or the truncation of the outer digest. -/
theorem generate_result (s : State) (t : BitVec 64) :
    (generate s t).map Prod.fst =
      if s.oePadsValid then (truncate s.cfg.digestLen (outerDigest s t)).map some else .ok none := by
  cases hp : s.oePadsValid with
  | false => rw [generate_none hp]; rfl
  | true =>
    rw [generate_valid hp]
    cases truncate s.cfg.digestLen (outerDigest s t) <;> rfl

/-- Settles O26: in `generate_result` the time enters through the window alone (R113, R114). -/
theorem codeDependsOnPadsAndWindowOnly : Obligations.CodeDependsOnPadsAndWindowOnly := by
  intro s u t1 t2 hcfg hipad hopad hvalid hwindow
  rw [generate_result, generate_result, outerDigest, window_congr hwindow, hcfg, hipad, hopad, hvalid, outerDigest]

/-! ## The time of a TICK (R115, R131) -/

/-- TIME_TICK is the tick of the statements (R131, R133). -/
theorem timeTicked_of_timeTick {s t : State} (hsec : t.tcSec = (timeTick s).tcSec)
    (hfrac : t.tcFrac = (timeTick s).tcFrac) : TimeTicked s t := by
  rw [TimeTicked, hsec, hfrac]
  unfold timeTick
  split
  · exact ⟨rfl, rfl⟩
  · split
    · exact ⟨rfl, nextSecond_toNat ..⟩
    · exact ⟨rfl, rfl⟩

/-- Short of the wrap the seconds stay or gain one. -/
theorem timeTick_tcSec {s : State} (h : s.tcSec.toNat + 1 < s.cfg.timeModulus) :
    (timeTick s).tcSec = s.tcSec ∨ (timeTick s).tcSec.toNat = s.tcSec.toNat + 1 := by
  unfold timeTick
  split
  · exact .inl rfl
  · split
    · exact .inr (by rw [nextSecond_toNat, Nat.mod_eq_of_lt h])
    · exact .inl rfl

/-- Settles O32: the seconds stay, or gain one, which gains the quotient one exactly at a multiple of S. -/
theorem windowAdvancesAtMultiplesOfTheTimestep : Obligations.WindowAdvancesAtMultiplesOfTheTimestep := by
  intro s t hc hnowrap htick
  have hsec : t.tcSec = s.tcSec ∨ t.tcSec.toNat = s.tcSec.toNat + 1 := by
    obtain ⟨-, -, -, -, -, -, -, -, -, -, -, ⟨-, hsec, -⟩ | ⟨-, -, rfl⟩⟩ := tick_fields hc htick
    · rw [hsec]; exact timeTick_tcSec hnowrap
    · exact .inl rfl
  rw [window_toNat, window_toNat]
  rcases hsec with hsame | hnext
  · simp [hsame]
  · have hne : t.tcSec ≠ s.tcSec := fun h => by rw [h] at hnext; omega
    simp [hne, hnext, Nat.succ_div, Nat.dvd_iff_mod_eq_zero]

/-! ## A served wake (R186) -/

/-- The state in which START_DISPLAY serves a wake: the tick counted and the flag cleared (R182, R188). -/
def woken (s : State) : State :=
  { s with tcSec := (timeTick s).tcSec, tcFrac := (timeTick s).tcFrac, clPendingWake := false }

/-- A TICK with a wake to serve is START_DISPLAY on the `woken` state: neither the framer, which is IDLE (R190), nor the
listen timer counts in it (R183, R184). -/
theorem execTick_wakeServed {s : State} (h : Invariant s) (hp : s.powered = true) (hw : WakeServed s) :
    execTick s = settle s (startDisplay (woken s)) := by
  obtain ⟨hwake, hserved⟩ := hw
  have hidle : s.pfState = .idle := by
    rcases hserved with hd | ⟨-, hidle⟩
    · exact idle_of_not_listening h hp (by simp [hd])
    · exact hidle
  have hframed : framerTick (timeTick s) = timeTick s := by rw [timeTick_frame]; simp [framerTick, hidle]
  rw [execTick, tickSteps, if_neg (by simp [hp]), hframed, timeTick_frame]
  rcases hserved with hd | ⟨hd, -⟩ <;> simp [controlPoll, hd, pollDormant, pollListening, hidle, hwake, serveWake, woken]

/-- Settles O29: START_DISPLAY changes nothing when GENERATE returns NONE (R112). -/
theorem invalidPadsShowNothing : Obligations.InvalidPadsShowNothing := by
  intro s h hp hpads hw
  have hnone : startDisplay (woken s) = .ok (woken s) := by
    rcases startDisplay_spec (s := woken s) h.ranges.cfg with ⟨-, hsame⟩ | ⟨hvalid, -⟩
    · exact hsame
    · exact absurd (hpads.symm.trans hvalid) (by decide)
  refine ⟨woken s, ?_, ?_, ?_⟩
  · rw [exec, execTick_wakeServed h hp hw, hnone, settle]
  · exact timeTicked_of_timeTick rfl rfl
  · rfl

/-- The code is the HOTP value of the outer digest, as arithmetic on its bytes (R108 to R110). -/
theorem codeOf_toNat (s : State) (t : BitVec 64) : (codeOf s t).toNat = hotpOfDigest (outerDigest s t) := by
  have hlen : (outerDigest s t).length = s.cfg.digestLen := digest_length ..
  rw [codeOf, code_toNat, binaryAt_toNat, offsetOf_eq, hotpOfDigest, hlen]

/-- With the pads of a key of N bytes, the outer digest is the HMAC of the counter under the key (R116). -/
theorem outerDigest_eq_hmac {s : State} {key : List Byte} (t : BitVec 64) (hk : key.length = s.cfg.keyLen)
    (hn : s.cfg.keyLen ≤ 64) (hipad : s.oeIpad = padOf s.cfg 0x36 key) (hopad : s.oeOpad = padOf s.cfg 0x5C key) :
    outerDigest s t = hmac s.cfg key (counterOf s.cfg t) := by
  rw [outerDigest, counterBytes_window, hipad, hopad, padOf_eq_map _ hk hn, padOf_eq_map _ hk hn, hmac]

/-- Settles O27: the display of `startDisplay_spec` shows `codeOf`, which `outerDigest_eq_hmac` makes the HOTP value of the
stored key, since the pads are fresh (R41 item 6, R103). -/
theorem displayShowsTheHotpOfTheStoredKey : Obligations.DisplayShowsTheHotpOfTheStoredKey := by
  intro s h hp hpads hw
  obtain ⟨-, hn, -⟩ := wf_facts h.ranges.cfg
  obtain ⟨hipad, hopad⟩ := (h.powered hp).pads_fresh hpads
  have htick := execTick_wakeServed h hp hw
  rcases startDisplay_spec (s := woken s) h.ranges.cfg with ⟨hinvalid, -⟩ | ⟨-, hshow⟩
  · exact absurd (hpads.symm.trans hinvalid) (by decide)
  · rw [hshow, settle] at htick
    refine ⟨_, htick, rfl, ?_, decimalValue_digits6 (code_lt _), digits6_length _, rfl⟩
    calc (codeOf (woken s) (woken s).tcSec).toNat = hotpOfDigest (outerDigest (woken s) (woken s).tcSec) := codeOf_toNat ..
      _ = hotpOfDigest (hmac s.cfg (keyStoreBytes s) (counterOf s.cfg (woken s).tcSec)) :=
        congrArg _ (outerDigest_eq_hmac _ (by simp [keyStoreBytes, woken]) hn hipad hopad)

/-! ## Where the engine runs (R118) -/

/-- A poll that issues hash commands is one that shows a code. -/
theorem PollCase.hashLog {s t : State} (h : PollCase s t) :
    t.hashLog = s.hashLog ∨ (s.clPendingWake = true ∧ t.clDevState = .displaying) := by
  cases h with
  | wakeShown _ hw _ ht => exact .inr ⟨hw, by rw [ht]; rfl⟩
  | displayExpires _ _ _ ht | windowPasses _ _ _ ht =>
    obtain ⟨d, l, hend, -⟩ := endDisplay_spec s
    exact .inl (by rw [ht, hend])
  | wakeLost _ _ _ ht | dormantListens _ _ _ ht | dormantOpens _ _ _ _ ht | dormantCounts _ _ _ _ ht
  | frameWaits _ _ ht | listenStays _ _ _ _ ht | listenCloses _ _ _ _ _ ht | listenCounts _ _ _ _ _ ht
  | displayCounts _ _ _ ht | windowHolds _ _ _ ht => exact .inl (by rw [ht])

/-- A TICK that issues hash commands serves a wake into DISPLAYING. -/
theorem execTick_hashLog {s t : State} (hc : s.cfg.wf = true) (h : execTick s = .next t) :
    t.hashLog = s.hashLog ∨ (s.clPendingWake = true ∧ t.clDevState = .displaying) := by
  by_cases hr : s.powered = true ∧ s.clDevState = .reserved
  · obtain rfl := Host.Outcome.next.inj ((execTick_reserved hr.1 hr.2).symm.trans h)
    exact .inl rfl
  · obtain ⟨t', htick, hcase⟩ := execTick_cases hc fun hp hd => hr ⟨hp, hd⟩
    obtain rfl := Host.Outcome.next.inj (htick.symm.trans h)
    rcases hcase with ⟨-, rfl⟩ | ⟨-, hpoll⟩
    · exact .inl (by rw [timeTick_frame])
    · have hlog := hpoll.hashLog
      rcases framed_cases s with ⟨-, hf⟩ | ⟨-, -, hf⟩ | ⟨-, -, hf⟩ <;> rw [hf] at hlog <;> exact hlog

/-- Only TICK invokes GENERATE, and only a commit and the power events write the pads. -/
theorem exec_engine {i : Instr} {s t : State} (hc : s.cfg.wf = true) (h : exec i s = .next t) :
    (t.hashLog = s.hashLog ∨ i = .tick) ∧
    ((t.oeIpad = s.oeIpad ∧ t.oeOpad = s.oeOpad) ∨ i = .pwrOn ∨ i = .pwrOff ∨ ∃ d, i = .rxKeyLast d) := by
  cases i with
  | tick =>
    obtain ⟨-, -, -, -, -, -, -, -, hipad, hopad, -⟩ := tick_fields hc h
    exact ⟨.inr rfl, .inl ⟨hipad, hopad⟩⟩
  | rxKeyLast d =>
    obtain ⟨m, w, r, hnext, -⟩ := execRxKeyLast_frame d s _ rfl
    obtain rfl := Host.Outcome.next.inj (hnext.symm.trans h)
    exact ⟨.inl rfl, .inr (.inr (.inr ⟨d, rfl⟩))⟩
  | pwrOn =>
    obtain ⟨ds, d, r, m, w, i, o, v, st, sec, frac, hnext, -⟩ := execPwrOn_frame s
    obtain rfl := Host.Outcome.next.inj (hnext.symm.trans h)
    exact ⟨.inl rfl, .inr (.inl rfl)⟩
  | pwrOff =>
    refine ⟨.inl ?_, .inr (.inr (.inl rfl))⟩
    obtain ⟨-, -, -, -, -, -, -, -, -, -, -, -, hlog, -⟩ := powerOff_keeps s
    simp only [exec, execPwrOff] at h
    split at h <;> obtain rfl := Host.Outcome.next.inj h
    · rfl
    · exact hlog
  | rxDrop d =>
    simp only [exec, execRxDrop] at h
    split at h <;> obtain rfl := Host.Outcome.next.inj h <;> exact ⟨.inl rfl, .inl ⟨rfl, rfl⟩⟩
  | btn =>
    simp only [exec, execBtn] at h
    split at h <;> obtain rfl := Host.Outcome.next.inj h <;> exact ⟨.inl rfl, .inl ⟨rfl, rfl⟩⟩
  | rxOff d | rxSentinel | rxIgnored d | rxKey d =>
    obtain rfl := Host.Outcome.next.inj h
    exact ⟨.inl rfl, .inl ⟨rfl, rfl⟩⟩

/-- Settles O57: `exec_engine` names the operations; the TICK's condition is `execTick_hashLog`, the commit's is its row's
(R151). A refused word touches neither. -/
theorem engineRunsOnlyWhereInvoked : Obligations.EngineRunsOnlyWhereInvoked := by
  intro s t w rest _ hnext hstep
  obtain ⟨hc, w', rest', hevents, hcase⟩ := step_next hstep
  obtain ⟨rfl, rfl⟩ := List.cons.inj (hevents.symm.trans hnext)
  rcases hcase with ⟨i, hdecode, hexec⟩ | ⟨-, rfl⟩
  · obtain ⟨hlog, hpads⟩ := exec_engine (s := { s with events := rest' }) hc hexec
    obtain ⟨hword, -⟩ := encode_decode hdecode
    refine ⟨fun hne => ?_, fun hne => ?_⟩
    · obtain rfl : i = .tick := hlog.resolve_left hne
      exact ⟨hword.symm, (execTick_hashLog (s := { s with events := rest' }) hc hexec).resolve_left hne⟩
    · rcases hpads with ⟨hipad, hopad⟩ | rfl | rfl | ⟨d, rfl⟩
      · exact hne.elim (absurd hipad) (absurd hopad)
      · exact .inl hword.symm
      · exact .inr (.inl hword.symm)
      · have hrow := decode_admits hdecode
        simp only [RxContext.admits, rxContext, Bool.and_eq_true, decide_eq_true_eq, Bool.not_eq_true',
          decide_eq_false_iff_not] at hrow
        obtain ⟨⟨⟨-, hlistening⟩, hcollecting⟩, hlast⟩ := hrow
        exact .inr (.inr ⟨by rw [← hword]; exact kindOf_eventWord 0x01 d, hlistening, hcollecting, hlast⟩)
  · exact ⟨absurd rfl, fun hne => hne.elim (absurd rfl) (absurd rfl)⟩

/-! ## What is transmitted does not depend on the stored key (R117, R227)

The key, the pads and what is computed from them are concealed; every operation then does the same to two states that are
alike, the reads of a boot included, whose failures depend on the draws alone. -/

/-- A state without its key, its pads and the elements that may depend on them, and without the reason of a refusal, which
nothing reads. -/
def concealed (s : State) : State :=
  { s with ks := [], ksLog := [], oeIpad := [], oeOpad := [], oeCode := 0, clDisplayText := [], hashLog := [],
           dispLog := [], refused := none }

@[simp] theorem concealed_cfg (s : State) : (concealed s).cfg = s.cfg := rfl
@[simp] theorem concealed_ksDraws (s : State) : (concealed s).ksDraws = s.ksDraws := rfl
@[simp] theorem concealed_powered (s : State) : (concealed s).powered = s.powered := rfl
@[simp] theorem concealed_pfState (s : State) : (concealed s).pfState = s.pfState := rfl
@[simp] theorem concealed_clDevState (s : State) : (concealed s).clDevState = s.clDevState := rfl
@[simp] theorem concealed_clPendingWake (s : State) : (concealed s).clPendingWake = s.clPendingWake := rfl

/-- Two states that differ in concealed elements only. -/
abbrev Alike (s u : State) : Prop := concealed s = concealed u

theorem Alike.cfg {s u : State} (h : Alike s u) : s.cfg = u.cfg := (congrArg State.cfg h :)
theorem Alike.events {s u : State} (h : Alike s u) : s.events = u.events := (congrArg State.events h :)
theorem Alike.txLog {s u : State} (h : Alike s u) : s.txLog = u.txLog := (congrArg State.txLog h :)
theorem Alike.rxContext {s u : State} (h : Alike s u) : rxContext s = rxContext u := (congrArg Machine.rxContext h :)

/-- Events taken from alike states leave alike states. -/
theorem Alike.withEvents {s u : State} (h : Alike s u) (es : List EventWord) :
    Alike { s with events := es } { u with events := es } :=
  (congrArg (fun x : State => { x with events := es }) h :)

/-- An operation whose effect on the elements not concealed does not depend on those that are. -/
def Blind (f : State → State) : Prop := ∀ s, Alike (f s) (f (concealed s))

theorem Blind.alike {f : State → State} (hf : Blind f) {s u : State} (h : Alike s u) : Alike (f s) (f u) :=
  (hf s).trans (h ▸ (hf u).symm)

theorem Blind.comp {f g : State → State} (hg : Blind g) (hf : Blind f) : Blind (g ∘ f) := fun s => hg.alike (hf s)

/-! ### The parts of a TICK -/

theorem blind_timeTick : Blind timeTick := by
  intro s
  simp only [Alike, timeTick, apply_ite concealed]
  rfl

theorem blind_framerTick : Blind framerTick := by
  intro s
  rw [framerTick, framerTick, concealed_pfState]
  cases s.pfState with
  | idle => rfl
  | collecting =>
    simp only [Alike, apply_ite concealed]
    rfl

theorem blind_enterHome : Blind enterHome := by
  intro s
  rw [enterHome, enterHome, concealed_cfg]
  cases s.cfg.listenMode <;> rfl

theorem blind_endDisplay : Blind endDisplay := fun _ => blind_enterHome.alike rfl

theorem blind_pollDisplaying : Blind pollDisplaying := by
  intro s
  rw [pollDisplaying, pollDisplaying, concealed_cfg]
  cases s.cfg.displayMode <;>
  · simp only [Alike, apply_ite concealed]
    rw [blind_endDisplay]
    rfl

theorem blind_windowTick : Blind windowTick := by
  intro s
  rw [windowTick, windowTick, concealed_cfg]
  cases s.cfg.listenMode <;> rfl

/-- The displays of two alike states show codes that may differ, but whether they show one depends on `oe_pads_valid`. -/
theorem startDisplay_concealed {s : State} (hc : s.cfg.wf = true) :
    (startDisplay s).map concealed = (startDisplay (concealed s)).map concealed := by
  rcases startDisplay_spec hc with ⟨hp, h⟩ | ⟨hp, h⟩
  · rw [h, startDisplay, generate_none (s := concealed s) hp]
    rfl
  · rw [h, startDisplay, generate_some (s := concealed s) hc hp]
    rfl

theorem serveWake_concealed {s : State} (hc : s.cfg.wf = true) :
    (serveWake s).map concealed = (serveWake (concealed s)).map concealed :=
  startDisplay_concealed (s := { s with clPendingWake := false }) hc

theorem pollDormant_concealed {s : State} (hc : s.cfg.wf = true) :
    (pollDormant s).map concealed = (pollDormant (concealed s)).map concealed := by
  rw [pollDormant, pollDormant, concealed_clPendingWake, concealed_cfg]
  split
  · exact serveWake_concealed hc
  · cases s.cfg.listenMode with
    | continuous => rfl
    | periodic =>
      simp only [apply_ite (Except.map concealed)]
      rfl

theorem pollListening_concealed {s : State} (hc : s.cfg.wf = true) :
    (pollListening s).map concealed = (pollListening (concealed s)).map concealed := by
  have htimer : (windowTick (concealed s)).clListenTimer = (windowTick s).clListenTimer :=
    (congrArg State.clListenTimer (blind_windowTick s)).symm
  rw [pollListening, pollListening, concealed_pfState, concealed_clPendingWake, concealed_cfg, htimer]
  cases s.pfState with
  | collecting => exact congrArg Except.ok (blind_windowTick s)
  | idle =>
    dsimp only
    split
    · exact serveWake_concealed hc
    · cases s.cfg.listenMode with
      | continuous => rfl
      | periodic =>
        dsimp only
        split
        · exact congrArg Except.ok (blind_enterHome.comp blind_windowTick s)
        · exact congrArg Except.ok (blind_windowTick s)

theorem controlPoll_concealed {s : State} (hc : s.cfg.wf = true) :
    (controlPoll s).map concealed = (controlPoll (concealed s)).map concealed := by
  rw [controlPoll, controlPoll, concealed_clDevState]
  cases s.clDevState with
  | dormant => exact pollDormant_concealed hc
  | listening => exact pollListening_concealed hc
  | displaying => exact congrArg Except.ok (blind_pollDisplaying s)
  | reserved => rfl

/-- TICK by its parts: it answers in two alike states alike, or is the same fault in both. -/
theorem tickSteps_concealed {s : State} (hc : s.cfg.wf = true) :
    (tickSteps s).map concealed = (tickSteps (concealed s)).map concealed := by
  rw [tickSteps, tickSteps, concealed_powered]
  split
  · exact congrArg Except.ok (blind_timeTick s)
  · have hframed : Alike (framerTick (timeTick s)) (framerTick (timeTick (concealed s))) :=
      blind_framerTick.comp blind_timeTick s
    have hcfg : (framerTick (timeTick s)).cfg = s.cfg := by
      rcases framed_cases s with ⟨-, h⟩ | ⟨-, -, h⟩ | ⟨-, -, h⟩ <;> rw [h]
    have hcfg' : (framerTick (timeTick (concealed s))).cfg = s.cfg := hframed.cfg.symm.trans hcfg
    rw [controlPoll_concealed (by rw [hcfg, hc]), hframed, ← controlPoll_concealed (by rw [hcfg', hc])]

theorem settle_concealed {s t : State} {r r' : Except Fault State} (hr : r.map concealed = r'.map concealed)
    (h : settle s r = .next t) : ∃ v, settle (concealed s) r' = .next v ∧ Alike t v := by
  obtain f | a := r <;> obtain f' | b := r'
  · obtain rfl := Except.error.inj hr
    obtain rfl := Host.Outcome.next.inj h
    exact ⟨_, rfl, rfl⟩
  · exact absurd hr nofun
  · exact absurd hr nofun
  · obtain rfl := Host.Outcome.next.inj h
    exact ⟨b, rfl, Except.ok.inj hr⟩

/-! ### The commit and the power events -/

theorem ksUpdateAll_concealed (s : State) (a : Nat) (l : List Byte) : concealed (ksUpdateAll s a l) = concealed s := by
  obtain ⟨m, w, r, h, -⟩ := ksUpdateAll_frame l a s
  rw [h]
  rfl

/-- The pads are concealed, whatever their keys. -/
theorem computePads_alike {s u : State} (h : Alike s u) (k k' : List Byte) : Alike (computePads s k) (computePads u k') :=
  (congrArg (fun x => concealed (computePads x k)) h :)

theorem blind_darkenDisplay : Blind darkenDisplay := by
  have hdark : ∀ s, concealed (darkenDisplay s) = { concealed s with clDisplayEn := false } := fun s => by
    unfold darkenDisplay
    split <;> rfl
  exact fun s => (hdark s).trans (hdark (concealed s)).symm

theorem blind_powerOff : Blind powerOff := fun s =>
  (show Blind fun s => { scrambleVolatile s with powered := false } from fun _ => rfl).alike (blind_darkenDisplay s)

theorem blind_tcPowerOn : Blind tcPowerOn := by
  intro s
  rw [tcPowerOn, tcPowerOn, concealed_cfg]
  cases s.cfg.timeStrategy <;> rfl

/-- The results of two reads that both fail or both answer, and leave alike states. -/
inductive SameRead {α : Type} : Option α × State → Option α × State → Prop where
  | failed {t u : State} (h : Alike t u) : SameRead (none, t) (none, u)
  | answered {t u : State} (v w : α) (h : Alike t u) : SameRead (some v, t) (some w, u)

theorem drawReadFailure_concealed (s : State) :
    drawReadFailure (concealed s) = ((drawReadFailure s).1, concealed (drawReadFailure s).2) := by
  rw [drawReadFailure, drawReadFailure, concealed_ksDraws]
  cases s.ksDraws <;> rfl

/-- Whether a read fails depends on the draws, not on the byte (R54). -/
theorem memRead_alike {s u : State} (h : Alike s u) (a : Nat) : SameRead (memRead s a) (memRead u a) := by
  rw [memRead, memRead, h.cfg]
  split
  · cases u.cfg.ksFaultModel with
    | never => exact .answered _ _ h
    | draw =>
      have hdraw := congrArg drawReadFailure h
      rw [drawReadFailure_concealed, drawReadFailure_concealed] at hdraw
      obtain ⟨hfails, hleft⟩ := Prod.mk.inj hdraw
      dsimp only
      rw [hfails]
      split
      · exact .failed hleft
      · exact .answered _ _ hleft
  · exact .failed h

theorem readKeyFrom_alike (n a : Nat) {s u : State} (h : Alike s u) :
    SameRead (readKeyFrom s a n) (readKeyFrom u a n) := by
  induction n generalizing a s u with
  | zero => exact .answered _ _ h
  | succ n ih =>
    have hread := memRead_alike h a
    rw [readKeyFrom, readKeyFrom]
    generalize memRead s a = p, memRead u a = q at hread
    cases hread with
    | failed h => exact .failed h
    | @answered t q v w h =>
      have hrest := ih (a + 1) h
      dsimp only
      generalize readKeyFrom t (a + 1) n = p, readKeyFrom q (a + 1) n = p' at hrest
      cases hrest with
      | failed h => exact .failed h
      | answered vs ws h => exact .answered _ _ h

theorem bootPads_alike {s u : State} (h : Alike s u) : Alike (bootPads s) (bootPads u) := by
  have hread := readKeyFrom_alike u.cfg.keyLen 0 h
  rw [bootPads, bootPads, h.cfg]
  generalize readKeyFrom s 0 u.cfg.keyLen = p, readKeyFrom u 0 u.cfg.keyLen = q at hread
  cases hread with
  | failed h => exact (show Blind bootFail from fun _ => rfl).alike h
  | answered k k' h => exact computePads_alike h k k'

/-- A boot may zero one of two stores and not the other, which conceals the difference. -/
theorem bootKeystore_alike {s u : State} (h : Alike s u) : Alike (bootKeystore s) (bootKeystore u) := by
  have hread := memRead_alike h 0
  have hzeroed : ∀ (t : State) (v : Byte), Alike (if v = erasedByte then zeroKeyStore t else t) t := fun t v => by
    split
    · exact ksUpdateAll_concealed t 0 _
    · rfl
  rw [bootKeystore, bootKeystore]
  generalize memRead s 0 = p, memRead u 0 = q at hread
  cases hread with
  | failed h => exact (show Blind bootFail from fun _ => rfl).alike h
  | answered v w h =>
    dsimp only
    rw [← apply_ite bootPads, ← apply_ite bootPads]
    exact bootPads_alike ((hzeroed _ v).trans (h.trans (hzeroed _ w).symm))

/-! ### Operations, steps and runs -/

theorem alike_of_ite_next {p : Prop} [Decidable p] {a b a' b' t : State}
    (h : (if p then .next a else .next b : Host.Outcome State Fault Refusal) = .next t) (ha : Alike a a')
    (hb : Alike b b') : ∃ v, (if p then .next a' else .next b' : Host.Outcome State Fault Refusal) = .next v ∧ Alike t v := by
  rw [← apply_ite Host.Outcome.next] at h ⊢
  obtain rfl := Host.Outcome.next.inj h
  refine ⟨_, rfl, ?_⟩
  split
  · exact ha
  · exact hb

/-- Every operation answers in the concealed state too, and alike. -/
theorem exec_concealed {i : Instr} {s t : State} (hc : s.cfg.wf = true) (h : exec i s = .next t) :
    ∃ v, exec i (concealed s) = .next v ∧ Alike t v := by
  cases i with
  | rxOff d | rxSentinel | rxIgnored d | rxKey d =>
    obtain rfl := Host.Outcome.next.inj h
    exact ⟨_, rfl, rfl⟩
  | rxDrop d =>
    simp only [exec, execRxDrop, concealed_clDevState] at h ⊢
    split at h <;> obtain rfl := Host.Outcome.next.inj h <;> exact ⟨_, rfl, rfl⟩
  | rxKeyLast d =>
    obtain ⟨m, w, r, hs, -⟩ := execRxKeyLast_frame d s _ rfl
    obtain ⟨m', w', r', hs', -⟩ := execRxKeyLast_frame d (concealed s) _ rfl
    obtain rfl := Host.Outcome.next.inj (hs.symm.trans h)
    exact ⟨_, hs', rfl⟩
  | btn => exact alike_of_ite_next h rfl rfl
  | tick => exact settle_concealed (tickSteps_concealed hc) h
  | pwrOff => exact alike_of_ite_next h rfl (blind_powerOff s)
  | pwrOn =>
    obtain rfl := Host.Outcome.next.inj h
    refine ⟨_, rfl, bootKeystore_alike (blind_tcPowerOn.alike ((show Blind resetVolatile from fun _ => rfl).alike ?_))⟩
    rw [concealed_powered]
    split
    · exact blind_powerOff s
    · rfl

theorem exec_alike {i : Instr} {s u t v : State} (hc : s.cfg.wf = true) (halike : Alike s u) (ht : exec i s = .next t)
    (hv : exec i u = .next v) : Alike t v := by
  obtain ⟨t', ht', htt⟩ := exec_concealed hc ht
  obtain ⟨v', hv', hvv⟩ := exec_concealed (halike.cfg ▸ hc) hv
  rw [halike] at ht'
  obtain rfl := Host.Outcome.next.inj (ht'.symm.trans hv')
  exact htt.trans hvv.symm

/-- Alike states take the same word, which spells the same operation in both. -/
theorem step_alike {s u t v : State} (halike : Alike s u) (ht : step s = .next t) (hv : step u = .next v) :
    Alike t v := by
  obtain ⟨hc, w, rest, hes, hs⟩ := step_next ht
  obtain ⟨-, w', rest', heu, hu⟩ := step_next hv
  obtain ⟨rfl, rfl⟩ := List.cons.inj (hes.symm.trans (halike.events.trans heu))
  have htaken := halike.withEvents rest
  rw [← halike.rxContext] at hu
  rcases hs with ⟨i, hi, hs⟩ | ⟨⟨e, he⟩, rfl⟩ <;> rcases hu with ⟨j, hj, hu⟩ | ⟨⟨e', he'⟩, rfl⟩
  · obtain rfl := Except.ok.inj (hi.symm.trans hj)
    exact exec_alike (s := { s with events := rest }) hc htaken hs hu
  · exact absurd (hi.symm.trans he') nofun
  · exact absurd (hj.symm.trans he) nofun
  · exact htaken

/-- The first step of a run that answers. -/
theorem run_succ_next {k : Nat} {s t : State} (h : core.run (k + 1) s = .next t) :
    ∃ u, step s = .next u ∧ core.run k u = .next t := by
  rcases step_cases s with ⟨-, e⟩ | ⟨-, e⟩ | ⟨u, e⟩
  · have e : core.step s = .refused .configuration := e
    simp [Host.Core.run, e] at h
  · have e : core.step s = .refused .noEvent := e
    simp [Host.Core.run, e] at h
  · exact ⟨u, e, by rwa [run_succ k e] at h⟩

theorem run_alike (k : Nat) {s u t v : State} (halike : Alike s u) (ht : core.run k s = .next t)
    (hv : core.run k u = .next v) : Alike t v := by
  induction k generalizing s u with
  | zero =>
    obtain rfl := Host.Outcome.next.inj ht
    obtain rfl := Host.Outcome.next.inj hv
    exact halike
  | succ k ih =>
    obtain ⟨s', hs, hs'⟩ := run_succ_next ht
    obtain ⟨u', hu, hu'⟩ := run_succ_next hv
    exact ih (step_alike halike hs hu) hs' hu'

/-- Settles O58: the two states are alike, runs keep them so, and what is transmitted is not concealed. -/
theorem transmissionIsIndependentOfTheStoredKey : Obligations.TransmissionIsIndependentOfTheStoredKey := by
  intro k s ks ipad opad t u ht hu
  have halike : Alike s { s with ks := ks, oeIpad := ipad, oeOpad := opad } := rfl
  exact (run_alike k halike ht hu).txLog

end Sys2Proof.Machine

/-! # Proofs: the time counter (spec/42_time_counter.md) -/

namespace Sys2Proof.Machine

open Claims

/-! ## The tick (R131, R133) -/

/-- Settles O30: outside the reserved device state a TICK answers, with the time of TIME_TICK by `tick_fields`; unpowered
it is TIME_TICK alone, which writes nothing but the time. -/
theorem tickAdvancesTheCounter : Obligations.TickAdvancesTheCounter := by
  intro s hc hr
  obtain ⟨t, htick, hcase⟩ := execTick_cases hc hr
  refine ⟨t, htick, ?_, fun hoff => ?_⟩
  · obtain ⟨-, -, -, -, -, -, -, -, -, -, -, ⟨-, hsec, hfrac⟩ | ⟨hp, hreserved, -⟩⟩ := tick_fields hc htick
    · exact timeTicked_of_timeTick hsec hfrac
    · exact absurd hreserved (hr hp)
  · rcases hcase with ⟨-, rfl⟩ | ⟨hp, -⟩
    · exact timeTick_frame s
    · exact absurd (hoff.symm.trans hp) (by decide)

/-! ## The seconds (R136, R138) -/

/-- At the last second of the counter's range the seconds stay or wrap. -/
theorem timeTick_tcSec_last {s : State} (h : s.tcSec.toNat + 1 = s.cfg.timeModulus) :
    (timeTick s).tcSec = s.tcSec ∨ (timeTick s).tcSec = 0 := by
  unfold timeTick
  split
  · exact .inl rfl
  · split
    · exact .inr (BitVec.eq_of_toNat_eq (by rw [nextSecond_toNat, h, Nat.mod_self]; rfl))
    · exact .inl rfl

/-- What an operation can make of the seconds: a TICK does TIME_TICK, PWR_ON under UPTIME restarts them, and nothing else
writes them. -/
theorem exec_tcSec {i : Instr} {s t : State} (hc : s.cfg.wf = true) (h : exec i s = .next t) :
    t.tcSec = s.tcSec ∨ (i = .pwrOn ∧ s.cfg.timeStrategy = .uptime ∧ t.tcSec = 0) ∨
      (i = .tick ∧ t.tcSec = (timeTick s).tcSec) := by
  cases i with
  | tick =>
    obtain ⟨-, -, -, -, -, -, -, -, -, -, -, ⟨-, hsec, -⟩ | ⟨-, -, rfl⟩⟩ := tick_fields hc h
    · exact .inr (.inr ⟨rfl, hsec⟩)
    · exact .inl rfl
  | pwrOn =>
    obtain ⟨ds, d, r, m, w, i, o, v, st, sec, frac, hnext, -, -, -, -, -, -, -, hrtc, huptime⟩ := execPwrOn_frame s
    obtain rfl := Host.Outcome.next.inj (hnext.symm.trans h)
    cases hs : s.cfg.timeStrategy with
    | rtc => exact .inl (hrtc hs).1
    | uptime => exact .inr (.inl ⟨rfl, rfl, (huptime hs).1⟩)
  | pwrOff =>
    obtain ⟨-, -, -, -, -, -, -, hsec, -⟩ := powerOff_keeps s
    simp only [exec, execPwrOff] at h
    split at h <;> obtain rfl := Host.Outcome.next.inj h
    · exact .inl rfl
    · exact .inl hsec
  | rxKeyLast d =>
    obtain ⟨m, w, r, hnext, -⟩ := execRxKeyLast_frame d s _ rfl
    obtain rfl := Host.Outcome.next.inj (hnext.symm.trans h)
    exact .inl rfl
  | rxDrop d =>
    simp only [exec, execRxDrop] at h
    split at h <;> obtain rfl := Host.Outcome.next.inj h <;> exact .inl rfl
  | btn =>
    simp only [exec, execBtn] at h
    split at h <;> obtain rfl := Host.Outcome.next.inj h <;> exact .inl rfl
  | rxOff d | rxSentinel | rxIgnored d | rxKey d =>
    obtain rfl := Host.Outcome.next.inj h
    exact .inl rfl

/-- Settles O31: `exec_tcSec` names the operations; a TICK gains at most one second (`timeTick_tcSec`) before the last of
the range, and at it wraps (`timeTick_tcSec_last`). A refused word leaves the time alone. -/
theorem timeIsMonotone : Obligations.TimeIsMonotone := by
  intro s t w rest hrange hnext hstep
  obtain ⟨hc, w', rest', hevents, hcase⟩ := step_next hstep
  obtain ⟨rfl, rfl⟩ := List.cons.inj (hevents.symm.trans hnext)
  rcases hcase with ⟨i, hdecode, hexec⟩ | ⟨-, rfl⟩
  · obtain ⟨hword, -⟩ := encode_decode hdecode
    rcases exec_tcSec (s := { s with events := rest' }) hc hexec with hsame | ⟨rfl, hs, hzero⟩ | ⟨rfl, htick⟩
    · exact .inl hsame
    · exact .inr (.inr (.inl ⟨hword.symm, hs, hzero⟩))
    · rw [htick]
      rcases Nat.lt_or_eq_of_le (Nat.succ_le_of_lt hrange) with hshort | hlast
      · rcases timeTick_tcSec (s := { s with events := rest' }) hshort with hsame | hgain
        · exact .inl hsame
        · exact .inr (.inl hgain)
      · rcases timeTick_tcSec_last (s := { s with events := rest' }) hlast with hsame | hzero
        · exact .inl hsame
        · exact .inr (.inr (.inr ⟨hword.symm, Nat.eq_sub_of_add_eq hlast, hzero⟩))
  · exact .inl rfl

/-! ## The provisioning deadline (R140) -/

/-- PROV_TIMEOUT_TICKS is the tick count of a wait of PROV_TIMEOUT_MS (R87, R140). -/
theorem provTimeoutTicks_eq_msTicks (c : Config) : c.provTimeoutTicks = msTicks c 2000 := rfl

/-- Settles O33: the deadline rounds up as WAIT_MS does, so `msTicks_least` is said of it. -/
theorem provTimeoutIsTheLeastTickCount : Obligations.ProvTimeoutIsTheLeastTickCount := by
  intro c
  rw [provTimeoutTicks_eq_msTicks]
  exact msTicks_least c 2000

end Sys2Proof.Machine

/-! # Proofs: provisioning (spec/43_provisioning.md) -/

namespace Sys2Proof.Machine

open Claims

/-! ## RX dispatch (R151)

One lemma for each of the six operations: its row's condition makes it the operation the next RX word names. -/

/-- The word of a well-formed operation performs it in every state its row applies in (R74). -/
theorem step_encode {s : State} {rest : List EventWord} {i : Instr} (hc : s.cfg.wf = true)
    (he : s.events = encode i :: rest) (hwf : i.wf = true) (ha : (rxContext s).admits i = true) :
    step s = exec i (taken s rest) :=
  step_exec hc he (decode_encode hwf ha)

section Dispatch

variable {s : State} {d : Byte} {rest : List EventWord} (hc : s.cfg.wf = true)
include hc

theorem step_rxOff (he : s.events = eventWord 0x01 d :: rest) (hp : s.powered = false) :
    step s = exec (.rxOff d) (taken s rest) :=
  step_encode hc he rfl (by simp [RxContext.admits, rxContext, hp])

theorem step_rxDrop (he : s.events = eventWord 0x01 d :: rest) (hp : s.powered = true)
    (hl : s.clDevState ≠ .listening) : step s = exec (.rxDrop d) (taken s rest) :=
  step_encode hc he rfl (by simp [RxContext.admits, rxContext, hp, hl])

theorem step_rxSentinel (he : s.events = eventWord 0x01 0xAA :: rest) (hp : s.powered = true)
    (hl : s.clDevState = .listening) (hf : s.pfState = .idle) : step s = exec .rxSentinel (taken s rest) :=
  step_encode hc he rfl (by simp [RxContext.admits, rxContext, hp, hl, hf])

theorem step_rxIgnored (he : s.events = eventWord 0x01 d :: rest) (hp : s.powered = true)
    (hl : s.clDevState = .listening) (hf : s.pfState = .idle) (hd : d ≠ 0xAA) :
    step s = exec (.rxIgnored d) (taken s rest) :=
  step_encode hc he (by simpa [Instr.wf, sentinel] using hd) (by simp [RxContext.admits, rxContext, hp, hl, hf])

theorem step_rxKey (he : s.events = eventWord 0x01 d :: rest) (hp : s.powered = true)
    (hl : s.clDevState = .listening) (hf : s.pfState = .collecting) (hi : s.pfIdx < s.cfg.keyLen - 1) :
    step s = exec (.rxKey d) (taken s rest) :=
  step_encode hc he rfl (by simp [RxContext.admits, rxContext, hp, hl, hf, hi])

theorem step_rxKeyLast (he : s.events = eventWord 0x01 d :: rest) (hp : s.powered = true)
    (hl : s.clDevState = .listening) (hf : s.pfState = .collecting) (hi : ¬ s.pfIdx < s.cfg.keyLen - 1) :
    step s = exec (.rxKeyLast d) (taken s rest) :=
  step_encode hc he rfl (by simp [RxContext.admits, rxContext, hp, hl, hf, hi])

end Dispatch

/-- Settles O5: the six lemmas of this section. -/
theorem rxDispatchOrder : Obligations.RxDispatchOrder := by
  intro s d rest hc he
  exact ⟨step_rxOff hc he, step_rxDrop hc he, fun hp hl hf hd => step_rxSentinel hc (hd ▸ he) hp hl hf,
    step_rxIgnored hc he, step_rxKey hc he, step_rxKeyLast hc he⟩

/-! ## The RX operations that commit nothing (R152 to R155, R163) -/

/-- Settles O7: RX.OFF answers its state, and while unpowered it is the operation dispatched. -/
theorem rxOffChangesNothing : Obligations.RxOffChangesNothing := by
  intro s d hp
  exact ⟨rfl, fun rest hc => step_rxOff (s := { s with events := eventWord 0x01 d :: rest }) hc rfl hp⟩

/-- RX.DROP in a device state R32 names; the fault is for the reserved one alone. -/
theorem exec_rxDrop {s : State} (d : Byte) (h : s.clDevState ≠ .reserved) :
    exec (.rxDrop d) s = .next { s with stRxDropped := true } := by
  cases hs : s.clDevState with
  | reserved => exact absurd hs h
  | dormant | listening | displaying => simp [exec, execRxDrop, hs]

/-- Settles O9: outside LISTENING RX.DROP is dispatched whatever the byte, and `exec_rxDrop` is its effect. -/
theorem rxDropSetsTheStickyBit : Obligations.RxDropSetsTheStickyBit := by
  intro s d hp hd
  have hnamed : s.clDevState ≠ .reserved := by rcases hd with hd | hd <;> simp [hd]
  have haway : s.clDevState ≠ .listening := by rcases hd with hd | hd <;> simp [hd]
  refine ⟨exec_rxDrop d hnamed, fun rest hc => ?_⟩
  rw [step_rxDrop (s := { s with events := eventWord 0x01 d :: rest }) hc rfl hp haway]
  exact exec_rxDrop d hnamed

theorem exec_rxIgnored (s : State) (d : Byte) :
    exec (.rxIgnored d) s = .next { s with txLog := s.txLog ++ ignoredText ++ hexText s.cfg.echoFormat d } := by
  rw [List.append_assoc]
  rfl

/-- Settles O11: a byte that is no sentinel is echoed by `exec_rxIgnored`. -/
theorem rxIgnoredEchoesTheByte : Obligations.RxIgnoredEchoesTheByte := by
  intro s d hp hl hf hd
  refine ⟨exec_rxIgnored s d, fun rest hc => ?_⟩
  rw [step_rxIgnored (s := { s with events := eventWord 0x01 d :: rest }) hc rfl hp hl hf hd]
  exact exec_rxIgnored _ d

/-- Settles O13: RX.SENTINEL's update is its definition's, and 0x01AA is the word that dispatches it. -/
theorem rxSentinelStartsAFrame : Obligations.RxSentinelStartsAFrame := by
  intro s hp hl hf
  exact ⟨rfl, fun rest hc => step_rxSentinel (s := { s with events := 0x01AA :: rest }) hc rfl hp hl hf⟩

/-- Settles O14: RX.KEY's update is its definition's, with `pf_timer` not in it (R160). -/
theorem rxKeyStoresOneByte : Obligations.RxKeyStoresOneByte := by
  intro s d hp hl hf hi
  exact ⟨rfl, fun rest hc => step_rxKey (s := { s with events := eventWord 0x01 d :: rest }) hc rfl hp hl hf hi⟩

/-! ## The commit (R156, R157, R162) -/

/-- For a key of N bytes, the writes of an update of the whole Key Store are those of the differing indices (R57, R162). -/
theorem changesFrom_zero {s : State} {key : List Byte} (hk : key.length = s.cfg.keyLen) :
    changesFrom s.ks 0 key = differing s key := by
  simp only [changesFrom_eq, differing, hk, List.range_eq_range', Nat.sub_zero]

/-- The state after a commit of `key`, with `m` as its Key Store (R157). -/
def committed (s : State) (m : List Host.Cell) (key : List Byte) : State :=
  { s with
    ks := m
    ksLog := s.ksLog ++ differing s key
    oeIpad := padOf s.cfg 0x36 key
    oeOpad := padOf s.cfg 0x5C key
    oePadsValid := true
    txLog := s.txLog ++ savedAck key
    pfBuf := List.replicate s.cfg.keyLen 0x00
    pfIdx := 0
    pfTimer := 0
    pfState := .idle }

/-- RX.KEY_LAST on a buffer of N bytes and a canonical Key Store: `execRxKeyLast_frame` with its existentials determined. -/
theorem exec_rxKeyLast {s : State} {d : Byte} {key : List Byte} (hkey : s.pfBuf.set (s.cfg.keyLen - 1) d = key)
    (hlen : s.pfBuf.length = s.cfg.keyLen) (hwf : Memory.wf s.ks = true) :
    ∃ m, exec (.rxKeyLast d) s = .next (committed s m key) ∧
      (∀ a, a < s.cfg.keyLen → Memory.read m a = byteAt key a) ∧
      (∀ a, s.cfg.keyLen ≤ a → Memory.read m a = Memory.read s.ks a) := by
  have hkeyLen : key.length = s.cfg.keyLen := by rw [← hkey, List.length_set, hlen]
  obtain ⟨m, w, r, hnext, -, hrefused, hstore⟩ := execRxKeyLast_frame d s key hkey.symm
  obtain ⟨-, hwrites, -, hinside, houtside⟩ := hstore hlen.le hwf
  rw [hrefused hlen.le, hwrites, changesFrom_zero hkeyLen] at hnext
  exact ⟨m, hnext, hlen ▸ hinside, hlen ▸ houtside⟩

/-- Settles O15: `exec_rxKeyLast`, with `committed`'s acknowledgment and pads written out (R78, R102). -/
theorem rxKeyLastCommitsTheFrame : Obligations.RxKeyLastCommitsTheFrame := by
  intro s d _ _ _ _ _ hlen hwf
  obtain ⟨m, hnext, hinside, houtside⟩ := exec_rxKeyLast (d := d) rfl hlen hwf
  refine ⟨_, hnext, hinside, houtside, ?_⟩
  simp only [List.append_assoc]
  rfl

/-- Settles O16: the writes are `differing`, a filtered ascending range of indices, each with the key's byte. -/
theorem commitWritesOnlyDifferingBytes : Obligations.CommitWritesOnlyDifferingBytes := by
  intro s d _ hlen hwf
  obtain ⟨m, hnext, -⟩ := exec_rxKeyLast (d := d) rfl hlen hwf
  refine ⟨_, differing s (s.pfBuf.set (s.cfg.keyLen - 1) d), hnext, rfl, ?_, ?_, ?_⟩
  · rw [differing, List.length_map, List.countP_eq_length_filter]
  · rw [differing, List.map_map]
    exact (List.pairwise_lt_range.filter _).map _ fun _ _ hlt => hlt
  · intro a v hmem
    obtain ⟨b, hb, hpair⟩ := List.mem_map.mp hmem
    obtain ⟨rfl, rfl⟩ := Prod.mk.inj hpair
    exact ⟨rfl, bne_iff_ne.mp (List.mem_filter.mp hb).2⟩

/-! ## A whole frame (R154 to R160, R75) -/

/-- A buffer with the bytes `ds` written from index `i` on. -/
def bufferWith (buf : List Byte) (i : Nat) (ds : List Byte) : List Byte :=
  buf.take i ++ ds ++ buf.drop (i + ds.length)

theorem bufferWith_nil (buf : List Byte) (i : Nat) : bufferWith buf i [] = buf := by
  simp [bufferWith]

/-- One byte written at `i`, then the others from the next index on. -/
theorem bufferWith_set {buf : List Byte} {i : Nat} (d : Byte) (ds : List Byte) (hi : i < buf.length) :
    bufferWith (buf.set i d) (i + 1) ds = bufferWith buf i (d :: ds) := by
  have htake : (buf.set i d).take (i + 1) = buf.take i ++ [d] := by
    rw [List.take_add_one, List.take_set_of_le (Nat.le_refl i)]
    simp [hi]
  have hdrop : (buf.set i d).drop (i + 1 + ds.length) = buf.drop (i + (d :: ds).length) := by
    rw [List.drop_set_of_lt (by omega), List.length_cons, Nat.add_assoc, Nat.add_comm 1]
  rw [bufferWith, htake, hdrop, bufferWith, List.append_assoc (buf.take i), List.singleton_append]

/-- The state after the key bytes `ds` of a frame have been collected, and `rest` is to come (R155). -/
def collected (s : State) (ds : List Byte) (rest : List EventWord) : State :=
  { s with events := rest, pfIdx := s.pfIdx + ds.length, pfBuf := bufferWith s.pfBuf s.pfIdx ds }

/-- Key bytes short of a frame's last are collected in order (R155). -/
theorem run_rxKeys (ds : List Byte) {s : State} {rest : List EventWord} (hc : s.cfg.wf = true) (hp : s.powered = true)
    (hl : s.clDevState = .listening) (hf : s.pfState = .collecting) (hlen : s.pfBuf.length = s.cfg.keyLen)
    (hi : s.pfIdx + ds.length < s.cfg.keyLen) (he : s.events = ds.map rxWord ++ rest) :
    core.run ds.length s = .next (collected s ds rest) := by
  induction ds generalizing s with
  | nil =>
    obtain rfl : s.events = rest := he
    rw [collected, bufferWith_nil]
    rfl
  | cons d ds ih =>
    rw [List.length_cons] at hi
    have hstep := step_rxKey hc he hp hl hf (by omega)
    have hrest :=
      ih (s := putKeyByte { s with events := ds.map rxWord ++ rest, pfIdx := s.pfIdx + 1 } s.pfIdx d) hc hp hl hf
        (by simpa using hlen) (by dsimp; omega) rfl
    rw [List.length_cons, run_succ _ hstep]
    refine hrest.trans (congrArg _ ?_)
    simp [collected, putKeyByte, bufferWith_set d ds (hlen ▸ (by omega : s.pfIdx < s.cfg.keyLen)), Nat.add_assoc,
      Nat.add_comm 1]

/-- The last byte of a key completes the buffer its other bytes were collected in (R156). -/
theorem bufferWith_set_last {buf : List Byte} (ds : List Byte) (d : Byte) (hlen : buf.length = ds.length + 1) :
    (bufferWith buf 0 ds).set ds.length d = ds ++ [d] := by
  obtain ⟨b, hb⟩ := List.length_eq_one_iff.mp (show (buf.drop ds.length).length = 1 by simp [hlen])
  simp [bufferWith, hb]

/-- The state a sentinel leaves (R154), with `rest` to come. -/
def begun (s : State) (rest : List EventWord) : State :=
  { s with events := rest, pfState := .collecting, pfIdx := 0, pfTimer := s.cfg.provTimeoutTicks }

/-- A whole frame is the commit of its key in the state it began in: the sentinel and the other key bytes write only what
the commit writes again. -/
theorem run_frameWords {s : State} {key : List Byte} {rest : List EventWord} (h : Invariant s) (hp : s.powered = true)
    (hl : s.clDevState = .listening) (hf : s.pfState = .idle) (hk : key.length = s.cfg.keyLen)
    (he : s.events = frameWords key ++ rest) :
    ∃ m, core.run (s.cfg.keyLen + 1) s = .next (committed (taken s rest) m key) ∧
      ∀ a, a < s.cfg.keyLen → Memory.read m a = byteAt key a := by
  have hc := h.ranges.cfg
  obtain ⟨hn, -⟩ := wf_facts hc
  obtain rfl | ⟨ds, d, rfl⟩ := List.eq_nil_or_concat' key
  · rw [← hk] at hn
    cases hn
  have hlen : s.cfg.keyLen = ds.length + 1 := by simp [← hk]
  have hbuf : s.pfBuf.length = s.cfg.keyLen := h.ranges.pfBuf
  have hwords : s.events = rxWord sentinel :: (ds.map rxWord ++ rxWord d :: rest) := by simp [he, frameWords]
  have hbegin : step s = .next (begun s (ds.map rxWord ++ rxWord d :: rest)) := step_rxSentinel hc hwords hp hl hf
  have hcollect := run_rxKeys ds (s := begun s (ds.map rxWord ++ rxWord d :: rest)) (rest := rxWord d :: rest)
    hc hp hl rfl hbuf (by simp [begun, hlen]) rfl
  generalize hu : collected (begun s (ds.map rxWord ++ rxWord d :: rest)) ds (rxWord d :: rest) = u at hcollect
  have hlast : step u = exec (.rxKeyLast d) (taken u rest) := by
    subst hu
    exact step_rxKeyLast hc rfl hp hl rfl (by simp [collected, begun, hlen])
  have hframe : u.pfBuf.set (u.cfg.keyLen - 1) d = ds ++ [d] := by
    subst hu
    have hindex : s.cfg.keyLen - 1 = ds.length := by rw [hlen, Nat.add_sub_cancel]
    exact hindex ▸ bufferWith_set_last ds d (hbuf.trans hlen)
  have hfull : u.pfBuf.length = u.cfg.keyLen := by
    rw [← List.length_set, hframe, hk, ← hu]
    rfl
  obtain ⟨m, hcommit, hread, -⟩ := exec_rxKeyLast (s := taken u rest) hframe hfull (hu ▸ h.ranges.ksCanonical)
  subst hu
  exact ⟨m, by rw [hlen, run_succ _ hbegin, run_add _ 1 hcollect, run_succ 0 (hlast.trans hcommit)]; rfl, hread⟩

/-- Settles O18: `run_frameWords`, and what a commit writes. -/
theorem fullFrameProvisionsItsKey : Obligations.FullFrameProvisionsItsKey := by
  intro s key rest h hp hl hf hk he
  obtain ⟨m, hrun, hread⟩ := run_frameWords h hp hl hf hk he
  exact ⟨_, hrun, rfl, keyBytes_of_reads m _ key hk hread, rfl, rfl, rfl, rfl, rfl, hl, rfl, rfl⟩

/-! ## The deadline (R158, R160, R211) -/

/-- Settles O17: the poll leaves the framer, the Key Store and the pads as FRAMER_TICK left them (`PollCase.frame`), and
`framed_cases` says how that is. -/
theorem framerTickCountsTheDeadline : Obligations.FramerTickCountsTheDeadline := by
  intro s hc hp hl
  obtain ⟨t, htick, ⟨hoff, -⟩ | ⟨-, hpoll⟩⟩ := execTick_cases hc (fun _ => by simp [hl])
  · exact absurd (hoff.symm.trans hp) (by decide)
  have hframe := hpoll.frame
  refine ⟨t, htick, ?_⟩
  rcases framed_cases s with ⟨hidle, hf⟩ | ⟨hcollecting, htimer, hf⟩ | ⟨hcollecting, htimer, hf⟩ <;> rw [hf] at hframe <;>
    refine ⟨hframe.ks, hframe.ksLog, hframe.oeIpad, hframe.oeOpad, hframe.oePadsValid, ?_⟩
  · exact ⟨fun _ => ⟨hframe.pfState.trans hidle, hframe.pfIdx, hframe.pfBuf, hframe.pfTimer, hframe.txLog⟩,
      fun h => by simp [hidle] at h, fun h => by simp [hidle] at h⟩
  · exact ⟨fun h => by simp [hcollecting] at h,
      fun _ _ => ⟨hframe.pfState.trans hcollecting, hframe.pfIdx, hframe.pfBuf, hframe.pfTimer, hframe.txLog⟩,
      fun _ h => by omega⟩
  · exact ⟨fun h => by simp [hcollecting] at h, fun _ h => by omega,
      fun _ _ => ⟨hframe.pfState, hframe.pfIdx, hframe.pfBuf, hframe.pfTimer, hframe.txLog⟩⟩

/-- A step that meets a TICK with a frame in flight: one tick nearer to the deadline, or past it (R158). -/
theorem step_tick_collecting {s : State} {rest : List EventWord} (h : Invariant s) (hp : s.powered = true)
    (hf : s.pfState = .collecting) (he : s.events = encode .tick :: rest) :
    ∃ t, step s = .next t ∧ Invariant t ∧ t.powered = true ∧ t.events = rest ∧ t.cfg = s.cfg ∧ t.ks = s.ks ∧
      t.ksLog = s.ksLog ∧
      (1 < s.pfTimer → t.pfState = .collecting ∧ t.pfTimer = s.pfTimer - 1 ∧ t.txLog = s.txLog) ∧
      (s.pfTimer = 1 → t.pfState = .idle ∧ t.pfIdx = 0 ∧ t.pfBuf = List.replicate s.cfg.keyLen 0x00 ∧
        t.txLog = s.txLog ++ timeoutText) := by
  have hc := h.ranges.cfg
  have hl := (h.powered hp).collecting_listening hf
  obtain ⟨t, htick, hks, hksLog, -, -, -, -, hcounts, hexpires⟩ := framerTickCountsTheDeadline (taken s rest) hc hp hl
  have hstep : step s = .next t := (step_exec hc he (decode_tick _)).trans htick
  obtain ⟨hcfg, hevents, -, -, -, -, -, -, -, -, hpowered, -⟩ := tick_fields (s := taken s rest) hc htick
  refine ⟨t, hstep, everyStepKeepsTheInvariant s t h hstep, hpowered.trans hp, hevents, hcfg, hks, hksLog,
    fun htimer => ?_, fun htimer => ?_⟩
  · obtain ⟨hstate, -, -, hleft, htx⟩ := hcounts hf htimer
    exact ⟨hstate, hleft, htx⟩
  · obtain ⟨hstate, hidx, hbuf, -, htx⟩ := hexpires hf htimer
    exact ⟨hstate, hidx, hbuf, htx⟩

/-- `t` is `s` after `k` TICKs before its frame's deadline, with `rest` to come. -/
structure InFlight (s : State) (k : Nat) (rest : List EventWord) (t : State) : Prop where
  inv : Invariant t
  powered : t.powered = true
  events : t.events = rest
  cfg : t.cfg = s.cfg
  ks : t.ks = s.ks
  ksLog : t.ksLog = s.ksLog
  pfState : t.pfState = .collecting
  pfTimer : t.pfTimer = s.pfTimer - k
  txLog : t.txLog = s.txLog

theorem run_ticks_inFlight (k : Nat) {s : State} {rest : List EventWord} (h : Invariant s) (hp : s.powered = true)
    (hf : s.pfState = .collecting) (hk : k < s.pfTimer) (he : s.events = List.replicate k (encode .tick) ++ rest) :
    ∃ t, core.run k s = .next t ∧ InFlight s k rest t := by
  induction k generalizing rest with
  | zero => exact ⟨s, run_zero s, h, hp, he, rfl, rfl, rfl, hf, rfl, rfl⟩
  | succ k ih =>
    rw [List.replicate_succ', List.append_assoc] at he
    obtain ⟨t, hrun, ht⟩ := ih (by omega) he
    obtain ⟨u, hstep, hinv, hpowered, hevents, hcfg, hks, hksLog, hcounts, -⟩ :=
      step_tick_collecting ht.inv ht.powered ht.pfState ht.events
    obtain ⟨hstate, hleft, htx⟩ := hcounts (by rw [ht.pfTimer]; omega)
    exact ⟨u, by rw [run_add k 1 hrun, run_succ 0 hstep, run_zero], hinv, hpowered, hevents, hcfg.trans ht.cfg,
      hks.trans ht.ks, hksLog.trans ht.ksLog, hstate, by rw [hleft, ht.pfTimer, Nat.sub_sub], htx.trans ht.txLog⟩

/-- Settles O19: before the deadline the frame is in flight (`run_ticks_inFlight`); its last TICK finds `pf_timer` at 1 and
expires it. -/
theorem partialFrameTimesOut : Obligations.PartialFrameTimesOut := by
  intro s rest h hp hf he
  have hinFlight : ∀ k, k < s.pfTimer → ∃ t, core.run k s = .next t ∧
      InFlight s k (List.replicate (s.pfTimer - k) (encode .tick) ++ rest) t := fun k hk => by
    refine run_ticks_inFlight k h hp hf hk ?_
    rw [he, ← List.append_assoc, List.replicate_append_replicate, Nat.add_sub_cancel' hk.le]
  refine ⟨fun k hk => ?_, ?_⟩
  · obtain ⟨t, hrun, ht⟩ := hinFlight k hk
    exact ⟨t, hrun, ht.pfState, ht.pfTimer, (ht.inv.powered ht.powered).collecting_listening ht.pfState, ht.txLog, ht.ks⟩
  · obtain ⟨-, hpos, -⟩ := (h.powered hp).collecting_bounds hf
    obtain ⟨t, hrun, ht⟩ := hinFlight (s.pfTimer - 1) (by omega)
    have hlast : s.pfTimer - (s.pfTimer - 1) = 1 := by omega
    have hevents : t.events = encode .tick :: rest := by rw [ht.events, hlast]; rfl
    obtain ⟨u, hstep, -, -, -, -, hks, hksLog, -, hexpires⟩ :=
      step_tick_collecting ht.inv ht.powered ht.pfState hevents
    obtain ⟨hstate, hidx, hbuf, htx⟩ := hexpires (ht.pfTimer.trans hlast)
    refine ⟨u, ?_, hstate, hidx, ht.cfg ▸ hbuf, hks.trans ht.ks, hksLog.trans ht.ksLog, ht.txLog ▸ htx⟩
    have hwhole : core.run (s.pfTimer - 1 + 1) s = .next u := by rw [run_add _ 1 hrun, run_succ 0 hstep, run_zero]
    rwa [Nat.sub_add_cancel hpos] at hwhole

/-! ## Where the Key Store changes (R159, R103) -/

/-- Only a commit and a PWR_ON write the Key Store. -/
theorem exec_ks {i : Instr} {s t : State} (hc : s.cfg.wf = true) (h : exec i s = .next t) :
    (t.ks = s.ks ∧ t.ksLog = s.ksLog) ∨ (∃ d, i = .rxKeyLast d) ∨ i = .pwrOn := by
  cases i with
  | rxKeyLast d => exact .inr (.inl ⟨d, rfl⟩)
  | pwrOn => exact .inr (.inr rfl)
  | tick =>
    obtain ⟨-, -, hks, hksLog, -⟩ := tick_fields hc h
    exact .inl ⟨hks, hksLog⟩
  | pwrOff =>
    obtain ⟨-, -, -, -, -, -, -, -, -, hks, hksLog, -⟩ := powerOff_keeps s
    simp only [exec, execPwrOff] at h
    split at h <;> obtain rfl := Host.Outcome.next.inj h
    · exact .inl ⟨rfl, rfl⟩
    · exact .inl ⟨hks, hksLog⟩
  | rxDrop d =>
    simp only [exec, execRxDrop] at h
    split at h <;> obtain rfl := Host.Outcome.next.inj h <;> exact .inl ⟨rfl, rfl⟩
  | btn =>
    simp only [exec, execBtn] at h
    split at h <;> obtain rfl := Host.Outcome.next.inj h <;> exact .inl ⟨rfl, rfl⟩
  | rxOff d | rxSentinel | rxIgnored d | rxKey d =>
    obtain rfl := Host.Outcome.next.inj h
    exact .inl ⟨rfl, rfl⟩

/-- Where RX.KEY_LAST is admitted (R151). -/
theorem admits_rxKeyLast {s : State} {d : Byte} (h : (rxContext s).admits (.rxKeyLast d) = true) :
    s.powered = true ∧ s.clDevState = .listening ∧ s.pfState = .collecting ∧ ¬ s.pfIdx < s.cfg.keyLen - 1 := by
  simpa [RxContext.admits, rxContext, and_assoc] using h

/-- Settles O20: `exec_ks` names the operations; a commit's word is an RX word decoded where its row applies
(`admits_rxKeyLast`). A refused word leaves the Key Store alone. -/
theorem keyStoreChangesOnlyAtCommitAndBoot : Obligations.KeyStoreChangesOnlyAtCommitAndBoot := by
  intro s t w rest hnext hstep
  obtain ⟨hc, w', rest', hevents, hcase⟩ := step_next hstep
  obtain ⟨rfl, rfl⟩ := List.cons.inj (hevents.symm.trans hnext)
  rcases hcase with ⟨i, hdecode, hexec⟩ | ⟨-, rfl⟩
  · obtain ⟨hword, -⟩ := encode_decode hdecode
    rcases exec_ks (s := { s with events := rest' }) hc hexec with hsame | ⟨d, rfl⟩ | rfl
    · exact .inl hsame
    · obtain ⟨hp, hl, hf, hi⟩ := admits_rxKeyLast (decode_admits hdecode)
      exact .inr (.inl ⟨hp, hl, hf, hi, hword ▸ kindOf_eventWord 0x01 d⟩)
    · exact .inr (.inr hword.symm)
  · exact .inl ⟨rfl, rfl⟩

end Sys2Proof.Machine

/-! # Proofs: power and display control (spec/44_power_display.md) -/

namespace Sys2Proof.Machine

open Claims

/-! ## The button and the enables (R181, R192, R228) -/

theorem exec_btn_powered {s : State} (hp : s.powered = true) :
    exec .btn s = .next { s with clPendingWake := true } := by
  simp [exec, execBtn, hp]

theorem exec_btn_unpowered {s : State} (hp : s.powered = false) : exec .btn s = .next s := by
  simp [exec, execBtn, hp]

/-- BTN as one update, powered or not. -/
theorem exec_btn (s : State) : exec .btn s = .next { s with clPendingWake := s.powered || s.clPendingWake } := by
  rcases Bool.eq_false_or_eq_true s.powered with hp | hp
  · rw [exec_btn_powered hp, show (s.powered || s.clPendingWake) = true by simp [hp]]
  · rw [exec_btn_unpowered hp, show (s.powered || s.clPendingWake) = s.clPendingWake by simp [hp]]

/-- Settles O34: `exec_btn`, and 0x0200 decodes to BTN in every state. -/
theorem buttonOnlySetsThePendingWake : Obligations.ButtonOnlySetsThePendingWake := by
  refine fun s => ⟨exec_btn_powered, exec_btn_unpowered, fun rest hc => ?_⟩
  rw [step_exec (s := { s with events := 0x0200 :: rest }) hc rfl (decode_btn _), exec_btn]

/-- Settles O44: the gates read the device state, and the invariant ties the display's enable to it (R36, R41 item
4). -/
theorem enablesOfEachPowerState : Obligations.EnablesOfEachPowerState := by
  refine fun s h => ⟨fun hp => ?_, fun hp hd => ?_, fun hp hd => ?_, fun hp hd => ?_⟩
  · obtain ⟨hen, -⟩ := h.ranges.dark hp
    simp [pgCore, pgRx, displayEn, hp, hen]
  · obtain ⟨hen, -⟩ := (h.powered hp).not_displaying (by simp [hd])
    simp [pgCore, pgRx, displayEn, hd, hen]
  · obtain ⟨hen, -⟩ := (h.powered hp).not_displaying (by simp [hd])
    simp [pgCore, pgRx, displayEn, hp, hd, hen]
  · obtain ⟨hen, -⟩ := (h.powered hp).displaying_code hd
    simp [pgCore, pgRx, displayEn, hp, hd, hen]

/-! ## The poll is one of its cases

`controlPoll_cases` says that the poll is one of the cases of `PollCase`; here, that a case determines the poll, so that
naming the case that applies in a state gives the state after it. -/

/-- The poll of a wake that can be served is its test-and-clear and START_DISPLAY (R183, R184, R188). -/
theorem controlPoll_canServe {s : State} (hs : CanServe s) (hw : s.clPendingWake = true) :
    controlPoll s = serveWake s := by
  rcases hs with hd | ⟨hd, hf⟩
  · simp [controlPoll, hd, pollDormant, hw]
  · simp [controlPoll, hd, pollListening, hf, hw]

theorem windowTick_eq (s : State) : windowTick s =
    { s with clListenTimer := if s.cfg.listenMode = .periodic then s.clListenTimer - 1 else s.clListenTimer } := by
  cases hm : s.cfg.listenMode <;> simp [windowTick, hm]

/-- A case of the poll is what the poll answers. -/
theorem PollCase.controlPoll_eq {s t : State} (h : PollCase s t) (hc : s.cfg.wf = true) : controlPoll s = .ok t := by
  have hcount {n : Nat} (hn : 1 < n) : n - 1 ≠ 0 := by omega
  cases h with
  | wakeShown hs hw hv ht =>
    rw [controlPoll_canServe hs hw, serveWake, ht]
    rcases startDisplay_spec (s := { s with clPendingWake := false }) hc with ⟨hinvalid, -⟩ | ⟨-, hshow⟩
    · exact nomatch hv.symm.trans hinvalid
    · exact hshow
  | wakeLost hs hw hv ht =>
    rw [controlPoll_canServe hs hw, serveWake, ht]
    rcases startDisplay_spec (s := { s with clPendingWake := false }) hc with ⟨-, hsame⟩ | ⟨hvalid, -⟩
    · exact hsame
    · exact nomatch hv.symm.trans hvalid
  | dormantListens hd hw hm ht => simp [controlPoll, hd, pollDormant, hw, hm, ht]
  | dormantOpens hd hw hm hl ht => simp [controlPoll, hd, pollDormant, hw, hm, Nat.sub_eq_zero_of_le hl, ht]
  | dormantCounts hd hw hm hl ht => simp [controlPoll, hd, pollDormant, hw, hm, hcount hl, ht]
  | frameWaits hd hf ht => simp only [controlPoll, hd, pollListening, hf, windowTick_eq, ht]
  | listenStays hd hf hw hm ht => simp [controlPoll, hd, pollListening, hf, hw, hm, ht]
  | listenCloses hd hf hw hm hl ht =>
    simp [controlPoll, hd, pollListening, hf, hw, hm, windowTick, Nat.sub_eq_zero_of_le hl, enterHome, ht]
  | listenCounts hd hf hw hm hl ht => simp [controlPoll, hd, pollListening, hf, hw, hm, windowTick, hcount hl, ht]
  | displayCounts hd hm hl ht => simp [controlPoll, hd, pollDisplaying, hm, hcount hl, ht]
  | displayExpires hd hm hl ht =>
    -- The count the poll writes before END_DISPLAY is one END_DISPLAY writes again.
    simp only [controlPoll, hd, pollDisplaying, hm, Nat.sub_eq_zero_of_le hl, if_true, ht]
    rfl
  | windowHolds hd hm hl ht => simp [controlPoll, hd, pollDisplaying, hm, hl, ht]
  | windowPasses hd hm hl ht => simp [controlPoll, hd, pollDisplaying, hm, hl, ht]

/-- The cases of the poll are exclusive. -/
theorem PollCase.unique {s t u : State} (h : PollCase s t) (hc : s.cfg.wf = true) (h' : PollCase s u) : t = u :=
  Except.ok.inj ((h.controlPoll_eq hc).symm.trans (h'.controlPoll_eq hc))

/-- The poll of a wake that can be served clears the flag, does not count the listen timer, and displays with valid pads
(R183, R184, R188). -/
theorem PollCase.wake {s t : State} (h : PollCase s t) (hc : s.cfg.wf = true) (hs : CanServe s)
    (hw : s.clPendingWake = true) :
    t.clPendingWake = false ∧ t.clListenTimer = s.clListenTimer ∧
      t.clDevState = if s.oePadsValid then .displaying else s.clDevState := by
  cases hv : s.oePadsValid with
  | true =>
    obtain rfl := h.unique hc (.wakeShown hs hw hv rfl)
    exact ⟨rfl, rfl, rfl⟩
  | false =>
    obtain rfl := h.unique hc (.wakeLost hs hw hv rfl)
    exact ⟨rfl, rfl, rfl⟩

/-! ## What the poll of a TICK finds (R182) -/

/-- The state after the time of a TICK and nothing else has been counted. -/
def clocked (s : State) : State := { s with tcSec := (timeTick s).tcSec, tcFrac := (timeTick s).tcFrac }

theorem framed_idle {s : State} (hf : s.pfState = .idle) : framerTick (timeTick s) = clocked s := by
  rcases framed_cases s with ⟨-, h⟩ | ⟨hf', -⟩ | ⟨hf', -⟩
  · exact h
  all_goals exact nomatch hf.symm.trans hf'

theorem framed_inFlight {s : State} (hf : s.pfState = .collecting) (ht : 1 < s.pfTimer) :
    framerTick (timeTick s) = { clocked s with pfTimer := s.pfTimer - 1 } := by
  rcases framed_cases s with ⟨hf', -⟩ | ⟨-, -, h⟩ | ⟨-, ht', -⟩
  · exact nomatch hf.symm.trans hf'
  · exact h
  · omega

/-- A TICK of a powered state answers, with the time counted and a case of the poll. -/
theorem exec_tick_poll {s : State} (h : Invariant s) (hp : s.powered = true) :
    ∃ t, exec .tick s = .next t ∧ TimeTicked s t ∧ PollCase (framerTick (timeTick s)) t := by
  obtain ⟨t, htick, htime, -⟩ := tickAdvancesTheCounter s h.ranges.cfg fun hp => (h.powered hp).dev_state
  obtain ⟨t', htick', ⟨hoff, -⟩ | ⟨-, hpoll⟩⟩ := execTick_cases h.ranges.cfg fun hp => (h.powered hp).dev_state
  · exact nomatch hoff.symm.trans hp
  · obtain rfl := Host.Outcome.next.inj (htick'.symm.trans htick)
    exact ⟨t', htick, htime, hpoll⟩

/-- With the framer IDLE, the poll finds the time counted and nothing else. -/
theorem exec_tick_idle {s : State} (h : Invariant s) (hp : s.powered = true) (hf : s.pfState = .idle) :
    ∃ t, exec .tick s = .next t ∧ TimeTicked s t ∧ PollCase (clocked s) t :=
  framed_idle hf ▸ exec_tick_poll h hp

/-! ## The polls without a display (R183, R184) -/

/-- Settles O37: each clause is a case of the poll, on the counted time. -/
theorem dormantPoll : Obligations.DormantPoll := by
  intro s h hp hd
  have hc := h.ranges.cfg
  obtain ⟨t, htick, htime, hpoll⟩ := exec_tick_idle h hp (idle_of_not_listening h hp (by simp [hd]))
  refine ⟨t, htick, htime, fun hw => hd ▸ hpoll.wake hc (.inl hd) hw, fun hw hm => ?_, fun hw hm hl => ?_,
    fun hw hm hl => ?_⟩
  · obtain rfl := hpoll.unique hc (.dormantListens hd hw hm rfl)
    rfl
  · obtain rfl := hpoll.unique hc (.dormantOpens hd hw hm hl.le rfl)
    rfl
  · obtain rfl := hpoll.unique hc (.dormantCounts hd hw hm hl rfl)
    rfl

/-- Settles O38: each clause is a case of the poll, on the counted time and, with a frame in flight, the counted
deadline. -/
theorem listeningPoll : Obligations.ListeningPoll := by
  intro s h hp hd
  have hc := h.ranges.cfg
  obtain ⟨t, htick, htime, hpoll⟩ := exec_tick_poll h hp
  have hidle (hf : s.pfState = .idle) : PollCase (clocked s) t := framed_idle hf ▸ hpoll
  refine ⟨t, htick, htime, fun hf ht => ?_, fun hf hw => hd ▸ (hidle hf).wake hc (.inr ⟨hd, hf⟩) hw, fun hf hw hm => ?_,
    fun hf hw hm hl => ?_, fun hf hw hm hl => ?_⟩
  · rw [framed_inFlight hf ht] at hpoll
    obtain rfl := hpoll.unique hc (.frameWaits hd hf rfl)
    rfl
  · obtain rfl := (hidle hf).unique hc (.listenStays hd hf hw hm rfl)
    rfl
  · obtain rfl := (hidle hf).unique hc (.listenCloses hd hf hw hm hl rfl)
    rfl
  · obtain rfl := (hidle hf).unique hc (.listenCounts hd hf hw hm hl rfl)
    rfl

/-! ## The start of a display (R186, R188) -/

/-- With valid pads, a TICK with a wake to serve is the display of the counted time's code. -/
theorem exec_tick_wakeShown {s : State} (h : Invariant s) (hp : s.powered = true) (hv : s.oePadsValid = true)
    (hw : WakeServed s) : exec .tick s = .next (displayed (woken s)) := by
  rw [exec, execTick_wakeServed h hp hw]
  rcases startDisplay_spec (s := woken s) h.ranges.cfg with ⟨hinvalid, -⟩ | ⟨-, hshow⟩
  · exact nomatch hv.symm.trans hinvalid
  · rw [hshow, settle]

/-- Settles O36: GENERATE reads neither the wake flag nor the time counter, so `generate_some` says of the state before
the TICK what the display did. -/
theorem wakeStartsTheDisplay : Obligations.WakeStartsTheDisplay := by
  intro s h hp hv hw
  refine ⟨_, _, exec_tick_wakeShown h hp hv hw, timeTicked_of_timeTick rfl rfl, generate_some h.ranges.cfg hv _,
    code_lt _, ?_⟩
  have htimer : (displayed (woken s)).clDispTimer = if s.cfg.displayMode = .flat then s.cfg.displayTicks else 0 := by
    change (match s.cfg.displayMode with | .flat => s.cfg.displayTicks | .windowEnd => 0) = _
    cases s.cfg.displayMode <;> rfl
  rw [← htimer]
  rfl

/-- A step that meets BTN in a powered device. -/
theorem step_btn {s : State} {rest : List EventWord} (hc : s.cfg.wf = true) (hp : s.powered = true)
    (he : s.events = encode .btn :: rest) : step s = .next { s with events := rest, clPendingWake := true } :=
  (step_exec hc he (decode_btn _)).trans (exec_btn_powered hp)

/-- One button edge or more leave one pending wake. -/
theorem run_btns (n : Nat) {s : State} {rest : List EventWord} (hc : s.cfg.wf = true) (hp : s.powered = true)
    (he : s.events = List.replicate (n + 1) (encode .btn) ++ rest) :
    core.run (n + 1) s = .next { s with events := rest, clPendingWake := true } := by
  induction n generalizing s with
  | zero => exact run_succ 0 (step_btn (rest := rest) hc hp he)
  | succ n ih =>
    rw [run_succ _ (step_btn hc hp he)]
    exact ih hc hp rfl

/-- Settles O35: the button edges leave one wake, which the TICK serves. -/
theorem heldButtonMakesOneDisplay : Obligations.HeldButtonMakesOneDisplay := by
  intro s n rest h hp hd hv he
  have hbtns := run_btns n h.ranges.cfg hp he
  have hpressed : Invariant { s with clPendingWake := true } := h.btn (exec_btn_powered hp)
  have hshown := exec_tick_wakeShown (hpressed.withEvents rest) hp hv ⟨rfl, .inl hd⟩
  have htick := (step_exec (s := { s with events := encode .tick :: rest, clPendingWake := true }) h.ranges.cfg rfl
    (decode_tick _)).trans hshown
  refine ⟨_, _, ((run_add (n + 1) 1 hbtns).trans (run_succ 0 htick)).trans (run_zero _), rfl, rfl, rfl, rfl, ?_⟩
  simp [displayed, presentCode, woken, generateLog]

/-! ## The deadline and a wake in one TICK (R182, R219) -/

/-- The state a provisioning timeout leaves (R158). -/
def expired (s : State) : State :=
  { s with pfTimer := 0, pfBuf := List.replicate s.cfg.keyLen 0x00, pfIdx := 0, pfState := .idle,
           txLog := s.txLog ++ timeoutText }

/-- The time counter does not read what a timeout writes. -/
theorem timeTick_expired (s : State) : timeTick (expired s) = expired (timeTick s) := by
  simp only [timeTick, apply_ite expired]
  rfl

theorem framed_expired {s : State} (hf : s.pfState = .collecting) (ht : s.pfTimer ≤ 1) :
    framerTick (timeTick s) = clocked (expired s) := by
  rcases framed_cases s with ⟨hf', -⟩ | ⟨-, ht', -⟩ | ⟨-, -, h⟩
  · exact nomatch hf.symm.trans hf'
  · omega
  · rw [h, clocked, timeTick_expired]
    rfl

/-- A timeout is FRAMER_TICK's (R158), so it keeps the invariant. -/
theorem Invariant.expired {s : State} (h : Invariant s) (hp : s.powered = true) (hf : s.pfState = .collecting)
    (ht : s.pfTimer ≤ 1) : Invariant (expired s) := by
  rcases framerTick_cases s with ⟨hf', -⟩ | ⟨-, ht', -⟩ | ⟨-, -, he⟩
  · exact nomatch hf.symm.trans hf'
  · omega
  · have hframed := h.framerTick hp
    rwa [he] at hframed

/-- A TICK in which the deadline expires is that of the state the timeout leaves: their polls find the same state. -/
theorem exec_tick_expired {s : State} (h : Invariant s) (hp : s.powered = true) (hf : s.pfState = .collecting)
    (ht : s.pfTimer ≤ 1) : exec .tick s = exec .tick (expired s) := by
  obtain ⟨t, htick, -, hpoll⟩ := exec_tick_poll h hp
  obtain ⟨u, htick', -, hpoll'⟩ := exec_tick_idle (h.expired hp hf ht) hp rfl
  rw [framed_expired hf ht] at hpoll
  rw [htick, htick', hpoll.unique h.ranges.cfg hpoll']

/-- Settles O39: `exec_tick_expired`, and the framer the timeout leaves is IDLE, so a pending wake is served. -/
theorem timeoutAndWakeInOneTick : Obligations.TimeoutAndWakeInOneTick := by
  intro s h hp hf ht
  have hexpires := exec_tick_expired h hp hf ht.le
  refine ⟨hexpires, fun hw hv => ?_⟩
  have hlistening := (h.powered hp).collecting_listening hf
  have hshown := exec_tick_wakeShown (h.expired hp hf ht.le) hp hv ⟨hw, .inr ⟨hlistening, rfl⟩⟩
  exact ⟨_, hexpires.trans hshown, timeTicked_of_timeTick (s := expired s) rfl rfl, rfl, rfl, rfl, rfl, rfl⟩

/-! ## The end of a display (R185, R187, R193) -/

/-- END_DISPLAY goes home (R187, R191). -/
theorem atHome_endDisplay (s : State) : AtHome s (endDisplay s) := by
  obtain ⟨d, l, hend, hcontinuous, hperiodic⟩ := endDisplay_spec s
  rw [hend]
  cases hm : s.cfg.listenMode with
  | continuous => simpa [AtHome, hm] using hcontinuous hm
  | periodic => simpa [AtHome, hm] using hperiodic hm

/-- END_DISPLAY on the counted time is the end of a display in the words of the statements. -/
theorem displayEnded_endDisplay (s : State) : DisplayEnded s (endDisplay (clocked s)) := by
  refine ⟨atHome_endDisplay (clocked s), ?_⟩
  obtain ⟨d, l, hend, -⟩ := endDisplay_spec (clocked s)
  rw [hend]
  rfl

/-- Settles O40: each clause is a case of the poll, on the counted time. -/
theorem displayingPoll : Obligations.DisplayingPoll := by
  intro s h hp hd
  have hc := h.ranges.cfg
  obtain ⟨t, htick, htime, hpoll⟩ := exec_tick_idle h hp (idle_of_not_listening h hp (by simp [hd]))
  have hsec : t.tcSec = (clocked s).tcSec := hpoll.frame.tcSec
  refine ⟨t, htick, htime, fun hm hl => ?_, fun hm hl => ?_, fun hm hw => ?_, fun hm hw => ?_⟩
  · obtain rfl := hpoll.unique hc (.displayCounts hd hm hl rfl)
    rfl
  · obtain rfl := hpoll.unique hc (.displayExpires hd hm hl.le rfl)
    exact displayEnded_endDisplay s
  · obtain rfl := hpoll.unique hc (.windowHolds hd hm (hsec ▸ hw) rfl)
    rfl
  · obtain rfl := hpoll.unique hc (.windowPasses hd hm (hsec ▸ hw) rfl)
    exact displayEnded_endDisplay s

/-- A FLAT display after `k` TICKs before its last: only the time and the display timer have counted. -/
def shownFor (s : State) (k : Nat) (rest : List EventWord) (sec : BitVec 64) (frac : Nat) : State :=
  { s with events := rest, tcSec := sec, tcFrac := frac, clDispTimer := s.clDispTimer - k }

theorem run_ticks_shown (k : Nat) {s : State} {rest : List EventWord} (h : Invariant s) (hp : s.powered = true)
    (hd : s.clDevState = .displaying) (hm : s.cfg.displayMode = .flat) (hk : k < s.clDispTimer)
    (he : s.events = List.replicate k (encode .tick) ++ rest) :
    ∃ sec frac, core.run k s = .next (shownFor s k rest sec frac) ∧ Invariant (shownFor s k rest sec frac) := by
  induction k generalizing rest with
  | zero =>
    obtain rfl : s.events = rest := he
    exact ⟨s.tcSec, s.tcFrac, run_zero s, h⟩
  | succ k ih =>
    rw [List.replicate_succ', List.append_assoc] at he
    obtain ⟨sec, frac, hrun, hinv⟩ := ih (by omega) he
    obtain ⟨t, htick, -, hcounts, -⟩ := displayingPoll _ (hinv.withEvents rest) hp hd
    have hstep : step (shownFor s k ([encode .tick] ++ rest) sec frac) = .next t :=
      (step_exec hinv.ranges.cfg rfl (decode_tick _)).trans htick
    have ht : t = shownFor s (k + 1) rest t.tcSec t.tcFrac := hcounts hm (show 1 < s.clDispTimer - k by omega)
    refine ⟨t.tcSec, t.tcFrac, ?_, ht ▸ everyStepKeepsTheInvariant _ _ hinv hstep⟩
    rw [← ht, run_add k 1 hrun, run_succ 0 hstep, run_zero]

/-- Settles O41: before the last tick the display stands (`run_ticks_shown`); the last finds the timer at 1 and ends
it. -/
theorem flatDisplayLastsItsTicks : Obligations.FlatDisplayLastsItsTicks := by
  intro s rest h hp hd hm he
  have hticks (k : Nat) (hk : k < s.clDispTimer) :
      s.events = List.replicate k (encode .tick) ++ (List.replicate (s.clDispTimer - k) (encode .tick) ++ rest) := by
    rw [he, ← List.append_assoc, List.replicate_append_replicate, Nat.add_sub_cancel' hk.le]
  refine ⟨fun k hk => ?_, ?_⟩
  · obtain ⟨sec, frac, hrun, -⟩ := run_ticks_shown k h hp hd hm hk (hticks k hk)
    exact ⟨_, hrun, hd, rfl, rfl⟩
  · obtain ⟨hpos, -⟩ := (h.powered hp).displaying_timer hd hm
    have hbefore : s.clDispTimer - 1 < s.clDispTimer := by omega
    obtain ⟨sec, frac, hrun, hinv⟩ := run_ticks_shown _ h hp hd hm hbefore (hticks _ hbefore)
    have hlast : s.clDispTimer - (s.clDispTimer - 1) = 1 := by omega
    rw [hlast] at hrun hinv
    obtain ⟨t, htick, -, -, hends, -⟩ := displayingPoll _ (hinv.withEvents rest) hp hd
    have hstep := (step_exec hinv.ranges.cfg rfl (decode_tick _)).trans htick
    obtain ⟨hhome, ht⟩ := hends hm hlast
    refine ⟨t, ?_, hhome, ?_⟩
    · rw [← Nat.sub_add_cancel hpos, run_add _ 1 hrun, run_succ 0 hstep, run_zero]
    · rw [ht]
      exact ⟨rfl, rfl, rfl, rfl⟩

/-! ## What every step does to the control logic (R180, R189) -/

/-- The device state stands, a pending wake stays, and neither the display nor the hash port gets a command. -/
structure ControlKept (s t : State) : Prop where
  devState : t.clDevState = s.clDevState
  pendingWake : s.clPendingWake = true → t.clPendingWake = true
  dispLog : t.dispLog = s.dispLog
  hashLog : t.hashLog = s.hashLog

/-- Only TICK and the power events act on the control logic. -/
theorem exec_control {i : Instr} {s t : State} (h : exec i s = .next t) :
    ControlKept s t ∨ i = .tick ∨ (i = .pwrOff ∧ t.powered = false) ∨
      (i = .pwrOn ∧ t.clDevState = .dormant ∧ t.pfState = .idle) := by
  cases i with
  | tick => exact .inr (.inl rfl)
  | pwrOff =>
    refine .inr (.inr (.inl ⟨rfl, ?_⟩))
    simp only [exec, execPwrOff] at h
    split at h <;> obtain rfl := Host.Outcome.next.inj h
    · assumption
    · rfl
  | pwrOn =>
    obtain ⟨ds, d, r, m, w, i, o, v, st, sec, frac, hnext, -⟩ := execPwrOn_frame s
    obtain rfl := Host.Outcome.next.inj (hnext.symm.trans h)
    exact .inr (.inr (.inr ⟨rfl, rfl, rfl⟩))
  | rxKeyLast d =>
    obtain ⟨m, w, r, hnext, -⟩ := execRxKeyLast_frame d s _ rfl
    obtain rfl := Host.Outcome.next.inj (hnext.symm.trans h)
    exact .inl ⟨rfl, id, rfl, rfl⟩
  | rxDrop d =>
    simp only [exec, execRxDrop] at h
    split at h <;> obtain rfl := Host.Outcome.next.inj h <;> exact .inl ⟨rfl, id, rfl, rfl⟩
  | btn =>
    obtain rfl := Host.Outcome.next.inj ((exec_btn s).symm.trans h)
    exact .inl ⟨rfl, fun hw => by simp [hw], rfl, rfl⟩
  | rxOff d | rxSentinel | rxIgnored d | rxKey d =>
    obtain rfl := Host.Outcome.next.inj h
    exact .inl ⟨rfl, id, rfl, rfl⟩

/-- `exec_control` of a step: a refused word leaves the control logic alone. -/
theorem step_control {s t : State} {w : EventWord} {rest : List EventWord} (hnext : Next s w rest)
    (hstep : step s = .next t) :
    ControlKept s t ∨ (w = encode .tick ∧ exec .tick (taken s rest) = .next t) ∨ t.powered = false ∨
      (w = encode .pwrOn ∧ t.clDevState = .dormant ∧ t.pfState = .idle) := by
  obtain ⟨-, w', rest', hevents, hcase⟩ := step_next hstep
  obtain ⟨rfl, rfl⟩ := List.cons.inj (hevents.symm.trans hnext)
  rcases hcase with ⟨i, hdecode, hexec⟩ | ⟨-, rfl⟩
  · obtain ⟨hword, -⟩ := encode_decode hdecode
    rcases exec_control hexec with hkept | rfl | ⟨-, hoff⟩ | ⟨rfl, hon⟩
    · exact .inl ⟨hkept.devState, hkept.pendingWake, hkept.dispLog, hkept.hashLog⟩
    · exact .inr (.inl ⟨hword.symm, hexec⟩)
    · exact .inr (.inr (.inl hoff))
    · exact .inr (.inr (.inr ⟨hword.symm, hon⟩))
  · exact .inl ⟨rfl, id, rfl, rfl⟩

/-- A TICK that leaves the frame in flight is a poll that waits for it (R184, R189). -/
theorem exec_tick_inFlight {s t : State} (h : Invariant s) (hp : s.powered = true) (hf : s.pfState = .collecting)
    (htick : exec .tick s = .next t) (hf' : t.pfState = .collecting) : ControlKept s t := by
  obtain ⟨u, htick', -, hpoll⟩ := exec_tick_poll h hp
  obtain rfl := Host.Outcome.next.inj (htick'.symm.trans htick)
  by_cases ht : 1 < s.pfTimer
  · rw [framed_inFlight hf ht] at hpoll
    obtain rfl := hpoll.unique h.ranges.cfg (.frameWaits ((h.powered hp).collecting_listening hf) hf rfl)
    exact ⟨rfl, id, rfl, rfl⟩
  · rw [framed_expired hf (Nat.not_lt.mp ht)] at hpoll
    exact nomatch hf'.symm.trans hpoll.frame.pfState

/-- Settles O42: no event that leaves the device powered and the frame in flight acts on the control logic; PWR_ON drops
the frame. -/
theorem frameInFlightDefersTheWake : Obligations.FrameInFlightDefersTheWake := by
  intro s t h hp hf hstep hp' hf'
  obtain ⟨-, w, rest, hevents, -⟩ := step_next hstep
  have hkept : ControlKept s t := by
    rcases step_control hevents hstep with hkept | ⟨-, htick⟩ | hoff | ⟨-, -, hidle⟩
    · exact hkept
    · obtain ⟨hdev, hwake, hdisp, hhash⟩ := exec_tick_inFlight (h.withEvents rest) hp hf htick hf'
      exact ⟨hdev, hwake, hdisp, hhash⟩
    · exact nomatch hoff.symm.trans hp'
    · exact nomatch hf'.symm.trans hidle
  exact ⟨hkept.pendingWake, hkept.devState.trans ((h.powered hp).collecting_listening hf), hkept.dispLog, hkept.hashLog⟩

/-- The transitions a TICK makes from `s` to `t` (R180). -/
def TickTransition (s t : State) : Prop :=
  (s.clDevState = .dormant ∧ t.clDevState = .displaying ∧ s.clPendingWake = true ∧ s.oePadsValid = true) ∨
  (s.clDevState = .dormant ∧ t.clDevState = .listening ∧ s.clPendingWake = false ∧
    (s.cfg.listenMode = .continuous ∨ s.clListenTimer = 1)) ∨
  (s.clDevState = .listening ∧ t.clDevState = .displaying ∧ s.clPendingWake = true ∧ t.pfState = .idle ∧
    s.oePadsValid = true) ∨
  (s.clDevState = .listening ∧ t.clDevState = .dormant ∧ s.cfg.listenMode = .periodic ∧ t.pfState = .idle ∧
    s.clListenTimer ≤ 1 ∧ s.clPendingWake = false) ∨
  (s.clDevState = .displaying ∧ AtHome s t ∧ (s.cfg.displayMode = .flat → s.clDispTimer = 1) ∧
    (s.cfg.displayMode = .windowEnd → window s.cfg t.tcSec ≠ s.clDispWindow))

/-- A poll that changes the device state makes one of the transitions. -/
theorem PollCase.transition {s t : State} (c : PollCase s t) (h : Invariant s) (hp : s.powered = true)
    (hne : t.clDevState ≠ s.clDevState) : TickTransition s t := by
  have hsec := c.frame.tcSec
  cases c with
  | wakeShown hs hw hv ht =>
    rcases hs with hd | ⟨hd, hf⟩
    · exact .inl ⟨hd, ht ▸ rfl, hw, hv⟩
    · exact .inr (.inr (.inl ⟨hd, ht ▸ rfl, hw, ht ▸ hf, hv⟩))
  | dormantListens hd hw hm ht => exact .inr (.inl ⟨hd, ht ▸ rfl, hw, .inl hm⟩)
  | dormantOpens hd hw hm hl ht =>
    obtain ⟨hpos, -⟩ := (h.powered hp).dormant_timer hm hd
    exact .inr (.inl ⟨hd, ht ▸ rfl, hw, .inr (by omega)⟩)
  | listenCloses hd hf hw hm hl ht => exact .inr (.inr (.inr (.inl ⟨hd, ht ▸ rfl, hm, ht ▸ hf, hl, hw⟩)))
  | displayExpires hd hm hl ht =>
    obtain ⟨hpos, -⟩ := (h.powered hp).displaying_timer hd hm
    exact .inr (.inr (.inr (.inr ⟨hd, ht ▸ atHome_endDisplay s, fun _ => by omega, (nomatch hm.symm.trans ·)⟩)))
  | windowPasses hd hm hl ht =>
    exact .inr (.inr (.inr (.inr
      ⟨hd, ht ▸ atHome_endDisplay s, (nomatch hm.symm.trans ·), fun _ => hsec ▸ hl⟩)))
  | wakeLost _ _ _ ht | dormantCounts _ _ _ _ ht | frameWaits _ _ ht | listenStays _ _ _ _ ht
  | listenCounts _ _ _ _ _ ht | displayCounts _ _ _ ht | windowHolds _ _ _ ht => exact absurd (ht ▸ rfl) hne

/-- The framer and the time counter do not touch what the transitions read of the state before the poll. -/
theorem exec_tick_transition {s t : State} (h : Invariant s) (hp : s.powered = true) (htick : exec .tick s = .next t)
    (hne : t.clDevState ≠ s.clDevState) : TickTransition s t := by
  obtain ⟨u, htick', -, hpoll⟩ := exec_tick_poll h hp
  obtain rfl := Host.Outcome.next.inj (htick'.symm.trans htick)
  have hpow : (timeTick s).powered = true := by rw [timeTick_frame]; exact hp
  have hpolled := h.timeTick.framerTick hpow
  rcases framed_cases s with ⟨-, hu⟩ | ⟨-, -, hu⟩ | ⟨-, -, hu⟩ <;> rw [hu] at hpoll hpolled <;>
    exact hpoll.transition hpolled hp hne

/-- Settles O43: outside the power events only a TICK changes the device state, by `exec_tick_transition`. -/
theorem onlyTheListedTransitions : Obligations.OnlyTheListedTransitions := by
  intro s t w rest h hp hnext hstep hp' hne
  rcases step_control hnext hstep with hkept | ⟨hw, htick⟩ | hoff | ⟨hw, hd, -⟩
  · exact absurd hkept.devState hne
  · rcases exec_tick_transition (h.withEvents rest) hp htick hne with ht | ht | ht | ht | ht
    · exact .inr (.inl ⟨hw, ht⟩)
    · exact .inr (.inr (.inl ⟨hw, ht⟩))
    · exact .inr (.inr (.inr (.inl ⟨hw, ht⟩)))
    · exact .inr (.inr (.inr (.inr (.inl ⟨hw, ht⟩))))
    · exact .inr (.inr (.inr (.inr (.inr ⟨hw, ht⟩))))
  · exact nomatch hoff.symm.trans hp'
  · exact .inl ⟨hw, hd⟩

end Sys2Proof.Machine

/-! # Proofs: faults and refusals (spec/60_exceptions.md) -/

namespace Sys2Proof.Machine

open Claims

/-! ## The reserved device state (spec/93_implementation_defined.md) -/

/-- The counterpart of `exec_rxDrop`: RX.DROP in the one device state R32 does not name. -/
theorem exec_rxDrop_reserved {s : State} (d : Byte) (h : s.clDevState = .reserved) :
    exec (.rxDrop d) s = .next (raiseFault s .reservedDevState) := by
  simp [exec, execRxDrop, h]

/-- Settles O10: in both operations the value is `raiseFault`, which sets the mark alone (R213). -/
theorem reservedDeviceStateIsAFault : Obligations.ReservedDeviceStateIsAFault :=
  fun _ d hp hr => ⟨execTick_reserved hp hr, exec_rxDrop_reserved d hr⟩

/-! ## The marks are never cleared (R45, R215) -/

/-- Where a step keeps the reason of a set mark, a mark not set after it was not set before. -/
theorem none_of_kept {α : Type} {m m' : Option α} (h : ∀ x, m = some x → m' = some x) (hm' : m' = none) : m = none :=
  Option.eq_none_iff_forall_ne_some.mpr fun x hx => nomatch (h x hx).symm.trans hm'

/-- Settles O56: the marks are among the elements `step_fields` says every step keeps, so a final state comes from final
states only. -/
theorem marksAreNeverCleared : Obligations.MarksAreNeverCleared := by
  intro s t h
  obtain ⟨-, -, -, -, -, -, hrefused, hfaulted⟩ := step_fields h
  refine ⟨hfaulted, hrefused, mt fun hfinal => ?_⟩
  obtain ⟨hnoFault, hnoRefusal⟩ := hfinal
  exact ⟨none_of_kept hfaulted hnoFault, none_of_kept hrefused hnoRefusal⟩

/-! ## Under the invariant nothing faults (R41 item 7, R213) -/

/-- A TICK raises only the fault of the reserved device state: an admitted digest is long enough for every offset. -/
theorem execTick_marks {s t : State} (h : Invariant s) (e : execTick s = .next t) :
    t.faulted = s.faulted ∧ t.refused = s.refused := by
  obtain ⟨-, -, -, -, -, -, -, hrefused, -, -, -, ⟨hfaulted, -⟩ | ⟨hp, hr, -⟩⟩ := tick_fields h.ranges.cfg e
  · exact ⟨hfaulted, hrefused⟩
  · exact absurd hr (h.powered hp).dev_state

/-- No operation sets a mark where its row applies: RX.DROP and TICK find no reserved device state, and the writes of a
commit and the reads of a boot stay inside the Key Store (R51). -/
theorem exec_marks {i : Instr} {s t : State} (h : Invariant s) (ha : (rxContext s).admits i = true)
    (e : exec i s = .next t) : t.faulted = s.faulted ∧ t.refused = s.refused := by
  cases i with
  | tick => exact execTick_marks h e
  | rxDrop d =>
    simp only [RxContext.admits, rxContext, Bool.and_eq_true] at ha
    obtain ⟨hp, -⟩ := ha
    obtain rfl := Host.Outcome.next.inj ((exec_rxDrop d (h.powered hp).dev_state).symm.trans e)
    exact ⟨rfl, rfl⟩
  | rxKeyLast d =>
    obtain ⟨m, w, r, hnext, -, hrefused, -⟩ := execRxKeyLast_frame d s _ rfl
    obtain rfl := Host.Outcome.next.inj (hnext.symm.trans e)
    exact ⟨rfl, hrefused h.ranges.pfBuf.le⟩
  | pwrOn =>
    obtain ⟨hkeyLen, -⟩ := wf_facts h.ranges.cfg
    obtain ⟨ds, d, r, m, w, i, o, v, st, sec, frac, hnext, -, hrefused, -⟩ := execPwrOn_frame s
    obtain rfl := Host.Outcome.next.inj (hnext.symm.trans e)
    exact ⟨rfl, hrefused hkeyLen⟩
  | pwrOff =>
    obtain ⟨-, -, -, -, -, -, -, -, -, -, -, -, -, hfaulted, hrefused, -⟩ := powerOff_keeps s
    simp only [exec, execPwrOff] at e
    split at e <;> obtain rfl := Host.Outcome.next.inj e
    · exact ⟨rfl, rfl⟩
    · exact ⟨hfaulted, hrefused⟩
  | btn =>
    obtain rfl := Host.Outcome.next.inj ((exec_btn s).symm.trans e)
    exact ⟨rfl, rfl⟩
  | rxOff d | rxSentinel | rxIgnored d | rxKey d =>
    obtain rfl := Host.Outcome.next.inj e
    exact ⟨rfl, rfl⟩

/-- The converse of `decodeEvent_reserved`: the words that are not reserved are those of the five event kinds (R73). -/
theorem decodeEvent_of_not_reserved {w : EventWord} (h : ¬ Reserved w) : ∃ e, decodeEvent w = .ok e := by
  obtain ⟨hrx, hbtn, htick, hoff, hon, -⟩ := eventKindsAndReservedWords
  simp only [Reserved, not_or, not_and, not_le, not_not] at h
  obtain ⟨hzero, hsmall, hdata⟩ := h
  obtain hk | hk | hk | hk | hk :
      kindOf w = 0x01 ∨ kindOf w = 0x02 ∨ kindOf w = 0x03 ∨ kindOf w = 0x04 ∨ kindOf w = 0x05 := by
    bv_omega
  · exact ⟨_, hrx w hk⟩
  · exact ⟨_, hbtn w hk (hdata (by simp [hk]) (by simp [hk]))⟩
  · exact ⟨_, htick w hk (hdata (by simp [hk]) (by simp [hk]))⟩
  · exact ⟨_, hoff w hk (hdata (by simp [hk]) (by simp [hk]))⟩
  · exact ⟨_, hon w hk (hdata (by simp [hk]) (by simp [hk]))⟩

/-- A word no state decodes is reserved: the state selects an operation for every event (R151). -/
theorem reserved_of_decode_error {c : RxContext} {w : EventWord} {r : DecodeError} (h : decode c w = .error r) :
    Reserved w := by
  by_contra hw
  obtain ⟨e, he⟩ := decodeEvent_of_not_reserved hw
  simp [decode, he] at h

/-- Settles O53: an accepted word performs an operation whose row applies (`exec_marks`); a word that is refused is
reserved, and sets the other mark. -/
theorem invariantStatesNeverFault : Obligations.InvariantStatesNeverFault := by
  intro s t w rest h hnext hstep
  obtain ⟨-, w', rest', hevents, hcase⟩ := step_next hstep
  obtain ⟨rfl, rfl⟩ := List.cons.inj (hevents.symm.trans hnext)
  rcases hcase with ⟨i, hdecode, hexec⟩ | ⟨⟨r, herror⟩, rfl⟩
  · obtain ⟨hfaulted, hrefused⟩ := exec_marks (h.withEvents rest') (decode_admits hdecode) hexec
    exact ⟨hfaulted, fun _ => hrefused⟩
  · exact ⟨rfl, fun hw => absurd (reserved_of_decode_error herror) hw⟩

end Sys2Proof.Machine

/-! # Proofs: reset, boot and hazards (spec/70_reset_and_hazards.md) -/

namespace Sys2Proof.Machine

open Claims

/-! ## PWR_OFF, and the other events an unpowered device ignores (R240, R241) -/

theorem exec_pwrOff_powered {s : State} (hp : s.powered = true) : exec .pwrOff s = .next (powerOff s) := by
  simp [exec, execPwrOff, hp]

theorem exec_pwrOff_unpowered {s : State} (hp : s.powered = false) : exec .pwrOff s = .next s := by
  simp [exec, execPwrOff, hp]

/-- Settles O46: a powered device is left as `powerOff_keeps` says. -/
theorem powerOffDarkensTheDevice : Obligations.PowerOffDarkensTheDevice := by
  refine fun s => ⟨exec_pwrOff_unpowered, fun hp => ⟨_, exec_pwrOff_powered hp, ?_⟩⟩
  obtain ⟨hoff, hen, htext, hdisp, hcfg, hevents, hdraws, hsec, hfrac, hks, hksLog, htx, hhash, hfaulted, hrefused, -⟩ :=
    powerOff_keeps s
  exact ⟨hoff, hen, htext, hdisp, hcfg, hevents, hdraws, hsec, hfrac, hks, hksLog, htx, hhash, hfaulted, hrefused⟩

/-- Settles O8: an RX word is dispatched to RX.OFF (R163); BTN and PWR_OFF test the supply first (R181, R241). -/
theorem unpoweredIgnoresRxButtonAndPowerOff : Obligations.UnpoweredIgnoresRxButtonAndPowerOff := by
  intro s w rest hc hp hnext hw
  rcases hw with hrx | rfl | rfl
  · have hword : w = eventWord 0x01 (dataOf w) := by rw [← hrx, eventWord_fields]
    exact step_rxOff hc (hnext.trans (congrArg (· :: rest) hword)) hp
  · exact (step_encode hc hnext rfl rfl).trans (exec_btn_unpowered hp)
  · exact (step_encode hc hnext rfl rfl).trans (exec_pwrOff_unpowered hp)

/-! ## The reset values (R42, R136, R242) -/

/-- Settles O47: the next state of `execPwrOn_frame`. A boot's reads stay inside the Key Store of an admitted configuration,
so no refusal is marked. -/
theorem powerOnGivesTheResetValues : Obligations.PowerOnGivesTheResetValues := by
  intro s hc
  obtain ⟨hkeyLen, -⟩ := wf_facts hc
  obtain ⟨ds, d, r, m, w, i, o, v, st, sec, frac, hnext, -, hrefused, -, -, -, -, -, hrtc, huptime⟩ := execPwrOn_frame s
  have hlisten : s.cfg.listenTimerReset = if s.cfg.listenMode = .periodic then s.cfg.listenPeriodTicks else 0 := by
    cases hm : s.cfg.listenMode <;> simp [Config.listenTimerReset, hm]
  exact ⟨_, hnext, rfl, rfl, rfl, rfl, rfl, rfl, rfl, rfl, rfl, hlisten, rfl, rfl, rfl, rfl, rfl, rfl, hrtc, huptime, rfl,
    rfl, rfl, rfl, hrefused hkeyLen, rfl, rfl⟩

/-- The state in which PWR_ON begins BOOT_KEYSTORE: the reset values, and the time by its strategy (R242). -/
def powerOnReset (s : State) : State := tcPowerOn (resetVolatile (if s.powered then powerOff s else s))

theorem exec_pwrOn (s : State) : exec .pwrOn s = .next (bootKeystore (powerOnReset s)) := rfl

/-- What the boot meets: the Key Store, its log and the draws as before, and two of the reset values. -/
theorem powerOnReset_fields (s : State) :
    (powerOnReset s).cfg = s.cfg ∧ (powerOnReset s).ksDraws = s.ksDraws ∧ (powerOnReset s).ks = s.ks ∧
    (powerOnReset s).ksLog = s.ksLog ∧ (powerOnReset s).clDevState = .dormant ∧ (powerOnReset s).stKsError = false := by
  rw [powerOnReset, tcPowerOn_frame]
  cases hp : s.powered with
  | false => exact ⟨rfl, rfl, rfl, rfl, rfl, rfl⟩
  | true =>
    obtain ⟨-, -, -, -, hcfg, -, hdraws, -, -, hks, hksLog, -⟩ := powerOff_keeps s
    exact ⟨hcfg, hdraws, hks, hksLog, rfl, rfl⟩

/-! ## The reads of a boot (R54)

`ReadsSucceed` is about all N + 1 reads of a boot; an induction over the reads needs it for the next `n`. -/

/-- The next `n` reads do not fail, and leave the draws `ds`. -/
def ReadsAnswer (n : Nat) (s : State) (ds : List Bool) : Prop :=
  (s.cfg.ksFaultModel = .never ∧ s.ksDraws = ds) ∨
  (s.cfg.ksFaultModel = .draw ∧ s.ksDraws = List.replicate n false ++ ds)

/-- A boot makes N + 1 reads (R243). -/
theorem readsAnswer_iff_readsSucceed {s : State} {ds : List Bool} :
    ReadsAnswer (s.cfg.keyLen + 1) s ds ↔ ReadsSucceed s ds := Iff.rfl

/-- Only the fault model and the draws decide whether reads fail. -/
theorem ReadsAnswer.congr {n : Nat} {s u : State} {ds : List Bool} (h : ReadsAnswer n s ds) (hcfg : u.cfg = s.cfg)
    (hdraws : u.ksDraws = s.ksDraws) : ReadsAnswer n u ds := by
  rwa [ReadsAnswer, hcfg, hdraws]

theorem ReadsAnswer.ksDraws {s : State} {ds : List Bool} (h : ReadsAnswer 0 s ds) : s.ksDraws = ds := by
  rcases h with ⟨-, h⟩ | ⟨-, h⟩ <;> exact h

/-- The first of them gives the stored byte and changes at most the draws. -/
theorem ReadsAnswer.memRead {n a : Nat} {s : State} {ds : List Bool} (h : ReadsAnswer (n + 1) s ds)
    (ha : a < s.cfg.keyLen) :
    ∃ es, memRead s a = (some (Memory.read s.ks a), { s with ksDraws := es }) ∧
      ReadsAnswer n { s with ksDraws := es } ds := by
  rcases h with ⟨hf, hd⟩ | ⟨hf, hd⟩
  · exact ⟨s.ksDraws, memRead_never hf ha, .inl ⟨hf, hd⟩⟩
  · exact ⟨List.replicate n false ++ ds, memRead_draw hf ha hd, .inr ⟨hf, rfl⟩⟩

theorem ReadsAnswer.readKeyFrom {n a : Nat} {s : State} {ds : List Bool} (h : ReadsAnswer n s ds)
    (ha : a + n ≤ s.cfg.keyLen) :
    readKeyFrom s a n = (some ((List.range' a n).map (Memory.read s.ks)), { s with ksDraws := ds }) := by
  induction n generalizing a s with
  | zero => simp [Machine.readKeyFrom, ← h.ksDraws]
  | succ n ih =>
    obtain ⟨es, hread, hrest⟩ := h.memRead (a := a) (by omega)
    have hkey := ih hrest (a := a + 1) (show a + 1 + n ≤ s.cfg.keyLen by omega)
    simp only [Machine.readKeyFrom, hread, hkey, List.range'_succ, List.map_cons]

/-- The key's reads stop at the first that fails (R243). -/
theorem readKeyFrom_fails {j n a : Nat} {s : State} {ds : List Bool} (hf : s.cfg.ksFaultModel = .draw) (hj : j < n)
    (ha : a + n ≤ s.cfg.keyLen) (h : ReadsAnswer j s (true :: ds)) :
    readKeyFrom s a n = (none, { s with ksDraws := ds }) := by
  induction n generalizing a s j with
  | zero => omega
  | succ n ih =>
    cases j with
    | zero => simp only [readKeyFrom, memRead_draw (a := a) hf (by omega) h.ksDraws, if_true]
    | succ j =>
      obtain ⟨es, hread, hrest⟩ := h.memRead (a := a) (by omega)
      have hkey := ih (s := { s with ksDraws := es }) hf (j := j) (by omega) (a := a + 1)
        (show a + 1 + n ≤ s.cfg.keyLen by omega) hrest
      simp only [readKeyFrom, hread, hkey]

/-- The second half of the boot derives the pads from the stored key (R243). -/
theorem ReadsAnswer.bootPads {s : State} {ds : List Bool} (h : ReadsAnswer s.cfg.keyLen s ds) :
    bootPads s = computePads { s with ksDraws := ds } (keyStoreBytes s) := by
  simp only [Machine.bootPads, h.readKeyFrom (Nat.zero_add _).le, keyStoreBytes, List.range_eq_range']

/-- A failing read of the key ends the boot in BOOT_FAIL (R244). -/
theorem bootPads_fails {j : Nat} {s : State} {ds : List Bool} (hf : s.cfg.ksFaultModel = .draw) (hj : j < s.cfg.keyLen)
    (h : ReadsAnswer j s (true :: ds)) : bootPads s = bootFail { s with ksDraws := ds } := by
  simp only [bootPads, readKeyFrom_fails hf hj (Nat.zero_add _).le h]

/-! ## The check of `ks[0]` and the zero-initialisation (R243) -/

/-- The zero-initialisation of a canonical Key Store: every byte reads 0x00, and the bytes that did not are logged (R57). -/
theorem zeroKeyStore_spec {s : State} (hwf : Memory.wf s.ks = true) :
    ∃ m, zeroKeyStore s =
        { s with ks := m, ksLog := s.ksLog ++ differing s (List.replicate s.cfg.keyLen 0x00) } ∧
      (∀ a, a < s.cfg.keyLen → Memory.read m a = 0x00) ∧
      (∀ a, s.cfg.keyLen ≤ a → Memory.read m a = Memory.read s.ks a) := by
  obtain ⟨m, hzero, -, -, hinside, houtside⟩ :=
    ksUpdateAll_spec (List.replicate s.cfg.keyLen 0x00) 0 s (by simp) hwf
  rw [changesFrom_zero List.length_replicate] at hzero
  refine ⟨m, hzero, fun a ha => ?_, fun a ha => houtside a (.inr (by simpa using ha))⟩
  have hread := hinside a (by simpa using ha)
  rw [Nat.zero_add] at hread
  simpa [byteAt, ha] using hread

theorem bootKeystore_of_memRead {s t : State} {v : Byte} (h : memRead s 0 = (some v, t)) :
    bootKeystore s = bootPads (if v = erasedByte then zeroKeyStore t else t) := by
  rw [apply_ite bootPads]
  simp only [bootKeystore, h]

/-- The boot of a device in state `s` after the check of `ks[0]`: what its Key Store holds in `t`, before the key's reads. -/
structure StoreChecked (s t : State) : Prop where
  cfg : t.cfg = s.cfg
  devState : t.clDevState = .dormant
  ksError : t.stKsError = false
  keyKept : Memory.read s.ks 0 ≠ 0xFF → t.ks = s.ks ∧ t.ksLog = s.ksLog
  erasedZeroed : Memory.read s.ks 0 = 0xFF → (∀ a, a < s.cfg.keyLen → Memory.read t.ks a = 0x00) ∧
    (∀ a, s.cfg.keyLen ≤ a → Memory.read t.ks a = Memory.read s.ks a) ∧
    t.ksLog = s.ksLog ++ differing s (List.replicate s.cfg.keyLen 0x00)

/-- A boot whose first read does not fail goes on to the key's reads from a checked store. -/
theorem exec_pwrOn_checked {n : Nat} {s : State} {ds : List Bool} (hc : s.cfg.wf = true) (hwf : Memory.wf s.ks = true)
    (h : ReadsAnswer (n + 1) s ds) :
    ∃ t, exec .pwrOn s = .next (bootPads t) ∧ StoreChecked s t ∧ ReadsAnswer n t ds := by
  obtain ⟨hkeyLen, -⟩ := wf_facts hc
  obtain ⟨hcfg, hdraws, hks, hksLog, hdormant, herror⟩ := powerOnReset_fields s
  rw [exec_pwrOn]
  generalize powerOnReset s = u at *
  obtain ⟨es, hread, hrest⟩ := (h.congr hcfg hdraws).memRead (hcfg ▸ hkeyLen)
  rw [bootKeystore_of_memRead hread]
  by_cases herased : Memory.read s.ks 0 = 0xFF
  · obtain ⟨m, hzero, hinside, houtside⟩ := zeroKeyStore_spec (s := { u with ksDraws := es }) (hks ▸ hwf)
    rw [if_pos (show Memory.read u.ks 0 = erasedByte from hks ▸ herased), hzero]
    exact ⟨_, rfl, {
      cfg := hcfg
      devState := hdormant
      ksError := herror
      keyKept := fun hkey => absurd herased hkey
      erasedZeroed := fun _ => ⟨hcfg ▸ hinside, hcfg ▸ hks ▸ houtside, by simp [differing, hcfg, hks, hksLog]⟩ },
      hrest.congr rfl rfl⟩
  · rw [if_neg (show ¬ Memory.read u.ks 0 = erasedByte from hks ▸ herased)]
    exact ⟨_, rfl, {
      cfg := hcfg
      devState := hdormant
      ksError := herror
      keyKept := fun _ => ⟨hks, hksLog⟩
      erasedZeroed := fun herased' => absurd herased' herased },
      hrest⟩

/-- A boot whose check of `ks[0]` fails writes nothing (R244). -/
theorem exec_pwrOn_unchecked {s : State} {ds : List Bool} (hc : s.cfg.wf = true) (hf : s.cfg.ksFaultModel = .draw)
    (hd : s.ksDraws = true :: ds) :
    exec .pwrOn s = .next (bootFail { powerOnReset s with ksDraws := ds }) := by
  obtain ⟨hkeyLen, -⟩ := wf_facts hc
  obtain ⟨hcfg, hdraws, -⟩ := powerOnReset_fields s
  rw [exec_pwrOn, bootKeystore, memRead_draw (hcfg ▸ hf) (hcfg ▸ hkeyLen) (hdraws.trans hd), if_pos rfl]

/-- Settles O48: the check of `ks[0]`, then N reads and the pads of what they gave. -/
theorem bootInitialisesAndDerivesThePads : Obligations.BootInitialisesAndDerivesThePads := by
  intro s ds hc hreads hwf
  obtain ⟨t, hnext, hchecked, hrest⟩ := exec_pwrOn_checked hc hwf (readsAnswer_iff_readsSucceed.mpr hreads)
  rw [← hchecked.cfg] at hrest
  rw [hrest.bootPads] at hnext
  exact ⟨_, hnext, rfl, hchecked.ksError, rfl, hchecked.cfg ▸ rfl, hchecked.cfg ▸ rfl, hchecked.keyKept,
    hchecked.erasedZeroed⟩

/-- Settles O49: the failing read is the check of `ks[0]`, or one of the key's reads, which follow the
zero-initialisation. -/
theorem bootReadFailureDisablesTheEngine : Obligations.BootReadFailureDisablesTheEngine := by
  intro s j ds hc hf hwf hj hd
  cases j with
  | zero =>
    obtain ⟨-, -, hks, hksLog, hdormant, -⟩ := powerOnReset_fields s
    exact ⟨_, exec_pwrOn_unchecked hc hf hd, rfl, rfl, hdormant, rfl, fun _ => ⟨hks, hksLog⟩, nofun⟩
  | succ j =>
    obtain ⟨t, hnext, hchecked, hrest⟩ := exec_pwrOn_checked hc hwf (.inr ⟨hf, hd⟩ : ReadsAnswer (j + 1) s (true :: ds))
    rw [bootPads_fails (hchecked.cfg ▸ hf) (hchecked.cfg ▸ hj) hrest] at hnext
    refine ⟨_, hnext, rfl, rfl, hchecked.devState, rfl, fun hcase => ?_, fun _ => hchecked.erasedZeroed⟩
    rcases hcase with hzero | hkey
    · exact nomatch hzero
    · exact hchecked.keyKept hkey

end Sys2Proof.Machine
